-- ==== Sys2Proof/Word.lean ====
section
/-! DEFINITION. The word types of the block: bytes, 16-bit fields and 32-bit words (spec/00_scope.md R12). No value
is signed. -/

namespace Sys2Proof

/-- A byte: an unsigned 8-bit value (R12). -/
abbrev Byte := BitVec 8

/-- A 16-bit field: LEN and HID of a command header, HANDLER_ID (R24, R91). -/
abbrev Half := BitVec 16

/-- A 32-bit word: command header, BITRATE, response (R91, R92). -/
abbrev Word := BitVec 32

end Sys2Proof
end

