-- ==== Sys2Proof/Config.lean ====
section
/-! DEFINITION. What an implementation fixes: the build-time parameters of spec/00_scope.md R9, as plain data, and the
opaque constants that stand for what the spec leaves open (R9, R10, R49). -/

namespace Sys2Proof

/-- CK_TEXT, the textual report of a received checksum byte (R89, D11): the default, or any total function from bytes
to byte strings written as its table (row k is the report of byte k). `ckText` in Machine/Operands.lean reads it. -/
inductive CkFormat where
  | decimal
  | table (rows : List (List Byte))
  deriving DecidableEq, Repr

/-- The build-time parameters (R9): "fixed for the life of the hardware". The last two rows of R9's table,
checksumEnabled and bitrate, are run-time state (`cfgCk`, `cfgBitrate`). -/
structure Params where
  /-- inbound buffer capacity and slot capacity, in bytes -/
  C : Nat
  /-- number of outbound slots and maximum queue size -/
  Q : Nat
  /-- TERM_A, first terminator byte -/
  termA : Byte
  /-- TERM_B, second terminator byte -/
  termB : Byte
  /-- OVERFLOW_NOTICE, the payload of the overflow diagnostic -/
  overflowNotice : List Byte
  /-- BADCK_NOTICE, the payload of the first mismatch diagnostic -/
  badckNotice : List Byte
  /-- CK_TEXT -/
  ckFormat : CkFormat
  /-- STOP_RX_AFTER_OVERFLOW (D15) -/
  stopRxAfterOverflow : Bool
  deriving DecidableEq, Repr

/-- The rows a CK_TEXT table must have: one for each byte value, since CK_TEXT is a total function (R9). -/
def CkFormat.total : CkFormat → Bool
  | .decimal => true
  | .table rows => rows.length == 256

/-- The legal values of the parameters (R9): 2 ≤ C ≤ 65535, 1 ≤ Q ≤ 65535, any terminator bytes, any notices, a total
CK_TEXT, any Bool. -/
abbrev Params.Legal (p : Params) : Prop :=
  2 ≤ p.C ∧ p.C ≤ 65535 ∧ 1 ≤ p.Q ∧ p.Q ≤ 65535 ∧ p.ckFormat.total = true

/-- A well-formed configuration has both notices of length at most C−1 (R9, D10, R134). A configuration that is legal
and not well-formed still runs: `enqueue` refuses its notices (R134, I15). -/
abbrev Params.NoticesFit (p : Params) : Prop :=
  p.overflowNotice.length ≤ p.C - 1 ∧ p.badckNotice.length ≤ p.C - 1

/-- The default terminator bytes of R9 (D9), carriage return and line feed. -/
def Params.defaultTermA : Byte := 0x0D
/-- See `defaultTermA`. -/
def Params.defaultTermB : Byte := 0x0A

/-- EX1, the example configuration of R10. A test fixture of the spec, not a property of the hardware. -/
def Params.ex1 : Params where
  C := 8
  Q := 3
  termA := Params.defaultTermA
  termB := Params.defaultTermB
  overflowNotice := [0x4F, 0x56, 0x46]
  badckNotice := [0x42, 0x41, 0x44]
  ckFormat := .decimal
  stopRxAfterOverflow := true

/-- Free choice of the value of C, OPEN in R9 (log entry 6). -/
opaque Config.capacityChoice : Nat
/-- Free choice of the value of Q, OPEN in R9 (log entry 6). -/
opaque Config.slotsChoice : Nat
/-- Free choice of OVERFLOW_NOTICE, OPEN in R9 (log entry 6). -/
opaque Config.overflowNoticeChoice : List Byte
/-- Free choice of BADCK_NOTICE, OPEN in R9 (log entry 6). -/
opaque Config.badckNoticeChoice : List Byte

/-- The parameters of the machine that `State.reset` starts: the OPEN ones are free within the ranges of R9 and D10
(every legal C and Q and every fitting notice is a value of the free choices), the others have R9's defaults. -/
def Config.build : Params where
  C := 2 + Config.capacityChoice % 65534
  Q := 1 + Config.slotsChoice % 65535
  termA := Params.defaultTermA
  termB := Params.defaultTermB
  overflowNotice := Config.overflowNoticeChoice.take (1 + Config.capacityChoice % 65534)
  badckNotice := Config.badckNoticeChoice.take (1 + Config.capacityChoice % 65534)
  ckFormat := .decimal
  stopRxAfterOverflow := true

/-- HANDLER_ID after INIT is unspecified (R49): the free value that the n-th INIT leaves there (log entry 2). -/
opaque Config.freeHandlerId : Nat → Half

end Sys2Proof
end

