-- ==== Sys2Proof/Syntax.lean ====
section
/-! DEFINITION. The instructions: one constructor for each row of spec/opcode_table.json, and the transaction that
carries a host command (spec/30_encoding.md R90). -/

namespace Sys2Proof

/-- A transaction on the host command port (R90): a 32-bit header word and the operand bytes, delivered whole. -/
structure Transaction where
  header : Word
  data : List Byte
  deriving DecidableEq, Repr

/-- The five host commands (R93) and the five internal operations, which have no command encoding (R93). -/
inductive Instr where
  /-- INIT(ck, bitrate): R196 -/
  | init (ck : Bool) (bitrate : Word)
  /-- TICK: R181 -/
  | tick
  /-- ENQUEUE(m), the host command: R190, R151 -/
  | enqueue (m : List Byte)
  /-- GET_MESSAGE: R188 -/
  | getMessage
  /-- SET_HANDLER(hid): R189 -/
  | setHandler (hid : Half)
  /-- CHECKSUM(s), internal: R110 -/
  | checksum (s : List Byte)
  /-- CONSUME_BYTE(b), internal: R121 -/
  | consumeByte (b : Byte)
  /-- DELIVER(p), internal: R132 -/
  | deliver (p : List Byte)
  /-- ENQUEUE_DIAG(m), internal: R133 -/
  | enqueueDiag (m : List Byte)
  /-- PUMP_ONE_BYTE, internal: R156 -/
  | pumpOneByte
  deriving DecidableEq, Repr

/-- The instructions a host can send (R93); the others are performed by the sequencer only. -/
def Instr.isHostCommand : Instr → Bool
  | .init _ _ => true
  | .tick => true
  | .enqueue _ => true
  | .getMessage => true
  | .setHandler _ => true
  | .checksum _ => false
  | .consumeByte _ => false
  | .deliver _ => false
  | .enqueueDiag _ => false
  | .pumpOneByte => false

end Sys2Proof
end

