-- ==== Sys2Proof/WellFormed.lean ====
section
/-! DEFINITION. The checks an instruction's operands pass: the operand ranges of the spec's rules. -/

namespace Sys2Proof

/-- ENQUEUE's LEN is a 16-bit field, so its message has 0 to 65535 bytes (R96, R151). -/
def messageFitsLen (m : List Byte) : Bool :=
  decide (m.length ≤ 65535)

/-- DELIVER's operand is "a byte string of length ≤ C−2" (R132, R122). -/
def payloadFitsMessage (p : Params) (s : List Byte) : Bool :=
  decide (s.length + 2 ≤ p.C)

/-- Well-formedness of an instruction's operands. Every other operand is a value its type bounds, or a byte string of
any length (R110, R133). -/
def Instr.wellFormed (p : Params) : Instr → Bool
  | .init _ _ => true
  | .tick => true
  | .enqueue m => messageFitsLen m
  | .getMessage => true
  | .setHandler _ => true
  | .checksum _ => true
  | .consumeByte _ => true
  | .deliver s => payloadFitsMessage p s
  | .enqueueDiag _ => true
  | .pumpOneByte => true

end Sys2Proof
end

