-- ==== Sys2Proof/Decode.lean ====
section
/-! DEFINITION. Decoding and encoding of host commands (spec/30_encoding.md R90 to R101): the header's fields, the
opcode map, the decoder of a transaction, which rejects by name, the encoder, and the byte order of R62. -/

namespace Sys2Proof

/-! ## Byte order (R62, D22): little-endian -/

/-- A 32-bit word as four bytes, least significant first. -/
def wordBytes (w : Word) : List Byte :=
  [w.extractLsb' 0 8, w.extractLsb' 8 8, w.extractLsb' 16 8, w.extractLsb' 24 8]

/-- The 32-bit word four bytes stand for, least significant first. -/
def wordOfBytes (b0 b1 b2 b3 : Byte) : Word :=
  BitVec.ofNat 32 (b0.toNat + 256 * (b1.toNat + 256 * (b2.toNat + 256 * b3.toNat)))

/-- A transaction as a byte sequence: the header word, then its operand bytes. -/
def Transaction.toBytes (t : Transaction) : List Byte :=
  wordBytes t.header ++ t.data

/-- The transaction a byte sequence stands for: it needs a whole header word (R90). -/
def Transaction.ofBytes : List Byte → Option Transaction
  | b0 :: b1 :: b2 :: b3 :: rest => some ⟨wordOfBytes b0 b1 b2 b3, rest⟩
  | _ => none

/-! ## The header's fields (R91) -/

/-- OPC = H[7:0] -/
def headerOpc (h : Word) : Byte := h.extractLsb' 0 8

/-- CK = H[8] -/
def headerCk (h : Word) : Bool := h.getLsbD 8

/-- RSVD = H[15:9] -/
def headerRsvd (h : Word) : BitVec 7 := h.extractLsb' 9 7

/-- ARG = H[31:16]: LEN of ENQUEUE, HID of SET_HANDLER -/
def headerArg (h : Word) : Half := h.extractLsb' 16 16

/-! ## The opcode map (R93) -/

/-- The rows of the opcode map. -/
inductive HostOp where
  | init
  | tick
  | enqueue
  | getMessage
  | setHandler
  deriving DecidableEq, Repr

/-- The row an OPC names (R93); any other OPC is illegal (R99). -/
def HostOp.ofOpc (opc : Byte) : Option HostOp :=
  if opc = 0x01 then some .init
  else if opc = 0x02 then some .tick
  else if opc = 0x03 then some .enqueue
  else if opc = 0x04 then some .getMessage
  else if opc = 0x05 then some .setHandler
  else none

/-- The row's column "match (H)" (R93). -/
def HostOp.pattern : HostOp → Word
  | .init => 0x00000001
  | .tick => 0x00000002
  | .enqueue => 0x00000003
  | .getMessage => 0x00000004
  | .setHandler => 0x00000005

/-- The row's column "mask (H)" (R93). -/
def HostOp.mask : HostOp → Word
  | .init => 0xFFFFFEFF
  | .tick => 0xFFFFFFFF
  | .enqueue => 0x0000FFFF
  | .getMessage => 0xFFFFFFFF
  | .setHandler => 0x0000FFFF

/-- A header selects a row when (H & mask) = match (R93). -/
def HostOp.selects (op : HostOp) (h : Word) : Bool :=
  h &&& op.mask == op.pattern

/-- The number of operand bytes that go with a header of the row (R90): the BITRATE word of INIT, LEN bytes of
ENQUEUE, none otherwise. -/
def HostOp.operandLength (op : HostOp) (h : Word) : Nat :=
  match op with
  | .init => 4
  | .tick => 0
  | .enqueue => (headerArg h).toNat
  | .getMessage => 0
  | .setHandler => 0

/-! ## Decoding -/

/-- Why a transaction is illegal: the cases of R99, and a byte sequence too short to hold a header. -/
inductive Reject where
  /-- "OPC is 0x00 or 0x06 to 0xFF" -/
  | unknownOpcode
  /-- "a reserved or unused bit is non-zero" -/
  | reservedBits
  /-- "the operand data does not have the length rule R90 requires" -/
  | operandLength
  /-- a byte sequence without a whole header word: no transaction of R90 -/
  | truncatedHeader
  deriving DecidableEq, Repr

/-- INIT's BITRATE word, from its four operand bytes (R94); another number of bytes is no BITRATE word (R99). -/
def decodeInit (h : Word) : List Byte → Except Reject Instr
  | [b0, b1, b2, b3] => .ok (.init (headerCk h) (wordOfBytes b0 b1 b2 b3))
  | _ => .error .operandLength

/-- The instruction of a row, from a header that selects it and operand bytes of the row's length. -/
def HostOp.build (op : HostOp) (h : Word) (data : List Byte) : Except Reject Instr :=
  match op with
  | .init => decodeInit h data
  | .tick => .ok .tick
  | .enqueue => .ok (.enqueue data)
  | .getMessage => .ok .getMessage
  | .setHandler => .ok (.setHandler (headerArg h))

/-- The decoder of a transaction (R93, R99). -/
def decode (t : Transaction) : Except Reject Instr :=
  match HostOp.ofOpc (headerOpc t.header) with
  | none => .error .unknownOpcode
  | some op =>
    if op.selects t.header then
      if t.data.length = op.operandLength t.header then op.build t.header t.data
      else .error .operandLength
    else .error .reservedBits

/-- The decoder on any byte sequence. -/
def decodeBytes (bytes : List Byte) : Except Reject Instr :=
  match Transaction.ofBytes bytes with
  | none => .error .truncatedHeader
  | some t => decode t

/-! ## Encoding (R94 to R98) -/

/-- A header from its fields (R91), RSVD zero. -/
def headerOf (opc : Byte) (ck : Bool) (arg : Half) : Word :=
  arg ++ (0#7 ++ (BitVec.ofBool ck ++ opc))

/-- The transaction of a host command; an internal operation has none (R93). -/
def encode : Instr → Option Transaction
  | .init ck bitrate => some ⟨headerOf 0x01 ck 0, wordBytes bitrate⟩
  | .tick => some ⟨headerOf 0x02 false 0, []⟩
  | .enqueue m => some ⟨headerOf 0x03 false (BitVec.ofNat 16 m.length), m⟩
  | .getMessage => some ⟨headerOf 0x04 false 0, []⟩
  | .setHandler hid => some ⟨headerOf 0x05 false hid, []⟩
  | .checksum _ => none
  | .consumeByte _ => none
  | .deliver _ => none
  | .enqueueDiag _ => none
  | .pumpOneByte => none

/-! ## Words of the opcode table -/

/-- The operand bytes the port delivers with a header: the length its row gives (R90), none for an unknown OPC. -/
def portOperandLength (h : Word) : Nat :=
  match HostOp.ofOpc (headerOpc h) with
  | none => 0
  | some op => op.operandLength h

/-- The transaction whose bits are w, numbered as spec/opcode_table.json numbers them, with every bit above nbits
zero: the header is bits 31..0, operand byte k is bits 8k+39..8k+32. -/
def tableTransaction (nbits w : Nat) : Transaction :=
  let v := w % 2 ^ nbits
  let h : Word := BitVec.ofNat 32 v
  ⟨h, (List.range (portOperandLength h)).map fun k => BitVec.ofNat 8 (v / 2 ^ (32 + 8 * k))⟩

/-- The instruction the decoder reads from a word of the opcode table, through the byte sequence of R62. -/
def decodeTableWord (nbits w : Nat) : Option Instr :=
  match decodeBytes (tableTransaction nbits w).toBytes with
  | .ok i => some i
  | .error _ => none

end Sys2Proof
end

