-- ==== Sys2Proof/Machine/State.lean ====
section
/-! DEFINITION. The state of the block and of its environment (spec/10_state.md), as plain data, its reset
(R49, R240), and the reasons a step can stop. -/

namespace Sys2Proof.Machine

/-- An internal byte memory (R40): the bytes written since power-on, as (index, byte) pairs with rising indices. An
index not listed has unspecified content (R49) and reads as no value (log entry 3). -/
abbrev Memory := List Host.Cell

/-- The canonical form: indices strictly rising. -/
abbrev Memory.wf (m : Memory) : Prop := m.Pairwise fun x y => x.1 < y.1

/-- An entry of the OutboundQueue (R31): a slot and the message's logical length. -/
structure QEntry where
  slot : Nat
  len : Nat
  deriving DecidableEq, Repr

/-- The sequencer's position inside a command (R44). -/
inductive Phase where
  /-- no command is in progress -/
  | idle
  /-- a TICK is in its receive loop -/
  | rx
  /-- a TICK has finished its receive loop and will pump one byte -/
  | pump
  deriving DecidableEq, Repr

/-- A delivery event (h, p) (R47). -/
structure Delivery where
  handler : Half
  payload : List Byte
  deriving DecidableEq, Repr

/-- A response: the word RSP and the data that follows it (R92). -/
structure Response where
  word : Word
  data : List Byte
  deriving DecidableEq, Repr

/-- One move of the channel agent (R46, R227), or `pass`: the channel lets the sequencer take one step (R228). -/
inductive ChannelMove where
  /-- append bytes to CH_IN -/
  | append (bs : List Byte)
  /-- set CH_CAP -/
  | setCap (n : Nat)
  /-- no channel step: the sequencer's turn -/
  | pass
  deriving DecidableEq, Repr

/-- What stops the machine. The rules say that no run comes to any of these (R26, R40, R64, R242, R12); each is safe:
the model stops where it would otherwise invent a value. -/
inductive Fault where
  /-- An index outside an internal memory: "No operation reaches an index out of bounds" (R40). Raised by
  `Memory.load`, `Memory.store` and `slotBase` in Machine/Ops.lean. Safe. -/
  | outOfBounds
  /-- A read of memory content that nothing has written: R242 asks for a fault rather than a value. Raised by
  `Memory.load`. Safe. -/
  | unwrittenByte
  /-- ChRead on an empty channel, "only valid when `available() > 0`" (R64, I1). Raised by `chRead`. Safe. -/
  | chReadEmpty
  /-- ChWrite without capacity, "only valid when `availableForWrite() > 0`" (R64, I2). Raised by `chWrite`. Safe. -/
  | chWriteNoCapacity
  /-- A subtraction of naturals below zero: "Every subtraction the rules write has a result of zero or more" (R12).
  Raised by `pumpOneByte`. Safe. -/
  | negativeDifference
  deriving DecidableEq, Repr

/-- Why the model gives no meaning. -/
inductive Refusal where
  /-- an instruction that the model rejects by name; raised by `exec` only. Safe. -/
  | notModelled (mnemonic : String)
  /-- a host command executed while another is in progress: "that interaction has no step" (R193, I5). Raised by
  `hostCommand` in Machine/Ops.lean; `step` never comes to it. Safe. -/
  | commandInProgress
  deriving DecidableEq, Repr

/-- The state. The first part is the block's (R21 to R45), then the environment's (R46, R47, R257), then the model's
own fields. -/
structure State where
  /-- the build-time parameters (R9); no step changes them -/
  params : Params
  /-- CFG_CK (R21) -/
  cfgCk : Bool
  /-- CFG_BITRATE (R22) -/
  cfgBitrate : Word
  /-- INITIALIZED (R23) -/
  initialized : Bool
  /-- HANDLER_VALID (R24) -/
  handlerValid : Bool
  /-- HANDLER_ID (R24) -/
  handlerId : Half
  /-- RX_BUF[0 .. C) (R25) -/
  rxBuf : Memory
  /-- RX_I (R26) -/
  rxI : Nat
  /-- MSG_LEN (R27) -/
  msgLen : Nat
  /-- MSG_BUF[0 .. C−2) (R27) -/
  msgBuf : Memory
  /-- READY (R28) -/
  ready : Bool
  /-- SLOT[0 .. Q)[0 .. C) (R29): byte k of slot q at index q·C + k -/
  slots : Memory
  /-- SLOT_NEXT (R30) -/
  slotNext : Nat
  /-- QENT[0 .. QSIZE) (R31); QSIZE is its length -/
  qent : List QEntry
  /-- TX_OFF (R32) -/
  txOff : Nat
  /-- TX_TOT (R32) -/
  txTot : Nat
  /-- PHASE (R44) -/
  phase : Phase
  /-- OVF_TICK (R45) -/
  ovfTick : Bool
  /-- CH_IN (R46), oldest byte first -/
  chIn : List Byte
  /-- CH_CAP (R46) -/
  chCap : Nat
  /-- CH_OUT (R46), oldest byte first -/
  chOut : List Byte
  /-- DELIV (R47), oldest event first -/
  deliv : List Delivery
  /-- the responses given so far (R257), oldest first -/
  responses : List Response
  /-- the model's own: the transactions the host will issue, the next one first (R90, R193) -/
  hostQ : List Transaction
  /-- the model's own: the channel agent's coming moves, the next one first (R227, R228) -/
  chanQ : List ChannelMove
  /-- the model's own: the result byte of the last CHECKSUM run as an instruction (R110) -/
  ckResult : Byte
  /-- the model's own: how many free values have been drawn -/
  freeCount : Nat
  deriving DecidableEq, Repr

/-- QSIZE (R31). -/
def State.qsize (s : State) : Nat := s.qent.length

/-- The state after power-on reset (R49, R240) of a block with parameters p, in the environment a run starts in
(spec/95_test_vectors.md section 3). CFG_CK, CFG_BITRATE and HANDLER_ID are unspecified there (log entry 1). -/
def State.powerOn (p : Params) : State where
  params := p
  cfgCk := false
  cfgBitrate := 0
  initialized := false
  handlerValid := false
  handlerId := 0
  rxBuf := []
  rxI := 0
  msgLen := 0
  msgBuf := []
  ready := false
  slots := []
  slotNext := 0
  qent := []
  txOff := 0
  txTot := 0
  phase := .idle
  ovfTick := false
  chIn := []
  chCap := 0
  chOut := []
  deliv := []
  responses := []
  hostQ := []
  chanQ := []
  ckResult := 0
  freeCount := 0

/-- The machine right after power-on reset; its open parameters are free (`Config.build`, log entry 6). -/
def State.reset : State := State.powerOn Config.build

end Sys2Proof.Machine
end

