-- ==== Sys2Proof/Machine/Operands.lean ====
section
/-! DEFINITION. The operand forms of the rules: the checksum of a byte string (spec/40_checksum.md R110), the
diagnostic payloads (spec/30_encoding.md R88, R89), the wire frame (R80), and the status codes and the response word
(R92, R100). -/

namespace Sys2Proof.Machine

/-- `checksum(s)`: the unsigned 8-bit wraparound sum (R110). -/
def checksum (s : List Byte) : Byte :=
  s.foldl (fun acc b => acc + b) 0

/-- The ASCII code of '!' (R88). -/
def bang : Byte := 0x21

/-- The ASCII code of a decimal digit (R19). -/
def digit (k : Nat) : Byte := BitVec.ofNat 8 (0x30 + k)

/-- The default CK_TEXT (R89): decimal ASCII digits, no leading zeros. -/
def decimalText (rx : Byte) : List Byte :=
  let n := rx.toNat
  if n < 10 then [digit n]
  else if n < 100 then [digit (n / 10), digit (n % 10)]
  else [digit (n / 100), digit (n / 10 % 10), digit (n % 10)]

/-- CK_TEXT(rx) (R89). A legal table has a row for every byte. -/
def ckText (f : CkFormat) (rx : Byte) : List Byte :=
  match f with
  | .decimal => decimalText rx
  | .table rows => rows.getD rx.toNat []

/-- The echoed payload of a mismatch, "the literal payload prefixed with `!`" (R88). -/
def echoDiag (p : List Byte) : List Byte := bang :: p

/-- The received-checksum text of a mismatch (R88). -/
def ckDiag (f : CkFormat) (rx : Byte) : List Byte := bang :: ckText f rx

/-- CFG_CK as a number, in TX_TOT = n + CFG_CK + 2 (R156). -/
def State.ckBit (s : State) : Nat := if s.cfgCk then 1 else 0

/-- The wire frame `Payload [Checksum] TERM_A TERM_B` (R80). -/
def wireFrame (p : Params) (ck : Bool) (payload : List Byte) : List Byte :=
  payload ++ (if ck then [checksum payload] else []) ++ [p.termA, p.termB]

/-- The status codes (R100). -/
inductive Status where
  | ok
  | queueFull
  | messageTooLarge
  | illegalCommand
  | notInitialized
  deriving DecidableEq, Repr

/-- The number of a status (R100); codes 5 to 255 are never returned. -/
def Status.code : Status → Byte
  | .ok => 0
  | .queueFull => 1
  | .messageTooLarge => 2
  | .illegalCommand => 3
  | .notInitialized => 4

/-- The response word (R92): STATUS in bits 7..0, READY in bit 8, bits 15..9 zero, LEN in bits 31..16. -/
def responseWord (st : Status) (ready : Bool) (len : Nat) : Word :=
  BitVec.ofNat 16 len ++ (0#7 ++ (BitVec.ofBool ready ++ st.code))

end Sys2Proof.Machine
end

