-- ==== Sys2Proof/Machine/Flags.lean ====
section
/-! DEFINITION. The tests and flag computations of the rules: the checked-path, overflow and receive-loop tests, the
outcome of an enqueue, and the flag writes of TICK (spec/41_rx_assembler.md R121, 42_tx_queue.md R151,
43_scheduler_facade.md R181, R182). -/

namespace Sys2Proof.Machine

/-- The boundary takes the checked path: `CFG_CK == 1 and i > 2` (R121, R126). -/
def checkedPath (ck : Bool) (i : Nat) : Bool := ck && decide (2 < i)

/-- Capacity is reached with no boundary: `i + 1 == C` (R121 step 4). -/
def reachesCapacity (p : Params) (i : Nat) : Bool := decide (i + 1 = p.C)

/-- The outcome of an enqueue, QUEUE_FULL tested first (R151, R152). -/
def enqueueStatus (s : State) (m : List Byte) : Status :=
  if s.qsize = s.params.Q then .queueFull
  else if s.params.C ≤ m.length then .messageTooLarge
  else .ok

/-- The receive loop reads another byte: bytes are available, and no overflow has stopped the loop (R181, R182). -/
def rxContinues (s : State) : Bool :=
  decide (0 < s.chIn.length) && !(s.params.stopRxAfterOverflow && s.ovfTick)

/-- TICK's entry micro-step (R181): OVF_TICK <- 0, PHASE <- RX. -/
def State.enterTick (s : State) : State := { s with ovfTick := false, phase := .rx }

/-- The end of the receive loop (R181): PHASE <- PUMP. -/
def State.endRx (s : State) : State := { s with phase := .pump }

/-- The flag writes after the pump (R181): READY <- 0, OVF_TICK <- 0, PHASE <- IDLE. -/
def State.leaveTick (s : State) : State := { s with ready := false, ovfTick := false, phase := .idle }

end Sys2Proof.Machine
end

