-- ==== Sys2Proof/Machine/Ops.lean ====
section
/-! DEFINITION. The named operations over memory, registers, the channel and the host port, and the operations the
instructions share: `deliver` (spec/41_rx_assembler.md R132), `enqueue` (spec/42_tx_queue.md R151), `enqueueDiag`
(R133). The block has no trap entry and no trap return (spec/60_exceptions.md R210, R222): an error is answered by
`respond` or reported by `enqueueDiag`. -/

namespace Sys2Proof.Machine

/-! ## Internal memories (R14, R40, R61) -/

/-- The byte at an index, if it has been written. -/
def Memory.peek : Memory → Nat → Option Byte
  | [], _ => none
  | (a, b) :: m, k => if a = k then some b else Memory.peek m k

/-- A byte written at an index; the canonical form is kept. -/
def Memory.poke : Memory → Nat → Byte → Memory
  | [], k, v => [(k, v)]
  | (a, b) :: m, k, v =>
    if k < a then (k, v) :: (a, b) :: m
    else if k = a then (k, v) :: m
    else (a, b) :: Memory.poke m k v

/-- `mem[k]` of the byte array of `size` bytes that stands at `base` (R14). -/
def Memory.load (m : Memory) (base size k : Nat) : Except Fault Byte :=
  if k < size then
    match Memory.peek m (base + k) with
    | some b => .ok b
    | none => .error .unwrittenByte
  else .error .outOfBounds

/-- `mem[k] <- b` (R14). -/
def Memory.store (m : Memory) (base size k : Nat) (b : Byte) : Except Fault Memory :=
  if k < size then .ok (Memory.poke m (base + k) b) else .error .outOfBounds

/-- `MemRead(mem, k, n)`: the n bytes from index k on (R14). -/
def Memory.loadRange (m : Memory) (base size k : Nat) : Nat → Except Fault (List Byte)
  | 0 => .ok []
  | n + 1 => do
    let b ← Memory.load m base size k
    let bs ← Memory.loadRange m base size (k + 1) n
    .ok (b :: bs)

/-- `MemWrite(mem, k, len(s), s)` (R14). -/
def Memory.storeRange (m : Memory) (base size k : Nat) : List Byte → Except Fault Memory
  | [] => .ok m
  | b :: bs => do
    let m' ← Memory.store m base size k b
    Memory.storeRange m' base size (k + 1) bs

/-- Where `SLOT[q]` stands in `slots`; there are Q slots (R29). -/
def slotBase (p : Params) (q : Nat) : Except Fault Nat :=
  if q < p.Q then .ok (q * p.C) else .error .outOfBounds

/-- `RX_BUF[k]` -/
def State.rxLoad (s : State) (k : Nat) : Except Fault Byte :=
  Memory.load s.rxBuf 0 s.params.C k

/-- `RX_BUF[0 .. n)` -/
def State.rxSlice (s : State) (n : Nat) : Except Fault (List Byte) :=
  Memory.loadRange s.rxBuf 0 s.params.C 0 n

/-- `RX_BUF[k] <- b` -/
def State.rxStore (s : State) (k : Nat) (b : Byte) : Except Fault State := do
  let m ← Memory.store s.rxBuf 0 s.params.C k b
  .ok { s with rxBuf := m }

/-- `SLOT[q][k]` -/
def State.slotLoad (s : State) (q k : Nat) : Except Fault Byte := do
  let base ← slotBase s.params q
  Memory.load s.slots base s.params.C k

/-- `MemRead(SLOT[q], 0, n)` -/
def State.slotRead (s : State) (q n : Nat) : Except Fault (List Byte) := do
  let base ← slotBase s.params q
  Memory.loadRange s.slots base s.params.C 0 n

/-- `MemWrite(SLOT[q], 0, len(m), m)` -/
def State.slotWrite (s : State) (q : Nat) (m : List Byte) : Except Fault State := do
  let base ← slotBase s.params q
  let mem ← Memory.storeRange s.slots base s.params.C 0 m
  .ok { s with slots := mem }

/-- `MSG_BUF[k]` -/
def State.msgLoad (s : State) (k : Nat) : Except Fault Byte :=
  Memory.load s.msgBuf 0 (s.params.C - 2) k

/-- `MemRead(MSG_BUF, 0, n)` -/
def State.msgRead (s : State) (n : Nat) : Except Fault (List Byte) :=
  Memory.loadRange s.msgBuf 0 (s.params.C - 2) 0 n

/-- `MemWrite(MSG_BUF, 0, len(p), p)` -/
def State.msgWrite (s : State) (p : List Byte) : Except Fault State := do
  let m ← Memory.storeRange s.msgBuf 0 (s.params.C - 2) 0 p
  .ok { s with msgBuf := m }

/-! ## The channel's primitives (R15, R46, R64) -/

/-- `ChAvail()` -/
def chAvail (s : State) : Nat := s.chIn.length

/-- `ChRead()`: the oldest inbound byte, removed from the channel. -/
def chRead (s : State) : Except Fault (Byte × State) :=
  match s.chIn with
  | [] => .error .chReadEmpty
  | b :: rest => .ok (b, { s with chIn := rest })

/-- `ChWriteCap()` -/
def chWriteCap (s : State) : Nat := s.chCap

/-- `ChWrite(b)`. CH_CAP is the channel's (R46). -/
def chWrite (s : State) (b : Byte) : Except Fault State :=
  if chWriteCap s = 0 then .error .chWriteNoCapacity
  else .ok { s with chOut := s.chOut ++ [b] }

/-! ## The host port (R92, R180, R193) -/

/-- `respond(st, ready=r, len=n, data=d)` (R92). -/
def State.respond (s : State) (st : Status) (ready : Bool) (len : Nat) (data : List Byte) : State :=
  { s with responses := s.responses ++ [⟨responseWord st ready len, data⟩] }

/-- `respond(st)`: READY, LEN zero and no data. -/
def State.answer (s : State) (st : Status) : State := s.respond st false 0 []

/-- A response as the byte sequence the port sends: the word RSP, least significant byte first, then the data
(R62, D22, R92). -/
def Response.toBytes (r : Response) : List Byte := wordBytes r.word ++ r.data

/-- LEN = RSP[31:16] (R92). -/
def responseLen (w : Word) : Nat := (w.extractLsb' 16 16).toNat

/-- The response at the head of a byte sequence, and the bytes after it: its data is LEN bytes long (R92, R101). -/
def Response.ofBytes : List Byte → Option (Response × List Byte)
  | b0 :: b1 :: b2 :: b3 :: rest =>
    let w := wordOfBytes b0 b1 b2 b3
    if responseLen w ≤ rest.length then some (⟨w, rest.take (responseLen w)⟩, rest.drop (responseLen w)) else none
  | _ => none

/-- The bytes of all responses given so far, in order. -/
def State.responseBytes (s : State) : List Byte := s.responses.flatMap Response.toBytes

/-- How an operation's result ends an instruction. -/
def outcome : Except Fault State → Host.Outcome State Fault Refusal
  | .ok s => .next s
  | .error f => .fault f

/-- The checks every host command passes before its own rule: no other command is in progress (R193), and, for every
command but INIT, the block is initialised (R180, R191). -/
def hostCommand (needsInit : Bool) (s : State) (body : State → Except Fault State) :
    Host.Outcome State Fault Refusal :=
  if s.phase ≠ .idle then .refused .commandInProgress
  else if needsInit && !s.initialized then .next (s.answer .notInitialized)
  else outcome (body s)

/-! ## Operations the instructions share -/

/-- DELIVER(p) (R132): p becomes the current Message, the registered handler gets its event, READY is set. -/
def deliver (p : List Byte) (s : State) : Except Fault State := do
  let s1 ← ({ s with msgLen := p.length } : State).msgWrite p
  let s2 : State := if s1.handlerValid then { s1 with deliv := s1.deliv ++ [⟨s1.handlerId, p⟩] } else s1
  .ok { s2 with ready := true }

/-- `enqueue(m)` (R151): the outcome and the state after it; a refused enqueue changes nothing. -/
def enqueue (m : List Byte) (s : State) : Except Fault (Status × State) :=
  match enqueueStatus s m with
  | .ok => do
    let s1 ← s.slotWrite s.slotNext m
    .ok (.ok, { s1 with
      qent := s1.qent ++ [⟨s1.slotNext, m.length⟩]
      slotNext := (s1.slotNext + 1) % s1.params.Q })
  | st => .ok (st, s)

/-- ENQUEUE_DIAG(m) (R133): enqueue, the outcome discarded. -/
def enqueueDiag (m : List Byte) (s : State) : Except Fault State := do
  let r ← enqueue m s
  .ok r.2

end Sys2Proof.Machine
end

