-- ==== Sys2Proof/Machine/Checksum.lean ====
section
/-! DEFINITION. The family of spec/40_checksum.md: CHECKSUM (R110). -/

namespace Sys2Proof.Machine

/-- CHECKSUM(s) (R110): pure; its result is one byte, kept in the model's own `ckResult` (log entry 10). -/
def execChecksum (bytes : List Byte) (s : State) : Host.Outcome State Fault Refusal :=
  .next { s with ckResult := checksum bytes }

end Sys2Proof.Machine
end

