-- ==== Sys2Proof/Machine/Facade.lean ====
section
/-! DEFINITION. The family of spec/43_scheduler_facade.md: TICK's entry (R181), GET_MESSAGE (R188), SET_HANDLER (R189),
INIT (R196). TICK's RX and PUMP micro-steps are in Machine/Sequencer.lean. -/

namespace Sys2Proof.Machine

/-- TICK (R181): the entry micro-step. Its response comes from the PUMP micro-step. -/
def execTick (s : State) : Host.Outcome State Fault Refusal :=
  hostCommand true s fun s => .ok s.enterTick

/-- GET_MESSAGE (R188): a copy of the current Message. -/
def getMessage (s : State) : Except Fault State := do
  let d ← s.msgRead s.msgLen
  .ok (s.respond .ok false s.msgLen d)

/-- GET_MESSAGE (R188). -/
def execGetMessage (s : State) : Host.Outcome State Fault Refusal :=
  hostCommand true s getMessage

/-- SET_HANDLER(hid) (R189). -/
def execSetHandler (hid : Half) (s : State) : Host.Outcome State Fault Refusal :=
  hostCommand true s fun s => .ok (({ s with handlerValid := true, handlerId := hid } : State).answer .ok)

/-- The state INIT(ck, bitrate) leaves, before its response (R196, R241). Memories keep their contents; HANDLER_ID is
unspecified after INIT (R49), a free value (log entry 2). -/
def State.initialise (s : State) (ck : Bool) (bitrate : Word) : State :=
  { s with
    cfgCk := ck
    cfgBitrate := bitrate
    handlerValid := false
    handlerId := Config.freeHandlerId s.freeCount
    freeCount := s.freeCount + 1
    rxI := 0
    msgLen := 0
    ready := false
    qent := []
    slotNext := 0
    txOff := 0
    txTot := 0
    ovfTick := false
    initialized := true }

/-- INIT(ck, bitrate) (R196). -/
def execInit (ck : Bool) (bitrate : Word) (s : State) : Host.Outcome State Fault Refusal :=
  hostCommand false s fun s => .ok ((s.initialise ck bitrate).answer .ok)

end Sys2Proof.Machine
end

