-- ==== Sys2Proof/Machine/Rx.lean ====
section
/-! DEFINITION. The family of spec/41_rx_assembler.md: CONSUME_BYTE (R121), DELIVER (R132), ENQUEUE_DIAG (R133). -/

namespace Sys2Proof.Machine

/-- The boundary test of step 2 (R121, R84): `i > 0` first, so RX_BUF[i−1] is read only when i ≥ 1. -/
def isBoundary (s : State) (i : Nat) (b : Byte) : Except Fault Bool :=
  if 0 < i ∧ b = s.params.termB then do
    let a ← s.rxLoad (i - 1)
    .ok (a == s.params.termA)
  else .ok false

/-- The three diagnostics of a checksum mismatch, each attempted in order (R121, R133, R215). -/
def reportMismatch (p : List Byte) (rx : Byte) (s : State) : Except Fault State := do
  let s1 ← enqueueDiag s.params.badckNotice s
  let s2 ← enqueueDiag (echoDiag p) s1
  enqueueDiag (ckDiag s.params.ckFormat rx) s2

/-- What happens to the frame of a boundary found at index i (R121 step 2, R123, R124, R126). -/
def closeFrame (i : Nat) (s : State) : Except Fault State :=
  if checkedPath s.cfgCk i then do
    let rx ← s.rxLoad (i - 2)
    let p ← s.rxSlice (i - 2)
    if checksum p = rx then deliver p s else reportMismatch p rx s
  else do
    let p ← s.rxSlice (i - 1)
    deliver p s

/-- RxOverflow (R121 step 4, R125, R214). -/
def rxOverflow (s : State) : Except Fault State :=
  enqueueDiag s.params.overflowNotice { s with rxI := 0, ovfTick := true }

/-- CONSUME_BYTE(b) (R121). -/
def consumeByte (b : Byte) (s : State) : Except Fault State := do
  let i := s.rxI
  let s1 ← s.rxStore i b
  let boundary ← isBoundary s1 i b
  if boundary then do
    let s2 ← closeFrame i s1
    .ok { s2 with rxI := 0 }
  else if reachesCapacity s1.params i then rxOverflow s1
  else .ok { s1 with rxI := i + 1 }

/-- CONSUME_BYTE(b) (R121). -/
def execConsumeByte (b : Byte) (s : State) : Host.Outcome State Fault Refusal :=
  outcome (consumeByte b s)

/-- DELIVER(p) (R132). -/
def execDeliver (p : List Byte) (s : State) : Host.Outcome State Fault Refusal :=
  outcome (deliver p s)

/-- ENQUEUE_DIAG(m) (R133). -/
def execEnqueueDiag (m : List Byte) (s : State) : Host.Outcome State Fault Refusal :=
  outcome (enqueueDiag m s)

end Sys2Proof.Machine
end

