-- ==== Sys2Proof/Machine/Tx.lean ====
section
/-! DEFINITION. The family of spec/42_tx_queue.md: ENQUEUE, the host command (R151, R190), and PUMP_ONE_BYTE (R156). -/

namespace Sys2Proof.Machine

/-- ENQUEUE_CMD(m) (R190): enqueue, then respond with its outcome. -/
def enqueueCmd (m : List Byte) (s : State) : Except Fault State := do
  let r ← enqueue m s
  .ok (r.2.answer r.1)

/-- ENQUEUE, the host command (R190). -/
def execEnqueue (m : List Byte) (s : State) : Host.Outcome State Fault Refusal :=
  hostCommand true s (enqueueCmd m)

/-- The byte-selection rule (R156), for `rem` bytes left of the head frame. -/
def txByte (s : State) (e : QEntry) (rem : Nat) : Except Fault Byte :=
  if s.cfgCk = true ∧ rem = 3 then do
    let p ← s.slotRead e.slot e.len
    .ok (checksum p)
  else if rem = 2 then .ok s.params.termA
  else if rem = 1 then .ok s.params.termB
  else s.slotLoad e.slot s.txOff

/-- TX_TOT at this byte: computed at the first byte of the head entry (R156). -/
def txTotal (s : State) (e : QEntry) : Nat :=
  if s.txOff = 0 ∧ s.txTot = 0 then e.len + s.ckBit + 2 else s.txTot

/-- The cursor and the queue after a byte has been written (R156, R159): on the last byte of the frame the head is
removed and the cursor returns to (0, 0). -/
def advanceCursor (rest : List QEntry) (total : Nat) (s : State) : State :=
  if s.txOff + 1 = total then { s with qent := rest, txOff := 0, txTot := 0 }
  else { s with txOff := s.txOff + 1, txTot := total }

/-- PUMP_ONE_BYTE (R156). -/
def pumpOneByte (s : State) : Except Fault State :=
  match s.qent with
  | [] => .ok s
  | e :: rest =>
    if chWriteCap s = 0 then .ok s
    else if txTotal s e < s.txOff then .error .negativeDifference
    else do
      let b ← txByte s e (txTotal s e - s.txOff)
      let s1 ← chWrite s b
      .ok (advanceCursor rest (txTotal s e) s1)

/-- PUMP_ONE_BYTE (R156). -/
def execPumpOneByte (s : State) : Host.Outcome State Fault Refusal :=
  outcome (pumpOneByte s)

end Sys2Proof.Machine
end

