-- ==== Sys2Proof/Machine/Dispatch.lean ====
section
/-! DEFINITION. The dispatch: one arm per instruction. -/

namespace Sys2Proof.Machine

def exec (i : Instr) (s : State) : Host.Outcome State Fault Refusal :=
  match i with
  | .init ck bitrate => Sys2Proof.Machine.execInit ck bitrate s
  | .tick => Sys2Proof.Machine.execTick s
  | .enqueue m => Sys2Proof.Machine.execEnqueue m s
  | .getMessage => Sys2Proof.Machine.execGetMessage s
  | .setHandler hid => Sys2Proof.Machine.execSetHandler hid s
  | .checksum bytes => Sys2Proof.Machine.execChecksum bytes s
  | .consumeByte b => Sys2Proof.Machine.execConsumeByte b s
  | .deliver p => Sys2Proof.Machine.execDeliver p s
  | .enqueueDiag m => Sys2Proof.Machine.execEnqueueDiag m s
  | .pumpOneByte => Sys2Proof.Machine.execPumpOneByte s

end Sys2Proof.Machine
end

