-- ==== Sys2Proof/Machine/Sequencer.lean ====
section
/-! DEFINITION. The sequencer's and the channel agent's turns: the command dispatch (spec/43_scheduler_facade.md R180),
the RX and PUMP micro-steps of TICK (R181), and the channel's moves (spec/10_state.md R46). -/

namespace Sys2Proof.Machine

/-- COMMAND(H, data) (R180): an illegal transaction is answered ILLEGAL_COMMAND (R99, R192), any other runs. -/
def command (t : Transaction) (s : State) : Host.Outcome State Fault Refusal :=
  match decode t with
  | .error _ => .next (s.answer .illegalCommand)
  | .ok i => exec i s

/-- PHASE = IDLE: the next host command is accepted, or the sequencer waits (R193, R244). -/
def idleTurn (s : State) : Host.Outcome State Fault Refusal :=
  match s.hostQ with
  | [] => .next s
  | t :: rest => command t { s with hostQ := rest }

/-- PHASE = RX: one RX micro-step (R181). -/
def rxTurn (s : State) : Host.Outcome State Fault Refusal :=
  if rxContinues s then
    match chRead s with
    | .ok (b, s1) => exec (.consumeByte b) s1
    | .error f => .fault f
  else .next s.endRx

/-- The response of a TICK after its pump (R181, R183): READY is returned and cleared. -/
def finishTick (s : State) : State :=
  s.leaveTick.respond .ok s.ready 0 []

/-- PHASE = PUMP: the PUMP micro-step (R181). -/
def pumpTurn (s : State) : Host.Outcome State Fault Refusal :=
  match exec .pumpOneByte s with
  | .next s1 => .next (finishTick s1)
  | .fault f => .fault f
  | .refused r => .refused r

/-- One step of the sequencer (R65, R181). -/
def sequencerTurn (s : State) : Host.Outcome State Fault Refusal :=
  match s.phase with
  | .idle => idleTurn s
  | .rx => rxTurn s
  | .pump => pumpTurn s

/-- One turn of the machine: the channel agent's next move, or the sequencer's step (R228). -/
def turn (s : State) : Host.Outcome State Fault Refusal :=
  match s.chanQ with
  | [] => sequencerTurn s
  | .pass :: rest => sequencerTurn { s with chanQ := rest }
  | .append bs :: rest => .next { s with chanQ := rest, chIn := s.chIn ++ bs }
  | .setCap n :: rest => .next { s with chanQ := rest, chCap := n }

/-- s with a transaction placed so that the very next turn is the sequencer accepting it (log entry 8). -/
def State.withTransaction (s : State) (t : Transaction) : State :=
  { s with phase := .idle, chanQ := .pass :: s.chanQ, hostQ := t :: s.hostQ }

end Sys2Proof.Machine
end

