-- ==== Sys2Proof/Machine/Step.lean ====
section
/-! DEFINITION. The step of the machine. -/

namespace Sys2Proof.Machine

/-- One step: a move of the channel agent, or one atomic step of the sequencer (spec/20_memory.md R65,
spec/60_exceptions.md R228). -/
def step (s : State) : Host.Outcome State Fault Refusal := turn s

/-- s with the opcode-table word w placed at the host command port: the next step accepts it. -/
def State.withFetchWord (s : State) (nbits w : Nat) : State := s.withTransaction (tableTransaction nbits w)

end Sys2Proof.Machine
end

