-- ==== Sys2Proof/Machine/Program.lean ====
section
/-! DEFINITION. The spec's program notation as data (spec/30_encoding.md R102 to R104) and the runs it denotes
(spec/70_reset_and_hazards.md R257): commands and environment actions, one a line, each command run to its response. -/

namespace Sys2Proof.Machine

/-- A line of a program. `@ASSERT` states a condition and is no action (R103); it has no line here. -/
inductive Line where
  /-- a command by its text (R102) -/
  | command (i : Instr)
  /-- a transaction given by its header and data -/
  | transaction (t : Transaction)
  /-- `@IN bs` (R103) -/
  | inbound (bs : List Byte)
  /-- `@CAP n` (R103) -/
  | capacity (n : Nat)
  /-- `TICK*k` (R104) -/
  | ticks (k : Nat)
  deriving DecidableEq, Repr

/-- What a line stands for: `TICK*k` is k consecutive TICK lines (R104), an instruction is its transaction (an internal
operation has none). -/
inductive Action where
  | send (t : Transaction)
  | move (m : ChannelMove)
  deriving DecidableEq, Repr

/-- See `Action`. -/
def Line.actions : Line → List Action
  | .command i => ((encode i).map Action.send).toList
  | .transaction t => [.send t]
  | .inbound bs => [.move (.append bs)]
  | .capacity n => [.move (.setCap n)]
  | .ticks k => List.replicate k (.send ⟨0x00000002, []⟩)

/-- The steps of one action, at most: a TICK on a channel that appends nothing takes one RX micro-step for each
inbound byte, and three more steps. -/
def actionFuel (s : State) : Nat := s.chIn.length + 3

/-- Steps until no command is in progress and none is pending. -/
def settle : Nat → State → Host.Outcome State Fault Refusal
  | 0, s => .next s
  | n + 1, s =>
    match step s with
    | .next s' => if s'.phase = .idle ∧ s'.hostQ = [] then .next s' else settle n s'
    | .fault f => .fault f
    | .refused r => .refused r

/-- One action, from a state in which nothing is pending. -/
def runAction (a : Action) (s : State) : Host.Outcome State Fault Refusal :=
  match a with
  | .send t => settle (actionFuel s) { s with hostQ := s.hostQ ++ [t] }
  | .move m => step { s with chanQ := m :: s.chanQ }

/-- The actions of a program, one after the other. -/
def runActions : List Action → State → Host.Outcome State Fault Refusal
  | [], s => .next s
  | a :: rest, s =>
    match runAction a s with
    | .next s' => runActions rest s'
    | .fault f => .fault f
    | .refused r => .refused r

/-- A program run from a state. -/
def runProgram (lines : List Line) (s : State) : Host.Outcome State Fault Refusal :=
  runActions (lines.flatMap Line.actions) s

/-- "The observation of a run" (R257): the responses, CH_OUT, DELIV and the final state. -/
structure Observation where
  responses : List Response
  chOut : List Byte
  deliv : List Delivery
  final : State
  deriving DecidableEq, Repr

/-- The observation of a run that ended in s; a run whose last TICK has not responded has not ended (R257). -/
def State.observation (s : State) : Option Observation :=
  if s.phase = .idle then some ⟨s.responses, s.chOut, s.deliv, s⟩ else none

end Sys2Proof.Machine
end

