-- ==== Sys2Proof/Safety.lean ====
section
/-! DEFINITION. What counts as a good state: the invariants of spec/10_state.md (R25 to R34), and the terms the
statements use: sequences of instructions, the messages in the queue, byte strings free of the terminator pair. -/

namespace Sys2Proof.Machine

/-! ## The invariant -/

/-- Every memory is canonical and holds only indices of its own array (R40). -/
structure MemoryInv (s : State) : Prop where
  rxWf : Memory.wf s.rxBuf
  msgWf : Memory.wf s.msgBuf
  slotsWf : Memory.wf s.slots
  rxWithin : ∀ c ∈ s.rxBuf, c.1 < s.params.C
  msgWithin : ∀ c ∈ s.msgBuf, c.1 < s.params.C - 2
  slotsWithin : ∀ c ∈ s.slots, c.1 < s.params.Q * s.params.C

/-- "`0 <= i < C` at all times" (R26), and the bytes of the frame in progress have been written (R25, R26). -/
structure RxInv (s : State) : Prop where
  index : s.rxI < s.params.C
  live : ∀ k < s.rxI, ∃ b, s.rxLoad k = .ok b

/-- `MSG_LEN` ≤ C−2 always, and the Message's bytes have been written (R27). -/
structure MsgInv (s : State) : Prop where
  bound : s.msgLen ≤ s.params.C - 2
  live : ∀ k < s.msgLen, ∃ b, s.msgLoad k = .ok b

/-- The queue's bounds (R31, R154), the entries' lengths and bytes (R29, R151), and the slot-occupancy invariant
`QENT[k].slot = (SLOT_NEXT − QSIZE + k) mod Q` (R34). -/
structure QueueInv (s : State) : Prop where
  next : s.slotNext < s.params.Q
  size : s.qsize ≤ s.params.Q
  occupancy : ∀ k e, s.qent[k]? = some e → e.slot = (s.slotNext + s.params.Q - s.qsize + k) % s.params.Q
  entryLen : ∀ e ∈ s.qent, e.len + 1 ≤ s.params.C
  entryLive : ∀ e ∈ s.qent, ∀ k < e.len, ∃ b, s.slotLoad e.slot k = .ok b

/-- The cursor invariant (R33). -/
def CursorInv (s : State) : Prop :=
  (s.txOff = 0 ∧ s.txTot = 0) ∨
  ∃ e, s.qent.head? = some e ∧ s.txTot = e.len + s.ckBit + 2 ∧ 1 ≤ s.txOff ∧ s.txOff < s.txTot

/-- What holds between commands, and before INIT: READY and OVF_TICK are 0 between commands (R28, R45), only an
initialised block runs a TICK (R180, R191), and a block that is not initialised holds no frame, message, entry or
handler (R240). -/
structure PhaseInv (s : State) : Prop where
  idleFlags : s.phase = .idle → s.ready = false ∧ s.ovfTick = false
  busy : s.phase ≠ .idle → s.initialized = true
  fresh : s.initialized = false →
    s.rxI = 0 ∧ s.msgLen = 0 ∧ s.qent = [] ∧ s.handlerValid = false

/-- The invariant of the block: legal parameters (R9) and the invariants of R25 to R34. -/
structure Inv (s : State) : Prop where
  legal : s.params.Legal
  memory : MemoryInv s
  rx : RxInv s
  msg : MsgInv s
  queue : QueueInv s
  cursor : CursorInv s
  phase : PhaseInv s

/-! ## Terms of the statements -/

/-- Instructions executed one after the other, stopping at the first that gives no next state. -/
def execAll : List Instr → State → Host.Outcome State Fault Refusal
  | [], s => .next s
  | i :: rest, s =>
    match exec i s with
    | .next s' => execAll rest s'
    | .fault f => .fault f
    | .refused r => .refused r

/-- The messages the queue holds, head first: entry k holds the k-th byte string in its slot (R29, R31). -/
def Queued (s : State) (ms : List (List Byte)) : Prop :=
  List.Forall₂ (fun (e : QEntry) m => e.len = m.length ∧ s.slotRead e.slot e.len = .ok m) s.qent ms

/-- TERM_A TERM_B occurs nowhere in the byte string (R81). -/
def NoPair (p : Params) (l : List Byte) : Prop :=
  ∀ k, l[k]? = some p.termA → l[k + 1]? ≠ some p.termB

/-- The frame in progress is the byte string l (R26, R42). -/
def FrameSoFar (s : State) (l : List Byte) : Prop :=
  s.rxI = l.length ∧ s.rxSlice l.length = .ok l

/-- The delivery events of one DELIVER(p) in s (R132). -/
def deliveryEvents (s : State) (p : List Byte) : List Delivery :=
  if s.handlerValid then [⟨s.handlerId, p⟩] else []

/-- The messages of a queue after one `enqueue(m)` whose outcome is discarded (R133). -/
def afterDiag (s : State) (ms : List (List Byte)) (m : List Byte) : List (List Byte) :=
  if ms.length < s.params.Q ∧ m.length < s.params.C then ms ++ [m] else ms

/-- It is the sequencer's turn in s, and u is the state it acts on: no channel move is left, or the channel passes
(R228). -/
def SequencerActs (s u : State) : Prop :=
  (s.chanQ = [] ∧ u = s) ∨ ∃ moves, s.chanQ = .pass :: moves ∧ u = { s with chanQ := moves }

/-- The next step is the sequencer accepting an INIT: the only command that writes the configuration (R21, R38). -/
def AcceptsInit (s : State) (ck : Bool) (bitrate : Word) : Prop :=
  s.phase = .idle ∧ ∃ t rest, s.hostQ = t :: rest ∧ decode t = .ok (.init ck bitrate)

/-- The next step is the sequencer accepting a SET_HANDLER (R189). -/
def AcceptsSetHandler (s : State) (hid : Half) : Prop :=
  s.phase = .idle ∧ ∃ t rest, s.hostQ = t :: rest ∧ decode t = .ok (.setHandler hid)

/-- Two states that differ at most in what no rule reads (R42, R242): stale bytes of the memories, HANDLER_ID while no
handler is registered, the configuration before INIT, and the model's own `ckResult` and `freeCount`. -/
structure SameLive (s t : State) : Prop where
  params : t.params = s.params
  initialized : t.initialized = s.initialized
  config : s.initialized = true → t.cfgCk = s.cfgCk ∧ t.cfgBitrate = s.cfgBitrate
  handlerValid : t.handlerValid = s.handlerValid
  handlerId : s.handlerValid = true → t.handlerId = s.handlerId
  rxI : t.rxI = s.rxI
  rxBuf : ∀ k < s.rxI, t.rxLoad k = s.rxLoad k
  msgLen : t.msgLen = s.msgLen
  msgBuf : ∀ k < s.msgLen, t.msgLoad k = s.msgLoad k
  ready : t.ready = s.ready
  qent : t.qent = s.qent
  slots : ∀ e ∈ s.qent, ∀ k < e.len, t.slotLoad e.slot k = s.slotLoad e.slot k
  slotNext : t.slotNext = s.slotNext
  txOff : t.txOff = s.txOff
  txTot : t.txTot = s.txTot
  phase : t.phase = s.phase
  ovfTick : t.ovfTick = s.ovfTick
  chIn : t.chIn = s.chIn
  chCap : t.chCap = s.chCap
  chOut : t.chOut = s.chOut
  deliv : t.deliv = s.deliv
  responses : t.responses = s.responses
  hostQ : t.hostQ = s.hostQ
  chanQ : t.chanQ = s.chanQ

/-- The form of a response (R92, R100): a status 0 to 4, READY only with OK, bits 15..9 zero, LEN bytes of data. -/
def GoodResponse (r : Response) : Prop :=
  (r.word.extractLsb' 0 8).toNat ≤ 4 ∧
    (r.word.getLsbD 8 = true → r.word.extractLsb' 0 8 = 0) ∧
    r.word.extractLsb' 9 7 = 0 ∧
    r.data.length = (r.word.extractLsb' 16 16).toNat

end Sys2Proof.Machine
end

