-- ==== Sys2Proof/Certificates/Slice0/Obligations.lean ====
section
/-! DEFINITION. The statements for the provers, in the order of the spec's files: encodings, dispatch and micro-steps,
each instruction's effect and frame, invariants of every step, rules about the whole machine, and headline results. -/

open Sys2Proof Sys2Proof.Machine

/-! ## Encodings (spec/30_encoding.md) -/

/-- The spec's own byte sequences (examples of R94 to R98) decode to the commands they stand for. -/
def Obligations.WrittenWordsDecode : Prop :=
  decodeBytes [0x01, 0x01, 0x00, 0x00, 0x80, 0x25, 0x00, 0x00] = .ok (.init true 9600) ∧
  decodeBytes [0x02, 0x00, 0x00, 0x00] = .ok .tick ∧
  decodeBytes [0x03, 0x00, 0x02, 0x00, 0x68, 0x69] = .ok (.enqueue [0x68, 0x69]) ∧
  decodeBytes [0x04, 0x00, 0x00, 0x00] = .ok .getMessage ∧
  decodeBytes [0x05, 0x00, 0x07, 0x00] = .ok (.setHandler 7)

/-- R94, R95, R97, R98: the header formulas, for every operand value, with the rules' examples as little-endian bytes. -/
def Obligations.HeaderFormulasDecode : Prop :=
  (∀ (ck : Bool) (bitrate : Word),
    decode ⟨0x00000001#32 ||| ((BitVec.ofBool ck).setWidth 32 <<< 8),
      [bitrate.extractLsb' 0 8, bitrate.extractLsb' 8 8, bitrate.extractLsb' 16 8, bitrate.extractLsb' 24 8]⟩
      = .ok (.init ck bitrate)) ∧
  decode ⟨0x00000002#32, []⟩ = .ok .tick ∧
  decode ⟨0x00000004#32, []⟩ = .ok .getMessage ∧
  (∀ hid : Half, decode ⟨0x00000005#32 ||| (hid.setWidth 32 <<< 16), []⟩ = .ok (.setHandler hid)) ∧
  decodeBytes [0x01, 0x01, 0x00, 0x00, 0x80, 0x25, 0x00, 0x00] = .ok (.init true 9600) ∧
  decodeBytes [0x02, 0x00, 0x00, 0x00] = .ok .tick ∧
  decodeBytes [0x04, 0x00, 0x00, 0x00] = .ok .getMessage ∧
  decodeBytes [0x05, 0x00, 0x07, 0x00] = .ok (.setHandler 7)

/-- R96: ENQUEUE's header formula for every message of 0 to 65535 bytes; a message of C bytes or more is encoded and,
where the queue has room, answered MESSAGE_TOO_LARGE (0x00000002); the rule's example as bytes. -/
def Obligations.EnqueueEncodedUpToLenMax : Prop :=
  (∀ m : List Byte, m.length ≤ 65535 →
    decode ⟨0x00000003#32 ||| (BitVec.ofNat 32 m.length <<< 16), m⟩ = .ok (.enqueue m) ∧
    encode (.enqueue m) = some ⟨0x00000003#32 ||| (BitVec.ofNat 32 m.length <<< 16), m⟩) ∧
  (∀ (m : List Byte) (s : State), m.length ≤ 65535 → s.phase = .idle → s.initialized = true →
    s.params.C ≤ m.length → s.qsize ≠ s.params.Q →
    command ⟨0x00000003#32 ||| (BitVec.ofNat 32 m.length <<< 16), m⟩ s
      = .next { s with responses := s.responses ++ [⟨0x00000002, []⟩] }) ∧
  decodeBytes [0x03, 0x00, 0x02, 0x00, 0x68, 0x69] = .ok (.enqueue [0x68, 0x69])

/-- Decode and encode agree: every well-formed host command, with every operand at every value, is what the decoder
reads from its transaction and from its bytes. -/
def Obligations.DecodeEncodeRoundTrip : Prop :=
  ∀ (p : Params) (i : Instr), i.wellFormed p = true → i.isHostCommand = true →
    ∃ t, encode i = some t ∧ decode t = .ok i ∧ decodeBytes t.toBytes = .ok i

/-- Every legal transaction is the encoding of the command it decodes to: no command has two encodings. -/
def Obligations.EncodeDecodeRoundTrip : Prop :=
  ∀ (t : Transaction) (i : Instr), decode t = .ok i → encode i = some t

/-- R93: the opcode map's rows, at most one row for any header, and no command encoding for an internal operation. -/
def Obligations.OpcodeMapUnambiguous : Prop :=
  HostOp.ofOpc 0x01 = some .init ∧ HostOp.init.pattern = 0x00000001 ∧ HostOp.init.mask = 0xFFFFFEFF ∧
  HostOp.ofOpc 0x02 = some .tick ∧ HostOp.tick.pattern = 0x00000002 ∧ HostOp.tick.mask = 0xFFFFFFFF ∧
  HostOp.ofOpc 0x03 = some .enqueue ∧ HostOp.enqueue.pattern = 0x00000003 ∧ HostOp.enqueue.mask = 0x0000FFFF ∧
  HostOp.ofOpc 0x04 = some .getMessage ∧ HostOp.getMessage.pattern = 0x00000004 ∧
    HostOp.getMessage.mask = 0xFFFFFFFF ∧
  HostOp.ofOpc 0x05 = some .setHandler ∧ HostOp.setHandler.pattern = 0x00000005 ∧
    HostOp.setHandler.mask = 0x0000FFFF ∧
  (∀ (h : Word) (op op' : HostOp), op.selects h = true → op'.selects h = true → op = op') ∧
  (∀ (h : Word) (op : HostOp), op.selects h = true ↔ h &&& op.mask = op.pattern) ∧
  (∀ i : Instr, encode i = none ↔ i.isHostCommand = false) ∧
  (∀ (t : Transaction) (i : Instr), decode t = .ok i → i.isHostCommand = true)

/-- R99, R192, R216: a transaction is illegal in exactly the rule's three cases; it is answered ILLEGAL_COMMAND
(0x00000003) and changes no state, initialised or not. -/
def Obligations.IllegalCommandsAnswered : Prop :=
  (∀ t : Transaction, (∃ r, decode t = .error r) ↔
    (t.header.toNat % 256 = 0 ∨ 6 ≤ t.header.toNat % 256) ∨
    (∃ op, HostOp.ofOpc (headerOpc t.header) = some op ∧ t.header &&& op.mask ≠ op.pattern) ∨
    (t.header.toNat % 256 = 1 ∧ t.data.length ≠ 4) ∨
    (t.header.toNat % 256 = 3 ∧ t.data.length ≠ t.header.toNat / 65536) ∨
    ((t.header.toNat % 256 = 2 ∨ t.header.toNat % 256 = 4 ∨ t.header.toNat % 256 = 5) ∧ t.data ≠ [])) ∧
  (∀ (t : Transaction) (r : Reject) (s : State), decode t = .error r →
    command t s = .next { s with responses := s.responses ++ [⟨0x00000003, []⟩] })

/-- The response word's fields (R92): STATUS, READY, zero bits and LEN stand where the rule puts them. -/
def Obligations.ResponseWordFields : Prop :=
  ∀ (st : Status) (ready : Bool) (len : Nat), len ≤ 65535 →
    (responseWord st ready len).extractLsb' 0 8 = st.code ∧
    (responseWord st ready len).getLsbD 8 = ready ∧
    (responseWord st ready len).extractLsb' 9 7 = 0 ∧
    ((responseWord st ready len).extractLsb' 16 16).toNat = len

/-- The words of commands and responses as bytes (R62, D22): byte k of a word is its bits [8k+7 : 8k], the operand bytes
or the data follow. A well-formed response is read back from its bytes, whatever follows them, and the responses of
95_test_vectors.md's table have the bytes given there. -/
def Obligations.ResponseBytesLittleEndian : Prop :=
  (∀ (t : Transaction) (k : Nat), k < 4 → t.toBytes[k]? = some (t.header.extractLsb' (8 * k) 8)) ∧
  (∀ t : Transaction, t.toBytes.drop 4 = t.data) ∧
  (∀ (r : Response) (k : Nat), k < 4 → r.toBytes[k]? = some (r.word.extractLsb' (8 * k) 8)) ∧
  (∀ r : Response, r.toBytes.drop 4 = r.data) ∧
  (∀ (r : Response) (rest : List Byte), GoodResponse r → Response.ofBytes (r.toBytes ++ rest) = some (r, rest)) ∧
  (⟨responseWord .ok false 0, []⟩ : Response).toBytes = [0x00, 0x00, 0x00, 0x00] ∧
  (⟨responseWord .ok true 0, []⟩ : Response).toBytes = [0x00, 0x01, 0x00, 0x00] ∧
  (⟨responseWord .queueFull false 0, []⟩ : Response).toBytes = [0x01, 0x00, 0x00, 0x00] ∧
  (⟨responseWord .messageTooLarge false 0, []⟩ : Response).toBytes = [0x02, 0x00, 0x00, 0x00] ∧
  (⟨responseWord .illegalCommand false 0, []⟩ : Response).toBytes = [0x03, 0x00, 0x00, 0x00] ∧
  (⟨responseWord .notInitialized false 0, []⟩ : Response).toBytes = [0x04, 0x00, 0x00, 0x00] ∧
  (∀ m : List Byte, m.length ≤ 65535 →
    (⟨responseWord .ok false m.length, m⟩ : Response).toBytes
      = [0x00, 0x00, BitVec.ofNat 8 (m.length % 256), BitVec.ofNat 8 (m.length / 256)] ++ m)

/-- R89: CK_TEXT is a parameter, any total function from bytes to byte strings; its default is the decimal representation
in ASCII digits, one to three of them, without leading zeros. -/
def Obligations.ReportTextIsDecimalByDefault : Prop :=
  (∀ f : Byte → List Byte, ∃ fmt : CkFormat, fmt.total = true ∧ ∀ rx, ckText fmt rx = f rx) ∧
  (∀ rx : Byte, (ckText .decimal rx).foldl (fun acc d => 10 * acc + (d.toNat - 0x30)) 0 = rx.toNat ∧
    (∀ d ∈ ckText .decimal rx, 0x30 ≤ d.toNat ∧ d.toNat ≤ 0x39) ∧
    1 ≤ (ckText .decimal rx).length ∧ (ckText .decimal rx).length ≤ 3 ∧
    ((ckText .decimal rx).head? = some 0x30 → rx = 0)) ∧
  ckText .decimal 0 = [0x30] ∧ ckText .decimal 195 = [0x31, 0x39, 0x35] ∧ ckText .decimal 255 = [0x32, 0x35, 0x35]

/-! ## Dispatch and micro-steps (spec/43_scheduler_facade.md) -/

/-- A step runs the decoded instruction: at PHASE = IDLE, on the sequencer's turn, the step takes the next transaction
off the host port and is exec of the instruction it decodes to (R180); an illegal one is answered ILLEGAL_COMMAND. -/
def Obligations.StepRunsDecodedCommand : Prop :=
  ∀ (s u : State) (t : Transaction) (rest : List Transaction), SequencerActs s u → s.phase = .idle →
    s.hostQ = t :: rest →
    (∀ i, decode t = .ok i → step s = exec i { u with hostQ := rest }) ∧
    (∀ r, decode t = .error r →
      step s = .next { u with hostQ := rest, responses := s.responses ++ [⟨0x00000003, []⟩] })

/-- The RX micro-step (R181, R182): while bytes are available and no overflow stops the loop, the step consumes the
oldest inbound byte; otherwise PHASE becomes PUMP and nothing else changes. -/
def Obligations.RxMicroStep : Prop :=
  ∀ s u : State, SequencerActs s u → s.phase = .rx →
    (∀ b rest, s.chIn = b :: rest → (s.params.stopRxAfterOverflow = false ∨ s.ovfTick = false) →
      step s = exec (.consumeByte b) { u with chIn := rest }) ∧
    (s.chIn = [] → step s = .next { u with phase := .pump }) ∧
    (s.params.stopRxAfterOverflow = true → s.ovfTick = true → step s = .next { u with phase := .pump })

/-- The PUMP micro-step (R181, R183): PUMP_ONE_BYTE runs once, then the response carries READY (0x00000100 or
0x00000000), READY and OVF_TICK are cleared and PHASE returns to IDLE. -/
def Obligations.PumpMicroStep : Prop :=
  ∀ s u v : State, SequencerActs s u → s.phase = .pump → exec .pumpOneByte u = .next v →
    step s = .next { v with
      ready := false, ovfTick := false, phase := .idle
      responses := v.responses ++ [⟨if s.ready then 0x00000100 else 0x00000000, []⟩] }

/-- The channel agent's moves (R46, R228): a step may append bytes to CH_IN or set CH_CAP, in any phase, and changes
nothing else. -/
def Obligations.ChannelMayStepAnytime : Prop :=
  ∀ (s : State) (moves : List ChannelMove),
    (∀ bs, s.chanQ = .append bs :: moves → step s = .next { s with chanQ := moves, chIn := s.chIn ++ bs }) ∧
    (∀ n, s.chanQ = .setCap n :: moves → step s = .next { s with chanQ := moves, chCap := n })

/-- R244: with no command pending the sequencer waits at PHASE = IDLE. -/
def Obligations.IdleSequencerWaits : Prop :=
  ∀ s u : State, SequencerActs s u → s.phase = .idle → s.hostQ = [] → step s = .next u

/-- R191, R217: before INIT every legal command other than INIT is answered NOT_INITIALIZED (0x00000004) and changes no
state. -/
def Obligations.NotInitializedAnswered : Prop :=
  ∀ (i : Instr) (s : State), i.isHostCommand = true → (∀ ck bitrate, i ≠ .init ck bitrate) →
    s.phase = .idle → s.initialized = false →
    exec i s = .next { s with responses := s.responses ++ [⟨0x00000004, []⟩] }

/-- R193: a host command during another command has no step: exec refuses it, and the machine's own step never comes to
a refusal, since a command waits at the port until PHASE = IDLE. -/
def Obligations.NoCommandDuringCommand : Prop :=
  (∀ (i : Instr) (s : State), i.isHostCommand = true → s.phase ≠ .idle → exec i s = .refused .commandInProgress) ∧
  (∀ (s : State) (r : Refusal), step s ≠ .refused r)

/-! ## The instructions' effects and frames -/

/-- R196: INIT at PHASE = IDLE, initialised or not. HANDLER_ID is unspecified afterwards (R49): the statement holds for
whatever value h the free value takes; n is the model's own counter. Memories keep their contents. -/
def Obligations.InitResult : Prop :=
  ∀ (ck : Bool) (bitrate : Word) (s : State), s.phase = .idle →
    ∃ h n, exec (.init ck bitrate) s = .next { s with
      cfgCk := ck, cfgBitrate := bitrate, handlerValid := false, handlerId := h, rxI := 0, msgLen := 0, ready := false
      qent := [], slotNext := 0, txOff := 0, txTot := 0, ovfTick := false, initialized := true, freeCount := n
      responses := s.responses ++ [⟨0x00000000, []⟩] }

/-- TICK's entry micro-step (R181): OVF_TICK <- 0, PHASE <- RX, nothing else. -/
def Obligations.TickEntryResult : Prop :=
  ∀ s : State, s.phase = .idle → s.initialized = true →
    exec .tick s = .next { s with ovfTick := false, phase := .rx }

/-- R188: GET_MESSAGE answers LEN = MSG_LEN and the bytes MSG_BUF[0 .. MSG_LEN), and changes nothing else. -/
def Obligations.GetMessageResult : Prop :=
  ∀ s : State, Inv s → s.phase = .idle → s.initialized = true →
    ∃ d, d.length = s.msgLen ∧ (∀ k (h : k < d.length), s.msgLoad k = .ok d[k]) ∧
      exec .getMessage s = .next { s with responses := s.responses ++ [⟨BitVec.ofNat 32 (65536 * s.msgLen), d⟩] }

/-- R189: SET_HANDLER replaces the registration and answers OK. -/
def Obligations.SetHandlerResult : Prop :=
  ∀ (hid : Half) (s : State), s.phase = .idle → s.initialized = true →
    exec (.setHandler hid) s = .next { s with
      handlerValid := true, handlerId := hid, responses := s.responses ++ [⟨0x00000000, []⟩] }

/-- ENQUEUE with room in the queue and a message shorter than C (R151, R153, R190): the message stands in
SLOT[SLOT_NEXT], every other slot byte is as before, the entry is appended, SLOT_NEXT advances modulo Q, the answer is
OK. -/
def Obligations.EnqueueAccepted : Prop :=
  ∀ (m : List Byte) (s : State), Inv s → s.phase = .idle → s.initialized = true → s.qsize < s.params.Q →
    m.length < s.params.C →
    ∃ mem, exec (.enqueue m) s = .next { s with
        slots := mem, qent := s.qent ++ [⟨s.slotNext, m.length⟩], slotNext := (s.slotNext + 1) % s.params.Q
        responses := s.responses ++ [⟨0x00000000, []⟩] } ∧
      (∀ k (h : k < m.length), ({ s with slots := mem } : State).slotLoad s.slotNext k = .ok m[k]) ∧
      (∀ q k, ¬(q = s.slotNext ∧ k < m.length) →
        ({ s with slots := mem } : State).slotLoad q k = s.slotLoad q k)

/-- ENQUEUE refused (R151, R152, R212, R213): QUEUE_FULL (0x00000001) whenever QSIZE = Q, whatever the length;
MESSAGE_TOO_LARGE (0x00000002) when the queue has room and LEN ≥ C; no state changes. -/
def Obligations.EnqueueRefusedInOrder : Prop :=
  ∀ (m : List Byte) (s : State), s.phase = .idle → s.initialized = true →
    (s.qsize = s.params.Q →
      exec (.enqueue m) s = .next { s with responses := s.responses ++ [⟨0x00000001, []⟩] }) ∧
    (s.qsize ≠ s.params.Q → s.params.C ≤ m.length →
      exec (.enqueue m) s = .next { s with responses := s.responses ++ [⟨0x00000002, []⟩] })

/-- R133: ENQUEUE_DIAG makes the same checks as a host ENQUEUE and discards the outcome: a refused diagnostic changes
nothing, an accepted one is appended to the queue; no response is given. -/
def Obligations.EnqueueDiagResult : Prop :=
  ∀ (m : List Byte) (s : State), Inv s →
    ((s.qsize = s.params.Q ∨ s.params.C ≤ m.length) → exec (.enqueueDiag m) s = .next s) ∧
    (s.qsize < s.params.Q → m.length < s.params.C →
      ∃ mem, exec (.enqueueDiag m) s = .next { s with
          slots := mem, qent := s.qent ++ [⟨s.slotNext, m.length⟩], slotNext := (s.slotNext + 1) % s.params.Q } ∧
        (∀ k (h : k < m.length), ({ s with slots := mem } : State).slotLoad s.slotNext k = .ok m[k]) ∧
        (∀ q k, ¬(q = s.slotNext ∧ k < m.length) →
          ({ s with slots := mem } : State).slotLoad q k = s.slotLoad q k))

/-- R110: CHECKSUM's result is the sum of the bytes modulo 256, for any byte string; no state of the spec changes.
`ckResult`, where the result stands, is the model's own field (log entry 10). -/
def Obligations.ChecksumIsSumMod256 : Prop :=
  ∀ (l : List Byte) (s : State),
    ∃ c : Byte, c.toNat = (l.map BitVec.toNat).sum % 256 ∧ exec (.checksum l) s = .next { s with ckResult := c }

/-- R132: DELIVER of a payload of length at most C−2: MSG_LEN and MSG_BUF hold it, later bytes of MSG_BUF are as before,
READY is 1, and exactly when a handler is registered one event (HANDLER_ID, p) is appended to DELIV. -/
def Obligations.DeliverResult : Prop :=
  ∀ (p : List Byte) (s : State), p.length + 2 ≤ s.params.C →
    ∃ mem, exec (.deliver p) s = .next { s with
        msgLen := p.length, msgBuf := mem, ready := true
        deliv := if s.handlerValid = true then s.deliv ++ [⟨s.handlerId, p⟩] else s.deliv } ∧
      (∀ k (h : k < p.length), ({ s with msgBuf := mem } : State).msgLoad k = .ok p[k]) ∧
      (∀ k, p.length ≤ k → ({ s with msgBuf := mem } : State).msgLoad k = s.msgLoad k)

/-- CONSUME_BYTE of a byte that ends no frame and does not fill the buffer (R121 steps 1 and 3): it is stored at index
RX_I and RX_I advances; nothing else changes. -/
def Obligations.ConsumeByteExtendsFrame : Prop :=
  ∀ (l : List Byte) (b : Byte) (s : State), Inv s → FrameSoFar s l →
    ¬(l.getLast? = some s.params.termA ∧ b = s.params.termB) → l.length + 1 < s.params.C →
    ∃ mem, exec (.consumeByte b) s = .next { s with rxBuf := mem, rxI := s.rxI + 1 } ∧
      FrameSoFar { s with rxBuf := mem, rxI := s.rxI + 1 } (l ++ [b]) ∧
      (∀ k, k ≠ s.rxI → ({ s with rxBuf := mem } : State).rxLoad k = s.rxLoad k)

/-- RxOverflow (R125, R214): a byte at index C−1 that ends no frame. RX_I <- 0, OVF_TICK <- 1, and then one
ENQUEUE_DIAG(OVERFLOW_NOTICE) runs: its outcome is the instruction's. The Message, READY and DELIV are unchanged. -/
def Obligations.ConsumeByteOverflows : Prop :=
  ∀ (l : List Byte) (b : Byte) (s : State), Inv s → FrameSoFar s l →
    ¬(l.getLast? = some s.params.termA ∧ b = s.params.termB) → l.length + 1 = s.params.C →
    ∃ mem t, exec (.consumeByte b) s = .next t ∧
      exec (.enqueueDiag s.params.overflowNotice) { s with rxBuf := mem, rxI := 0, ovfTick := true } = .next t ∧
      (∀ k, k ≠ s.rxI → t.rxLoad k = s.rxLoad k) ∧ t.rxLoad s.rxI = .ok b ∧
      t.rxI = 0 ∧ t.ovfTick = true ∧ t.msgLen = s.msgLen ∧ t.msgBuf = s.msgBuf ∧ t.ready = s.ready ∧
      t.deliv = s.deliv ∧ (∀ ms, Queued s ms → Queued t (afterDiag s ms s.params.overflowNotice))

/-- The unchecked path (R124, and R126 for frames of two or three bytes in checksum mode): TERM_B after TERM_A with
checksum mode off, or with a payload of at most one byte: the payload, without TERM_A, is delivered; RX_I <- 0. -/
def Obligations.ConsumeByteDeliversUnchecked : Prop :=
  ∀ (p : List Byte) (s : State), Inv s → FrameSoFar s (p ++ [s.params.termA]) →
    (s.cfgCk = false ∨ p.length ≤ 1) →
    ∃ rx msg, exec (.consumeByte s.params.termB) s = .next { s with
        rxBuf := rx, rxI := 0, msgLen := p.length, msgBuf := msg, ready := true
        deliv := if s.handlerValid = true then s.deliv ++ [⟨s.handlerId, p⟩] else s.deliv } ∧
      (∀ k (h : k < p.length), ({ s with msgBuf := msg } : State).msgLoad k = .ok p[k]) ∧
      (∀ k, p.length ≤ k → ({ s with msgBuf := msg } : State).msgLoad k = s.msgLoad k) ∧
      (∀ k, k ≠ s.rxI → ({ s with rxBuf := rx } : State).rxLoad k = s.rxLoad k) ∧
      ({ s with rxBuf := rx } : State).rxLoad s.rxI = .ok s.params.termB

/-- The checked path, sum equal (R123): the payload is delivered; RX_I <- 0. -/
def Obligations.ConsumeByteDeliversChecked : Prop :=
  ∀ (p : List Byte) (s : State), Inv s → s.cfgCk = true → p ≠ [] →
    FrameSoFar s (p ++ [BitVec.ofNat 8 (p.map BitVec.toNat).sum, s.params.termA]) →
    ∃ rx msg, exec (.consumeByte s.params.termB) s = .next { s with
        rxBuf := rx, rxI := 0, msgLen := p.length, msgBuf := msg, ready := true
        deliv := if s.handlerValid = true then s.deliv ++ [⟨s.handlerId, p⟩] else s.deliv } ∧
      (∀ k (h : k < p.length), ({ s with msgBuf := msg } : State).msgLoad k = .ok p[k]) ∧
      (∀ k, p.length ≤ k → ({ s with msgBuf := msg } : State).msgLoad k = s.msgLoad k) ∧
      (∀ k, k ≠ s.rxI → ({ s with rxBuf := rx } : State).rxLoad k = s.rxLoad k) ∧
      ({ s with rxBuf := rx } : State).rxLoad s.rxI = .ok s.params.termB

/-- ChecksumMismatch (R123, R215): nothing is delivered, RX_I <- 0, and ENQUEUE_DIAG runs for BADCK_NOTICE, `!` and the
payload, and `!` and CK_TEXT(rx), in that order, each whatever became of the one before (R133). The Message, READY and
DELIV are unchanged (R135). -/
def Obligations.ConsumeByteReportsMismatch : Prop :=
  ∀ (p : List Byte) (rx : Byte) (s : State), Inv s → s.cfgCk = true → p ≠ [] →
    rx ≠ BitVec.ofNat 8 (p.map BitVec.toNat).sum → FrameSoFar s (p ++ [rx, s.params.termA]) →
    ∃ mem t, exec (.consumeByte s.params.termB) s = .next { t with rxI := 0 } ∧
      execAll [.enqueueDiag s.params.badckNotice, .enqueueDiag (0x21 :: p),
          .enqueueDiag (0x21 :: ckText s.params.ckFormat rx)] { s with rxBuf := mem } = .next t ∧
      (∀ k, k ≠ s.rxI → t.rxLoad k = s.rxLoad k) ∧ t.rxLoad s.rxI = .ok s.params.termB ∧
      t.msgLen = s.msgLen ∧ t.msgBuf = s.msgBuf ∧ t.ready = s.ready ∧ t.deliv = s.deliv ∧ t.ovfTick = s.ovfTick ∧
      (∀ ms, Queued s ms → Queued { t with rxI := 0 }
        (afterDiag s (afterDiag s (afterDiag s ms s.params.badckNotice) (0x21 :: p))
          (0x21 :: ckText s.params.ckFormat rx)))

/-- An effective PUMP_ONE_BYTE (R156, R157, R159): it writes byte TX_OFF of the head message's wire frame, and advances
the cursor, or on the frame's last byte removes the head entry and returns the cursor to (0, 0); no memory changes. -/
def Obligations.PumpSendsNextFrameByte : Prop :=
  ∀ (m : List Byte) (ms : List (List Byte)) (s : State), Inv s → Queued s (m :: ms) → s.chCap ≠ 0 →
    ∃ b, (wireFrame s.params s.cfgCk m)[s.txOff]? = some b ∧
      (s.txOff + 1 < m.length + s.ckBit + 2 →
        exec .pumpOneByte s = .next { s with
          chOut := s.chOut ++ [b], txOff := s.txOff + 1, txTot := m.length + s.ckBit + 2 }) ∧
      (s.txOff + 1 = m.length + s.ckBit + 2 →
        exec .pumpOneByte s = .next { s with
          chOut := s.chOut ++ [b], qent := s.qent.tail, txOff := 0, txTot := 0 }) ∧
      s.txOff + 1 ≤ m.length + s.ckBit + 2

/-- R160: PUMP_ONE_BYTE writes exactly one byte when an entry is queued and the channel has capacity, whatever the
capacity; otherwise it is a no-op. -/
def Obligations.PumpWritesOneByteOrNothing : Prop :=
  ∀ s : State,
    (Inv s → s.qent ≠ [] → s.chCap ≠ 0 → ∃ b t, exec .pumpOneByte s = .next t ∧ t.chOut = s.chOut ++ [b]) ∧
    ((s.qent = [] ∨ s.chCap = 0) → exec .pumpOneByte s = .next s)

/-! ## The checksum (spec/40_checksum.md) -/

/-- R111: the laws of the checksum. -/
def Obligations.ChecksumLaws : Prop :=
  checksum [] = 0 ∧
  (∀ s t : List Byte, checksum (s ++ t) = checksum s + checksum t) ∧
  (∀ s t : List Byte, s.Perm t → checksum s = checksum t) ∧
  (∀ s : List Byte, checksum (s ++ [BitVec.ofNat 8 ((256 - (checksum s).toNat) % 256)]) = 0) ∧
  (∀ (s : List Byte) (b : Byte), checksum (s ++ List.replicate 256 b) = checksum s) ∧
  (∀ s : List Byte, (checksum s).toNat = (s.map BitVec.toNat).sum % 256)

/-- R112: what the checksum detects and what it does not: every change of one byte changes it; inserting or removing
0x00 bytes, reordering, and two changes whose differences sum to 0 do not. -/
def Obligations.ChecksumDetectionLimits : Prop :=
  (∀ (s t : List Byte) (b c : Byte), b ≠ c → checksum (s ++ b :: t) ≠ checksum (s ++ c :: t)) ∧
  (∀ s t : List Byte, checksum (s ++ 0 :: t) = checksum (s ++ t)) ∧
  (∀ s t : List Byte, s.Perm t → checksum s = checksum t) ∧
  (∀ (s t u : List Byte) (b c d : Byte),
    checksum (s ++ (b + d) :: (t ++ (c - d) :: u)) = checksum (s ++ b :: (t ++ c :: u)))

/-! ## Invariants -/

/-- The invariant holds after power-on reset for every legal configuration, and so at State.reset, whose open parameters
are legal with notices that fit. -/
def Obligations.ResetIsGood : Prop :=
  (∀ p : Params, p.Legal → Inv (State.powerOn p)) ∧ Inv State.reset ∧ State.reset.params.NoticesFit

/-- R240: what power-on reset leaves, for the elements the rule gives a value. -/
def Obligations.PowerOnValues : Prop :=
  ∀ p : Params,
    (State.powerOn p).initialized = false ∧ (State.powerOn p).handlerValid = false ∧ (State.powerOn p).rxI = 0 ∧
    (State.powerOn p).msgLen = 0 ∧ (State.powerOn p).ready = false ∧ (State.powerOn p).qsize = 0 ∧
    (State.powerOn p).slotNext = 0 ∧ (State.powerOn p).txOff = 0 ∧ (State.powerOn p).txTot = 0 ∧
    (State.powerOn p).phase = .idle ∧ (State.powerOn p).ovfTick = false

/-- Every step keeps the invariant: index bounds, live bytes, slot occupancy, the cursor and the flags between commands
(R26, R27, R28, R31, R33, R34, R45), whatever the host and the channel do. -/
def Obligations.StepKeepsInvariant : Prop :=
  ∀ s t : State, Inv s → step s = .next t → Inv t

/-- R210: no error stops the machine: from every good state, whatever the host and the channel do, a step gives a next
state. -/
def Obligations.GoodStateNeverStops : Prop :=
  ∀ s : State, Inv s → ∃ t, step s = .next t

/-- Every next state of every step keeps the memories' canonical form and stays within their index ranges, also from
states that are not good (R40). -/
def Obligations.StepKeepsMemoriesCanonical : Prop :=
  ∀ s t : State, MemoryInv s → step s = .next t → MemoryInv t

/-- The responses given are well formed (R92, R100), and every step keeps them so. -/
def Obligations.ResponsesStayWellFormed : Prop :=
  ∀ s t : State, Inv s → (∀ r ∈ s.responses, GoodResponse r) → step s = .next t → ∀ r ∈ t.responses, GoodResponse r

/-! ## Rules about the whole machine -/

/-- The build-time parameters are fixed for the life of the hardware (R9), and nothing leaves the initialised mode
(R223): for every step from every state. -/
def Obligations.ParametersAndModeStay : Prop :=
  ∀ s t : State, step s = .next t → t.params = s.params ∧ (s.initialized = true → t.initialized = true)

/-- CFG_CK and CFG_BITRATE are written only by INIT (R21, R38), HANDLER_VALID and HANDLER_ID only by INIT and
SET_HANDLER (R24, R189), INITIALIZED only by INIT (R23). -/
def Obligations.ControlRegistersWrittenOnlyByCommands : Prop :=
  ∀ s t : State, step s = .next t →
    (t.cfgCk = s.cfgCk ∧ t.cfgBitrate = s.cfgBitrate ∧ t.initialized = s.initialized ∧
      t.handlerValid = s.handlerValid ∧ t.handlerId = s.handlerId) ∨
    (∃ hid, AcceptsSetHandler s hid ∧ t.handlerValid = true ∧ t.handlerId = hid ∧
      t.cfgCk = s.cfgCk ∧ t.cfgBitrate = s.cfgBitrate ∧ t.initialized = s.initialized) ∨
    (∃ ck bitrate, AcceptsInit s ck bitrate ∧ t.cfgCk = ck ∧ t.cfgBitrate = bitrate ∧ t.initialized = true ∧
      t.handlerValid = false)

/-- The Message is written only inside a receive loop by a delivery, which sets READY, or emptied by INIT (R27, R135);
delivery events are only appended, at most one a step, only with a handler registered and READY set (R47, R132). -/
def Obligations.MessageWrittenOnlyByDelivery : Prop :=
  ∀ s t : State, step s = .next t →
    (t.msgLen = s.msgLen ∧ t.msgBuf = s.msgBuf ∧ t.deliv = s.deliv) ∨
    (s.phase = .rx ∧ t.ready = true ∧ ∃ p : List Byte, t.msgLen = p.length ∧
      t.deliv = if s.handlerValid = true then s.deliv ++ [⟨s.handlerId, p⟩] else s.deliv) ∨
    (∃ ck bitrate, AcceptsInit s ck bitrate ∧ t.msgLen = 0 ∧ t.msgBuf = s.msgBuf ∧ t.deliv = s.deliv)

/-- R224, R160: between TICKs no byte is read or written: CH_OUT changes only in a PUMP micro-step, by one byte, with an
entry queued and capacity; a byte leaves CH_IN only in an RX micro-step, the oldest one; the channel only appends. -/
def Obligations.ChannelTrafficOnlyInsideTick : Prop :=
  ∀ s t : State, step s = .next t →
    (t.chOut = s.chOut ∨
      (s.phase = .pump ∧ s.qent ≠ [] ∧ s.chCap ≠ 0 ∧ t.phase = .idle ∧ ∃ b, t.chOut = s.chOut ++ [b])) ∧
    ((∃ bs, t.chIn = s.chIn ++ bs) ∨ (s.phase = .rx ∧ ∃ b, s.chIn = b :: t.chIn))

/-- R44, R193, R194: PHASE moves only as TICK's micro-steps do; a command leaves the host port only at IDLE; a response
is given only when a command ends, one for each: at once, or for a TICK in its PUMP micro-step. -/
def Obligations.OneResponsePerCommand : Prop :=
  ∀ s t : State, step s = .next t →
    (t.phase = s.phase ∧ t.hostQ = s.hostQ ∧ t.responses = s.responses) ∨
    (s.phase = .idle ∧ t.phase = .idle ∧ (∃ c, s.hostQ = c :: t.hostQ ∧ (decode c ≠ .ok .tick ∨ s.initialized = false)) ∧
      ∃ r, t.responses = s.responses ++ [r]) ∨
    (s.phase = .idle ∧ t.phase = .rx ∧ (∃ c, s.hostQ = c :: t.hostQ ∧ decode c = .ok .tick) ∧
      t.responses = s.responses) ∨
    (s.phase = .rx ∧ t.phase = .pump ∧ t.hostQ = s.hostQ ∧ t.responses = s.responses) ∨
    (s.phase = .pump ∧ t.phase = .idle ∧ t.hostQ = s.hostQ ∧ ∃ r, t.responses = s.responses ++ [r])

/-! ## Headline results -/

/-- The queue is a FIFO of messages (R41, R70, R155): a step appends messages at the tail, or drops the head in a PUMP
micro-step, and changes no other message, unless it accepts an INIT, which empties the queue. -/
def Obligations.QueueRefinesFifo : Prop :=
  ∀ (s t : State) (ms : List (List Byte)), Inv s → Queued s ms → step s = .next t →
    (∃ added, Queued t (ms ++ added) ∧ (added ≠ [] → s.phase ≠ .pump)) ∨
    (s.phase = .pump ∧ ms ≠ [] ∧ Queued t ms.tail) ∨
    (∃ ck bitrate, AcceptsInit s ck bitrate ∧ Queued t [])

/-- R161: a whole frame takes exactly len + CFG_CK + 2 effective pumps: they write the head message's wire frame and
nothing else, and leave the rest of the queue with the cursor at (0, 0). -/
def Obligations.FrameSentByEffectivePumps : Prop :=
  ∀ (m : List Byte) (ms : List (List Byte)) (s : State), Inv s → Queued s (m :: ms) → s.chCap ≠ 0 →
    s.txOff = 0 → s.txTot = 0 →
    ∃ t, execAll (List.replicate (m.length + s.ckBit + 2) .pumpOneByte) s = .next t ∧
      t.chOut = s.chOut ++ wireFrame s.params s.cfgCk m ∧ Queued t ms ∧ t.qent = s.qent.tail ∧
      t.txOff = 0 ∧ t.txTot = 0 ∧
      (∀ n < m.length + s.ckBit + 2, ∃ u, execAll (List.replicate n .pumpOneByte) s = .next u ∧ u.qent = s.qent)

/-- The receiver reproduces a payload from its wire frame (spec/95_test_vectors.md S1): fed the frame from RX_I = 0, it
delivers the payload, once, if the frame fits C, TERM_A TERM_B does not occur before the frame's end, and, in checksum
mode, the payload is not empty. -/
def Obligations.ReceiverReproducesPayload : Prop :=
  ∀ (p : List Byte) (s : State), Inv s → s.rxI = 0 →
    (wireFrame s.params s.cfgCk p).length ≤ s.params.C →
    NoPair s.params ((wireFrame s.params s.cfgCk p).dropLast) → (s.cfgCk = true → p ≠ []) →
    ∃ t, execAll ((wireFrame s.params s.cfgCk p).map .consumeByte) s = .next t ∧
      t.rxI = 0 ∧ t.ready = true ∧ t.msgLen = p.length ∧ t.msgRead p.length = .ok p ∧
      t.deliv = (if s.handlerValid = true then s.deliv ++ [⟨s.handlerId, p⟩] else s.deliv) ∧
      t.qent = s.qent ∧ t.slots = s.slots ∧ t.ovfTick = s.ovfTick

/-- R127: in checksum mode the empty message's frame is [0x00, TERM_A, TERM_B], and the receiver delivers from it the
one-byte payload [0x00], not the empty payload. -/
def Obligations.EmptyMessageArrivesAsZeroByte : Prop :=
  ∀ s : State, Inv s → s.rxI = 0 → s.cfgCk = true → 3 ≤ s.params.C → ¬(s.params.termA = 0 ∧ s.params.termB = 0) →
    wireFrame s.params true [] = [0x00, s.params.termA, s.params.termB] ∧
    ∃ t, execAll ((wireFrame s.params true []).map .consumeByte) s = .next t ∧
      t.rxI = 0 ∧ t.ready = true ∧ t.msgLen = 1 ∧ t.msgRead 1 = .ok [0x00]

/-- R125: C bytes with no boundary among them, fed from RX_I = 0: exactly one overflow, at the C-th byte: OVF_TICK is set
by the last byte only, one notice is enqueued (or dropped), and no message is delivered. -/
def Obligations.OverflowExactlyOnce : Prop :=
  ∀ (l : List Byte) (s : State), Inv s → s.rxI = 0 → s.ovfTick = false → l.length = s.params.C →
    NoPair s.params l →
    (∃ u, execAll (l.dropLast.map .consumeByte) s = .next u ∧ u.ovfTick = false ∧ u.rxI + 1 = s.params.C ∧
      u.qent = s.qent) ∧
    ∃ t, execAll (l.map .consumeByte) s = .next t ∧ t.ovfTick = true ∧ t.rxI = 0 ∧
      t.msgLen = s.msgLen ∧ t.msgBuf = s.msgBuf ∧ t.ready = s.ready ∧ t.deliv = s.deliv ∧
      ∀ ms, Queued s ms → Queued t (afterDiag s ms s.params.overflowNotice)

/-- R154: QSIZE is at most Q after every step; Q+1 messages enqueued into an empty queue with no pump between are answered
OK Q times and then QUEUE_FULL, and QSIZE stays Q. -/
def Obligations.QueueFullAtQPlusOne : Prop :=
  (∀ s t : State, Inv s → step s = .next t → t.qsize ≤ t.params.Q) ∧
  ∀ (ms : List (List Byte)) (s : State), Inv s → s.phase = .idle → s.initialized = true → s.qent = [] →
    ms.length = s.params.Q + 1 → (∀ m ∈ ms, m.length < s.params.C) →
    ∃ t, execAll (ms.map .enqueue) s = .next t ∧
      t.responses = s.responses ++ List.replicate s.params.Q ⟨0x00000000, []⟩ ++ [⟨0x00000001, []⟩] ∧
      t.qsize = s.params.Q ∧ Queued t (ms.take s.params.Q)

/-- A TICK ends (R181 to R184, R187): if the channel makes no move, it responds within one step for each inbound byte and
three more, gives one response, sends at most one byte, and with STOP_RX_AFTER_OVERFLOW false empties CH_IN; with a
handler registered, READY = 1 is answered exactly when a message was delivered. -/
def Obligations.TickCompletes : Prop :=
  ∀ (s : State) (c : Transaction) (rest : List Transaction), Inv s → s.phase = .idle → s.initialized = true →
    s.chanQ = [] → s.hostQ = c :: rest → decode c = .ok .tick →
    ∃ n t, n ≤ s.chIn.length + 3 ∧ Sys2Proof.core.run n s = .next t ∧ t.phase = .idle ∧ t.hostQ = rest ∧
      (∃ ready : Bool, t.responses = s.responses ++ [⟨if ready then 0x00000100 else 0x00000000, []⟩] ∧
        (s.handlerValid = true → (ready = true ↔ s.deliv.length < t.deliv.length))) ∧
      t.chOut.length ≤ s.chOut.length + 1 ∧
      (s.params.stopRxAfterOverflow = false → t.chIn = [])

/-- R185: an idle TICK, with no inbound bytes, an empty queue and no channel step, answers READY = 0 and changes no state
element. -/
def Obligations.IdleTickChangesNothing : Prop :=
  ∀ (s : State) (c : Transaction) (rest : List Transaction), Inv s → s.phase = .idle → s.initialized = true →
    s.chanQ = [] → s.hostQ = c :: rest → decode c = .ok .tick → s.chIn = [] → s.qent = [] →
    Sys2Proof.core.run 3 s = .next { s with hostQ := rest, responses := s.responses ++ [⟨0x00000000, []⟩] }

/-- R242: no rule depends on an unspecified value: two good states that differ only in stale memory bytes, an
unregistered HANDLER_ID, the configuration before INIT, or the model's own ckResult and freeCount (log entries 2 and 10)
take steps to states that differ only so; their responses, CH_OUT and DELIV stay equal. -/
def Obligations.StaleContentsNeverObserved : Prop :=
  ∀ s t s' : State, Inv s → Inv t → SameLive s t → step s = .next s' → ∃ t', step t = .next t' ∧ SameLive s' t'
end

