-- ==== Sys2Proof/Laws/Memory.lean ====
section
/-! SUPPORT. The laws of the internal memories: read after write, the canonical form, and what the range operations
answer. -/

namespace Sys2Proof.Machine

/-! ## One byte -/

@[simp] theorem Memory.peek_poke_self (m : Memory) (k : Nat) (v : Byte) :
    Memory.peek (Memory.poke m k v) k = some v := by
  induction m with
  | nil => simp [Memory.poke, Memory.peek]
  | cons c m ih =>
    obtain ⟨a, b⟩ := c
    simp only [Memory.poke]
    split_ifs with h1 h2
    · simp [Memory.peek]
    · simp [Memory.peek]
    · have : a ≠ k := fun h => h2 h.symm
      simp [Memory.peek, this, ih]

theorem Memory.peek_poke_other (m : Memory) {k j : Nat} (v : Byte) (h : j ≠ k) :
    Memory.peek (Memory.poke m k v) j = Memory.peek m j := by
  induction m with
  | nil => simp [Memory.poke, Memory.peek, h.symm]
  | cons c m ih =>
    obtain ⟨a, b⟩ := c
    simp only [Memory.poke]
    split_ifs with h1 h2
    · simp [Memory.peek, h.symm]
    · subst h2; simp [Memory.peek, h.symm]
    · simp [Memory.peek, ih]

/-- The cells of a memory after a write are old cells or the cell written. -/
theorem Memory.mem_poke {m : Memory} {k : Nat} {v : Byte} {c : Host.Cell} (h : c ∈ Memory.poke m k v) :
    c ∈ m ∨ c = (k, v) := by
  induction m with
  | nil => simpa [Memory.poke] using h
  | cons d m ih =>
    obtain ⟨a, b⟩ := d
    simp only [Memory.poke] at h
    split_ifs at h with h1 h2
    · rcases List.mem_cons.mp h with h | h
      · exact .inr h
      · exact .inl h
    · rcases List.mem_cons.mp h with h | h
      · exact .inr h
      · exact .inl (List.mem_cons_of_mem _ h)
    · rcases List.mem_cons.mp h with h | h
      · exact .inl (h ▸ List.mem_cons_self)
      · exact (ih h).imp_left (List.mem_cons_of_mem _)

/-- A write keeps the canonical form. -/
theorem Memory.poke_wf {m : Memory} (k : Nat) (v : Byte) (h : Memory.wf m) : Memory.wf (Memory.poke m k v) := by
  induction m with
  | nil => simp [Memory.poke, Memory.wf]
  | cons d m ih =>
    obtain ⟨a, b⟩ := d
    have hm := List.pairwise_cons.mp h
    simp only [Memory.poke]
    split_ifs with h1 h2
    · refine List.pairwise_cons.mpr ⟨fun c hc => ?_, h⟩
      rcases List.mem_cons.mp hc with hc | hc
      · simpa [hc] using h1
      · exact Nat.lt_trans h1 (hm.1 c hc)
    · subst h2; exact List.pairwise_cons.mpr ⟨hm.1, hm.2⟩
    · refine List.pairwise_cons.mpr ⟨fun c hc => ?_, ih hm.2⟩
      rcases Memory.mem_poke hc with hc | hc
      · exact hm.1 c hc
      · simp only [hc]; omega

/-- A canonical memory lists an index at most once: a listed cell is what a read gives. -/
theorem Memory.peek_of_mem {m : Memory} (h : Memory.wf m) {k : Nat} {v : Byte} (hc : (k, v) ∈ m) :
    Memory.peek m k = some v := by
  induction m with
  | nil => simp at hc
  | cons d m ih =>
    obtain ⟨a, b⟩ := d
    have hm := List.pairwise_cons.mp h
    rcases List.mem_cons.mp hc with hc | hc
    · simp_all [Memory.peek]
    · have : a < k := hm.1 _ hc
      simp [Memory.peek, Nat.ne_of_lt this, ih hm.2 hc]

/-- A read that gives a value is a listed cell. -/
theorem Memory.mem_of_peek {m : Memory} {k : Nat} {v : Byte} (h : Memory.peek m k = some v) : (k, v) ∈ m := by
  induction m with
  | nil => simp [Memory.peek] at h
  | cons d m ih =>
    obtain ⟨a, b⟩ := d
    simp only [Memory.peek] at h
    split_ifs at h with ha
    · simp_all
    · exact List.mem_cons_of_mem _ (ih h)

/-- Canonical memories that read alike are equal. -/
theorem Memory.ext_peek {m n : Memory} (hm : Memory.wf m) (hn : Memory.wf n)
    (h : ∀ k, Memory.peek m k = Memory.peek n k) : m = n := by
  have mem : ∀ c, c ∈ m ↔ c ∈ n := fun ⟨k, v⟩ =>
    ⟨fun hc => Memory.mem_of_peek (h k ▸ Memory.peek_of_mem hm hc),
     fun hc => Memory.mem_of_peek ((h k).symm ▸ Memory.peek_of_mem hn hc)⟩
  have nodup : ∀ l : Memory, Memory.wf l → l.Nodup := fun l hl =>
    List.Pairwise.imp (fun {a b} hab (e : a = b) => Nat.lt_irrefl _ (e ▸ hab)) hl
  have perm : m.Perm n := (List.perm_ext_iff_of_nodup (nodup m hm) (nodup n hn)).mpr mem
  exact perm.eq_of_pairwise (fun a b _ _ hab hba => absurd (Nat.lt_trans hab hba) (Nat.lt_irrefl _)) hm hn

/-! ## Loads and stores -/

theorem Memory.load_eq_ok {m : Memory} {base size k : Nat} {b : Byte} :
    Memory.load m base size k = .ok b ↔ k < size ∧ Memory.peek m (base + k) = some b := by
  unfold Memory.load
  split_ifs with h
  · split <;> simp_all
  · simp [h]

theorem Memory.store_eq_ok {m m' : Memory} {base size k : Nat} {b : Byte} :
    Memory.store m base size k b = .ok m' ↔ k < size ∧ m' = Memory.poke m (base + k) b := by
  unfold Memory.store
  split_ifs with h <;> simp [h, eq_comm]

/-- `MemRead` answers l exactly when l lists what the loads give. -/
theorem Memory.loadRange_eq_ok {m : Memory} {base size : Nat} : ∀ {n k : Nat} {l : List Byte},
    Memory.loadRange m base size k n = .ok l ↔
      l.length = n ∧ ∀ j (h : j < l.length), Memory.load m base size (k + j) = .ok l[j] := by
  intro n
  induction n with
  | zero =>
    intro k l
    simp only [Memory.loadRange, Except.ok.injEq]
    exact ⟨fun h => by subst h; simp, fun h => (List.length_eq_zero_iff.mp h.1).symm⟩
  | succ n ih =>
    intro k l
    simp only [Memory.loadRange, bind, Except.bind]
    cases hb : Memory.load m base size k with
    | error f =>
      simp only [reduceCtorEq, false_iff, not_and, not_forall]
      exact fun hl => ⟨0, by omega, by simp [hb]⟩
    | ok b =>
      cases hbs : Memory.loadRange m base size (k + 1) n with
      | error f =>
        simp only [reduceCtorEq, false_iff, not_and]
        intro hl hall
        have := (ih (k := k + 1) (l := l.tail)).mpr ⟨by simp [hl], fun j hj => by
          have hj' : j + 1 < l.length := by simp at hj; omega
          have := hall (j + 1) hj'
          simpa [Nat.add_assoc, Nat.add_comm 1 j] using this⟩
        simp [hbs] at this
      | ok bs =>
        have hih := (ih (k := k + 1) (l := bs)).mp hbs
        simp only [Except.ok.injEq]
        constructor
        · intro h
          subst h
          refine ⟨by simp [hih.1], fun j hj => ?_⟩
          cases j with
          | zero => simpa using hb
          | succ j =>
            have := hih.2 j (by simpa using hj)
            simpa [Nat.add_assoc, Nat.add_comm 1 j] using this
        · rintro ⟨hl, hall⟩
          refine List.ext_getElem (by simp [hl, hih.1]) fun j h1 h2 => ?_
          cases j with
          | zero =>
            have := hall 0 h2
            simp only [Nat.add_zero, hb, Except.ok.injEq] at this
            simpa using this
          | succ j =>
            have h3 := hall (j + 1) h2
            have h4 := hih.2 j (by simpa using h1)
            rw [show k + (j + 1) = k + 1 + j by omega, h4] at h3
            simpa using h3

/-- `MemRead` of bytes that can all be loaded answers. -/
theorem Memory.loadRange_total {m : Memory} {base size : Nat} : ∀ {n k : Nat},
    (∀ j < n, ∃ b, Memory.load m base size (k + j) = .ok b) → ∃ l, Memory.loadRange m base size k n = .ok l := by
  intro n
  induction n with
  | zero => exact fun _ => ⟨[], rfl⟩
  | succ n ih =>
    intro k h
    obtain ⟨b, hb⟩ := h 0 (by omega)
    obtain ⟨bs, hbs⟩ := ih (k := k + 1) fun j hj => by
      have := h (j + 1) (by omega)
      rwa [show k + (j + 1) = k + 1 + j by omega] at this
    exact ⟨b :: bs, by simp only [Nat.add_zero] at hb; simp [Memory.loadRange, bind, Except.bind, hb, hbs]⟩

/-- What a `MemWrite` within bounds does: the bytes are there, every other index is as before, the canonical form and
the index bounds are kept. -/
theorem Memory.storeRange_spec {base size : Nat} : ∀ (bs : List Byte) (m : Memory) (k : Nat), k + bs.length ≤ size →
    ∃ m', Memory.storeRange m base size k bs = .ok m' ∧
      (∀ j (h : j < bs.length), Memory.peek m' (base + (k + j)) = some bs[j]) ∧
      (∀ a, (a < base + k ∨ base + k + bs.length ≤ a) → Memory.peek m' a = Memory.peek m a) ∧
      (Memory.wf m → Memory.wf m') ∧
      (∀ c ∈ m', c ∈ m ∨ (base + k ≤ c.1 ∧ c.1 < base + k + bs.length)) := by
  intro bs
  induction bs with
  | nil => exact fun m k _ => ⟨m, rfl, by simp, by simp, id, fun c hc => .inl hc⟩
  | cons b bs ih =>
    intro m k hk
    simp only [List.length_cons] at hk
    obtain ⟨m', h1, h2, h3, h4, h5⟩ := ih (Memory.poke m (base + k) b) (k + 1) (by omega)
    have hst : Memory.store m base size k b = .ok (Memory.poke m (base + k) b) :=
      Memory.store_eq_ok.mpr ⟨by omega, rfl⟩
    refine ⟨m', by simp [Memory.storeRange, bind, Except.bind, hst, h1], fun j hj => ?_, fun a ha => ?_,
      fun hw => h4 (Memory.poke_wf _ _ hw), fun c hc => ?_⟩
    · cases j with
      | zero =>
        rw [h3 _ (by omega)]
        simp
      | succ j =>
        have := h2 j (by simpa using hj)
        rw [show base + (k + (j + 1)) = base + (k + 1 + j) by omega]
        simpa using this
    · simp only [List.length_cons] at ha
      rw [h3 a (by omega), Memory.peek_poke_other _ _ (by omega)]
    · rcases h5 c hc with h | h
      · rcases Memory.mem_poke h with h | h
        · exact .inl h
        · subst h; simp
      · simp only [List.length_cons]; omega

/-- A `MemWrite` that answers stayed within bounds. -/
theorem Memory.storeRange_bound {base size : Nat} : ∀ {bs : List Byte} {m m' : Memory} {k : Nat},
    Memory.storeRange m base size k bs = .ok m' → bs ≠ [] → k + bs.length ≤ size := by
  intro bs
  induction bs with
  | nil => exact fun _ h => absurd rfl h
  | cons b bs ih =>
    intro m m' k h _
    simp only [Memory.storeRange, bind, Except.bind] at h
    cases hs : Memory.store m base size k b with
    | error f => simp [hs] at h
    | ok m1 =>
      simp only [hs] at h
      have hk := (Memory.store_eq_ok.mp hs).1
      cases bs with
      | nil => simp; omega
      | cons c cs =>
        have := ih h (by simp)
        simp only [List.length_cons] at this ⊢
        omega

end Sys2Proof.Machine
end

