-- ==== Sys2Proof/Laws/State.lean ====
section
/-! SUPPORT. What each named update of the state leaves in each field, so that no later proof unfolds one. -/

namespace Sys2Proof.Machine

/-! ## respond -/

@[simp] theorem State.respond_params (s : State) (st : Status) (r : Bool) (n : Nat) (d : List Byte) : (s.respond st r n d).params = s.params := rfl
@[simp] theorem State.respond_cfgCk (s : State) (st : Status) (r : Bool) (n : Nat) (d : List Byte) : (s.respond st r n d).cfgCk = s.cfgCk := rfl
@[simp] theorem State.respond_cfgBitrate (s : State) (st : Status) (r : Bool) (n : Nat) (d : List Byte) : (s.respond st r n d).cfgBitrate = s.cfgBitrate := rfl
@[simp] theorem State.respond_initialized (s : State) (st : Status) (r : Bool) (n : Nat) (d : List Byte) : (s.respond st r n d).initialized = s.initialized := rfl
@[simp] theorem State.respond_handlerValid (s : State) (st : Status) (r : Bool) (n : Nat) (d : List Byte) : (s.respond st r n d).handlerValid = s.handlerValid := rfl
@[simp] theorem State.respond_handlerId (s : State) (st : Status) (r : Bool) (n : Nat) (d : List Byte) : (s.respond st r n d).handlerId = s.handlerId := rfl
@[simp] theorem State.respond_rxBuf (s : State) (st : Status) (r : Bool) (n : Nat) (d : List Byte) : (s.respond st r n d).rxBuf = s.rxBuf := rfl
@[simp] theorem State.respond_rxI (s : State) (st : Status) (r : Bool) (n : Nat) (d : List Byte) : (s.respond st r n d).rxI = s.rxI := rfl
@[simp] theorem State.respond_msgLen (s : State) (st : Status) (r : Bool) (n : Nat) (d : List Byte) : (s.respond st r n d).msgLen = s.msgLen := rfl
@[simp] theorem State.respond_msgBuf (s : State) (st : Status) (r : Bool) (n : Nat) (d : List Byte) : (s.respond st r n d).msgBuf = s.msgBuf := rfl
@[simp] theorem State.respond_ready (s : State) (st : Status) (r : Bool) (n : Nat) (d : List Byte) : (s.respond st r n d).ready = s.ready := rfl
@[simp] theorem State.respond_slots (s : State) (st : Status) (r : Bool) (n : Nat) (d : List Byte) : (s.respond st r n d).slots = s.slots := rfl
@[simp] theorem State.respond_slotNext (s : State) (st : Status) (r : Bool) (n : Nat) (d : List Byte) : (s.respond st r n d).slotNext = s.slotNext := rfl
@[simp] theorem State.respond_qent (s : State) (st : Status) (r : Bool) (n : Nat) (d : List Byte) : (s.respond st r n d).qent = s.qent := rfl
@[simp] theorem State.respond_txOff (s : State) (st : Status) (r : Bool) (n : Nat) (d : List Byte) : (s.respond st r n d).txOff = s.txOff := rfl
@[simp] theorem State.respond_txTot (s : State) (st : Status) (r : Bool) (n : Nat) (d : List Byte) : (s.respond st r n d).txTot = s.txTot := rfl
@[simp] theorem State.respond_phase (s : State) (st : Status) (r : Bool) (n : Nat) (d : List Byte) : (s.respond st r n d).phase = s.phase := rfl
@[simp] theorem State.respond_ovfTick (s : State) (st : Status) (r : Bool) (n : Nat) (d : List Byte) : (s.respond st r n d).ovfTick = s.ovfTick := rfl
@[simp] theorem State.respond_chIn (s : State) (st : Status) (r : Bool) (n : Nat) (d : List Byte) : (s.respond st r n d).chIn = s.chIn := rfl
@[simp] theorem State.respond_chCap (s : State) (st : Status) (r : Bool) (n : Nat) (d : List Byte) : (s.respond st r n d).chCap = s.chCap := rfl
@[simp] theorem State.respond_chOut (s : State) (st : Status) (r : Bool) (n : Nat) (d : List Byte) : (s.respond st r n d).chOut = s.chOut := rfl
@[simp] theorem State.respond_deliv (s : State) (st : Status) (r : Bool) (n : Nat) (d : List Byte) : (s.respond st r n d).deliv = s.deliv := rfl
@[simp] theorem State.respond_responses (s : State) (st : Status) (r : Bool) (n : Nat) (d : List Byte) : (s.respond st r n d).responses = s.responses ++ [⟨responseWord st r n, d⟩] := rfl
@[simp] theorem State.respond_hostQ (s : State) (st : Status) (r : Bool) (n : Nat) (d : List Byte) : (s.respond st r n d).hostQ = s.hostQ := rfl
@[simp] theorem State.respond_chanQ (s : State) (st : Status) (r : Bool) (n : Nat) (d : List Byte) : (s.respond st r n d).chanQ = s.chanQ := rfl
@[simp] theorem State.respond_ckResult (s : State) (st : Status) (r : Bool) (n : Nat) (d : List Byte) : (s.respond st r n d).ckResult = s.ckResult := rfl
@[simp] theorem State.respond_freeCount (s : State) (st : Status) (r : Bool) (n : Nat) (d : List Byte) : (s.respond st r n d).freeCount = s.freeCount := rfl

/-! ## answer -/

@[simp] theorem State.answer_params (s : State) (st : Status) : (s.answer st).params = s.params := rfl
@[simp] theorem State.answer_cfgCk (s : State) (st : Status) : (s.answer st).cfgCk = s.cfgCk := rfl
@[simp] theorem State.answer_cfgBitrate (s : State) (st : Status) : (s.answer st).cfgBitrate = s.cfgBitrate := rfl
@[simp] theorem State.answer_initialized (s : State) (st : Status) : (s.answer st).initialized = s.initialized := rfl
@[simp] theorem State.answer_handlerValid (s : State) (st : Status) : (s.answer st).handlerValid = s.handlerValid := rfl
@[simp] theorem State.answer_handlerId (s : State) (st : Status) : (s.answer st).handlerId = s.handlerId := rfl
@[simp] theorem State.answer_rxBuf (s : State) (st : Status) : (s.answer st).rxBuf = s.rxBuf := rfl
@[simp] theorem State.answer_rxI (s : State) (st : Status) : (s.answer st).rxI = s.rxI := rfl
@[simp] theorem State.answer_msgLen (s : State) (st : Status) : (s.answer st).msgLen = s.msgLen := rfl
@[simp] theorem State.answer_msgBuf (s : State) (st : Status) : (s.answer st).msgBuf = s.msgBuf := rfl
@[simp] theorem State.answer_ready (s : State) (st : Status) : (s.answer st).ready = s.ready := rfl
@[simp] theorem State.answer_slots (s : State) (st : Status) : (s.answer st).slots = s.slots := rfl
@[simp] theorem State.answer_slotNext (s : State) (st : Status) : (s.answer st).slotNext = s.slotNext := rfl
@[simp] theorem State.answer_qent (s : State) (st : Status) : (s.answer st).qent = s.qent := rfl
@[simp] theorem State.answer_txOff (s : State) (st : Status) : (s.answer st).txOff = s.txOff := rfl
@[simp] theorem State.answer_txTot (s : State) (st : Status) : (s.answer st).txTot = s.txTot := rfl
@[simp] theorem State.answer_phase (s : State) (st : Status) : (s.answer st).phase = s.phase := rfl
@[simp] theorem State.answer_ovfTick (s : State) (st : Status) : (s.answer st).ovfTick = s.ovfTick := rfl
@[simp] theorem State.answer_chIn (s : State) (st : Status) : (s.answer st).chIn = s.chIn := rfl
@[simp] theorem State.answer_chCap (s : State) (st : Status) : (s.answer st).chCap = s.chCap := rfl
@[simp] theorem State.answer_chOut (s : State) (st : Status) : (s.answer st).chOut = s.chOut := rfl
@[simp] theorem State.answer_deliv (s : State) (st : Status) : (s.answer st).deliv = s.deliv := rfl
@[simp] theorem State.answer_responses (s : State) (st : Status) : (s.answer st).responses = s.responses ++ [⟨responseWord st false 0, []⟩] := rfl
@[simp] theorem State.answer_hostQ (s : State) (st : Status) : (s.answer st).hostQ = s.hostQ := rfl
@[simp] theorem State.answer_chanQ (s : State) (st : Status) : (s.answer st).chanQ = s.chanQ := rfl
@[simp] theorem State.answer_ckResult (s : State) (st : Status) : (s.answer st).ckResult = s.ckResult := rfl
@[simp] theorem State.answer_freeCount (s : State) (st : Status) : (s.answer st).freeCount = s.freeCount := rfl

/-! ## enterTick -/

@[simp] theorem State.enterTick_params (s : State) : (s.enterTick).params = s.params := rfl
@[simp] theorem State.enterTick_cfgCk (s : State) : (s.enterTick).cfgCk = s.cfgCk := rfl
@[simp] theorem State.enterTick_cfgBitrate (s : State) : (s.enterTick).cfgBitrate = s.cfgBitrate := rfl
@[simp] theorem State.enterTick_initialized (s : State) : (s.enterTick).initialized = s.initialized := rfl
@[simp] theorem State.enterTick_handlerValid (s : State) : (s.enterTick).handlerValid = s.handlerValid := rfl
@[simp] theorem State.enterTick_handlerId (s : State) : (s.enterTick).handlerId = s.handlerId := rfl
@[simp] theorem State.enterTick_rxBuf (s : State) : (s.enterTick).rxBuf = s.rxBuf := rfl
@[simp] theorem State.enterTick_rxI (s : State) : (s.enterTick).rxI = s.rxI := rfl
@[simp] theorem State.enterTick_msgLen (s : State) : (s.enterTick).msgLen = s.msgLen := rfl
@[simp] theorem State.enterTick_msgBuf (s : State) : (s.enterTick).msgBuf = s.msgBuf := rfl
@[simp] theorem State.enterTick_ready (s : State) : (s.enterTick).ready = s.ready := rfl
@[simp] theorem State.enterTick_slots (s : State) : (s.enterTick).slots = s.slots := rfl
@[simp] theorem State.enterTick_slotNext (s : State) : (s.enterTick).slotNext = s.slotNext := rfl
@[simp] theorem State.enterTick_qent (s : State) : (s.enterTick).qent = s.qent := rfl
@[simp] theorem State.enterTick_txOff (s : State) : (s.enterTick).txOff = s.txOff := rfl
@[simp] theorem State.enterTick_txTot (s : State) : (s.enterTick).txTot = s.txTot := rfl
@[simp] theorem State.enterTick_phase (s : State) : (s.enterTick).phase = .rx := rfl
@[simp] theorem State.enterTick_ovfTick (s : State) : (s.enterTick).ovfTick = false := rfl
@[simp] theorem State.enterTick_chIn (s : State) : (s.enterTick).chIn = s.chIn := rfl
@[simp] theorem State.enterTick_chCap (s : State) : (s.enterTick).chCap = s.chCap := rfl
@[simp] theorem State.enterTick_chOut (s : State) : (s.enterTick).chOut = s.chOut := rfl
@[simp] theorem State.enterTick_deliv (s : State) : (s.enterTick).deliv = s.deliv := rfl
@[simp] theorem State.enterTick_responses (s : State) : (s.enterTick).responses = s.responses := rfl
@[simp] theorem State.enterTick_hostQ (s : State) : (s.enterTick).hostQ = s.hostQ := rfl
@[simp] theorem State.enterTick_chanQ (s : State) : (s.enterTick).chanQ = s.chanQ := rfl
@[simp] theorem State.enterTick_ckResult (s : State) : (s.enterTick).ckResult = s.ckResult := rfl
@[simp] theorem State.enterTick_freeCount (s : State) : (s.enterTick).freeCount = s.freeCount := rfl

/-! ## endRx -/

@[simp] theorem State.endRx_params (s : State) : (s.endRx).params = s.params := rfl
@[simp] theorem State.endRx_cfgCk (s : State) : (s.endRx).cfgCk = s.cfgCk := rfl
@[simp] theorem State.endRx_cfgBitrate (s : State) : (s.endRx).cfgBitrate = s.cfgBitrate := rfl
@[simp] theorem State.endRx_initialized (s : State) : (s.endRx).initialized = s.initialized := rfl
@[simp] theorem State.endRx_handlerValid (s : State) : (s.endRx).handlerValid = s.handlerValid := rfl
@[simp] theorem State.endRx_handlerId (s : State) : (s.endRx).handlerId = s.handlerId := rfl
@[simp] theorem State.endRx_rxBuf (s : State) : (s.endRx).rxBuf = s.rxBuf := rfl
@[simp] theorem State.endRx_rxI (s : State) : (s.endRx).rxI = s.rxI := rfl
@[simp] theorem State.endRx_msgLen (s : State) : (s.endRx).msgLen = s.msgLen := rfl
@[simp] theorem State.endRx_msgBuf (s : State) : (s.endRx).msgBuf = s.msgBuf := rfl
@[simp] theorem State.endRx_ready (s : State) : (s.endRx).ready = s.ready := rfl
@[simp] theorem State.endRx_slots (s : State) : (s.endRx).slots = s.slots := rfl
@[simp] theorem State.endRx_slotNext (s : State) : (s.endRx).slotNext = s.slotNext := rfl
@[simp] theorem State.endRx_qent (s : State) : (s.endRx).qent = s.qent := rfl
@[simp] theorem State.endRx_txOff (s : State) : (s.endRx).txOff = s.txOff := rfl
@[simp] theorem State.endRx_txTot (s : State) : (s.endRx).txTot = s.txTot := rfl
@[simp] theorem State.endRx_phase (s : State) : (s.endRx).phase = .pump := rfl
@[simp] theorem State.endRx_ovfTick (s : State) : (s.endRx).ovfTick = s.ovfTick := rfl
@[simp] theorem State.endRx_chIn (s : State) : (s.endRx).chIn = s.chIn := rfl
@[simp] theorem State.endRx_chCap (s : State) : (s.endRx).chCap = s.chCap := rfl
@[simp] theorem State.endRx_chOut (s : State) : (s.endRx).chOut = s.chOut := rfl
@[simp] theorem State.endRx_deliv (s : State) : (s.endRx).deliv = s.deliv := rfl
@[simp] theorem State.endRx_responses (s : State) : (s.endRx).responses = s.responses := rfl
@[simp] theorem State.endRx_hostQ (s : State) : (s.endRx).hostQ = s.hostQ := rfl
@[simp] theorem State.endRx_chanQ (s : State) : (s.endRx).chanQ = s.chanQ := rfl
@[simp] theorem State.endRx_ckResult (s : State) : (s.endRx).ckResult = s.ckResult := rfl
@[simp] theorem State.endRx_freeCount (s : State) : (s.endRx).freeCount = s.freeCount := rfl

/-! ## leaveTick -/

@[simp] theorem State.leaveTick_params (s : State) : (s.leaveTick).params = s.params := rfl
@[simp] theorem State.leaveTick_cfgCk (s : State) : (s.leaveTick).cfgCk = s.cfgCk := rfl
@[simp] theorem State.leaveTick_cfgBitrate (s : State) : (s.leaveTick).cfgBitrate = s.cfgBitrate := rfl
@[simp] theorem State.leaveTick_initialized (s : State) : (s.leaveTick).initialized = s.initialized := rfl
@[simp] theorem State.leaveTick_handlerValid (s : State) : (s.leaveTick).handlerValid = s.handlerValid := rfl
@[simp] theorem State.leaveTick_handlerId (s : State) : (s.leaveTick).handlerId = s.handlerId := rfl
@[simp] theorem State.leaveTick_rxBuf (s : State) : (s.leaveTick).rxBuf = s.rxBuf := rfl
@[simp] theorem State.leaveTick_rxI (s : State) : (s.leaveTick).rxI = s.rxI := rfl
@[simp] theorem State.leaveTick_msgLen (s : State) : (s.leaveTick).msgLen = s.msgLen := rfl
@[simp] theorem State.leaveTick_msgBuf (s : State) : (s.leaveTick).msgBuf = s.msgBuf := rfl
@[simp] theorem State.leaveTick_ready (s : State) : (s.leaveTick).ready = false := rfl
@[simp] theorem State.leaveTick_slots (s : State) : (s.leaveTick).slots = s.slots := rfl
@[simp] theorem State.leaveTick_slotNext (s : State) : (s.leaveTick).slotNext = s.slotNext := rfl
@[simp] theorem State.leaveTick_qent (s : State) : (s.leaveTick).qent = s.qent := rfl
@[simp] theorem State.leaveTick_txOff (s : State) : (s.leaveTick).txOff = s.txOff := rfl
@[simp] theorem State.leaveTick_txTot (s : State) : (s.leaveTick).txTot = s.txTot := rfl
@[simp] theorem State.leaveTick_phase (s : State) : (s.leaveTick).phase = .idle := rfl
@[simp] theorem State.leaveTick_ovfTick (s : State) : (s.leaveTick).ovfTick = false := rfl
@[simp] theorem State.leaveTick_chIn (s : State) : (s.leaveTick).chIn = s.chIn := rfl
@[simp] theorem State.leaveTick_chCap (s : State) : (s.leaveTick).chCap = s.chCap := rfl
@[simp] theorem State.leaveTick_chOut (s : State) : (s.leaveTick).chOut = s.chOut := rfl
@[simp] theorem State.leaveTick_deliv (s : State) : (s.leaveTick).deliv = s.deliv := rfl
@[simp] theorem State.leaveTick_responses (s : State) : (s.leaveTick).responses = s.responses := rfl
@[simp] theorem State.leaveTick_hostQ (s : State) : (s.leaveTick).hostQ = s.hostQ := rfl
@[simp] theorem State.leaveTick_chanQ (s : State) : (s.leaveTick).chanQ = s.chanQ := rfl
@[simp] theorem State.leaveTick_ckResult (s : State) : (s.leaveTick).ckResult = s.ckResult := rfl
@[simp] theorem State.leaveTick_freeCount (s : State) : (s.leaveTick).freeCount = s.freeCount := rfl

/-! ## initialise -/

@[simp] theorem State.initialise_params (s : State) (ck : Bool) (br : Word) : (s.initialise ck br).params = s.params := rfl
@[simp] theorem State.initialise_cfgCk (s : State) (ck : Bool) (br : Word) : (s.initialise ck br).cfgCk = ck := rfl
@[simp] theorem State.initialise_cfgBitrate (s : State) (ck : Bool) (br : Word) : (s.initialise ck br).cfgBitrate = br := rfl
@[simp] theorem State.initialise_initialized (s : State) (ck : Bool) (br : Word) : (s.initialise ck br).initialized = true := rfl
@[simp] theorem State.initialise_handlerValid (s : State) (ck : Bool) (br : Word) : (s.initialise ck br).handlerValid = false := rfl
@[simp] theorem State.initialise_handlerId (s : State) (ck : Bool) (br : Word) : (s.initialise ck br).handlerId = Config.freeHandlerId s.freeCount := rfl
@[simp] theorem State.initialise_rxBuf (s : State) (ck : Bool) (br : Word) : (s.initialise ck br).rxBuf = s.rxBuf := rfl
@[simp] theorem State.initialise_rxI (s : State) (ck : Bool) (br : Word) : (s.initialise ck br).rxI = 0 := rfl
@[simp] theorem State.initialise_msgLen (s : State) (ck : Bool) (br : Word) : (s.initialise ck br).msgLen = 0 := rfl
@[simp] theorem State.initialise_msgBuf (s : State) (ck : Bool) (br : Word) : (s.initialise ck br).msgBuf = s.msgBuf := rfl
@[simp] theorem State.initialise_ready (s : State) (ck : Bool) (br : Word) : (s.initialise ck br).ready = false := rfl
@[simp] theorem State.initialise_slots (s : State) (ck : Bool) (br : Word) : (s.initialise ck br).slots = s.slots := rfl
@[simp] theorem State.initialise_slotNext (s : State) (ck : Bool) (br : Word) : (s.initialise ck br).slotNext = 0 := rfl
@[simp] theorem State.initialise_qent (s : State) (ck : Bool) (br : Word) : (s.initialise ck br).qent = [] := rfl
@[simp] theorem State.initialise_txOff (s : State) (ck : Bool) (br : Word) : (s.initialise ck br).txOff = 0 := rfl
@[simp] theorem State.initialise_txTot (s : State) (ck : Bool) (br : Word) : (s.initialise ck br).txTot = 0 := rfl
@[simp] theorem State.initialise_phase (s : State) (ck : Bool) (br : Word) : (s.initialise ck br).phase = s.phase := rfl
@[simp] theorem State.initialise_ovfTick (s : State) (ck : Bool) (br : Word) : (s.initialise ck br).ovfTick = false := rfl
@[simp] theorem State.initialise_chIn (s : State) (ck : Bool) (br : Word) : (s.initialise ck br).chIn = s.chIn := rfl
@[simp] theorem State.initialise_chCap (s : State) (ck : Bool) (br : Word) : (s.initialise ck br).chCap = s.chCap := rfl
@[simp] theorem State.initialise_chOut (s : State) (ck : Bool) (br : Word) : (s.initialise ck br).chOut = s.chOut := rfl
@[simp] theorem State.initialise_deliv (s : State) (ck : Bool) (br : Word) : (s.initialise ck br).deliv = s.deliv := rfl
@[simp] theorem State.initialise_responses (s : State) (ck : Bool) (br : Word) : (s.initialise ck br).responses = s.responses := rfl
@[simp] theorem State.initialise_hostQ (s : State) (ck : Bool) (br : Word) : (s.initialise ck br).hostQ = s.hostQ := rfl
@[simp] theorem State.initialise_chanQ (s : State) (ck : Bool) (br : Word) : (s.initialise ck br).chanQ = s.chanQ := rfl
@[simp] theorem State.initialise_ckResult (s : State) (ck : Bool) (br : Word) : (s.initialise ck br).ckResult = s.ckResult := rfl
@[simp] theorem State.initialise_freeCount (s : State) (ck : Bool) (br : Word) : (s.initialise ck br).freeCount = s.freeCount + 1 := rfl

/-! ## Derived views -/

@[simp] theorem State.respond_qsize (s : State) (st : Status) (r : Bool) (n : Nat) (d : List Byte) :
    (s.respond st r n d).qsize = s.qsize := rfl
@[simp] theorem State.answer_qsize (s : State) (st : Status) : (s.answer st).qsize = s.qsize := rfl
@[simp] theorem State.initialise_qsize (s : State) (ck : Bool) (br : Word) : (s.initialise ck br).qsize = 0 := rfl
@[simp] theorem State.respond_ckBit (s : State) (st : Status) (r : Bool) (n : Nat) (d : List Byte) :
    (s.respond st r n d).ckBit = s.ckBit := rfl

end Sys2Proof.Machine
end

