-- ==== Sys2Proof/Laws/Ops.lean ====
section
/-! SUPPORT. One lemma for each shared operation that says everything it can do. -/

namespace Sys2Proof.Machine

/-! ## Outcomes -/

@[simp] theorem outcome_ok (s : State) : outcome (.ok s) = .next s := rfl
@[simp] theorem outcome_error (f : Fault) : outcome (.error f) = .fault f := rfl

theorem outcome_eq_next {r : Except Fault State} {t : State} : outcome r = .next t ↔ r = .ok t := by
  cases r <;> simp [outcome]

/-- An operation never refuses. -/
theorem outcome_ne_refused (r : Except Fault State) (x : Refusal) : outcome r ≠ .refused x := by
  cases r <;> simp [outcome]

/-- Everything a host command can do: it is refused during another command, answered NOT_INITIALIZED, or runs. -/
theorem hostCommand_eq_next {needs : Bool} {s t : State} {body : State → Except Fault State} :
    hostCommand needs s body = .next t ↔
      s.phase = .idle ∧
        ((needs = true ∧ s.initialized = false ∧ t = s.answer .notInitialized) ∨
          ((needs = true → s.initialized = true) ∧ body s = .ok t)) := by
  unfold hostCommand
  by_cases hp : s.phase = .idle
  · cases needs <;> cases hi : s.initialized <;> simp [hp, outcome_eq_next, eq_comm (b := t)]
  · simp [hp]

/-- A host command of an idle, initialised block runs. -/
theorem hostCommand_runs {needs : Bool} {s : State} (body : State → Except Fault State) (hp : s.phase = .idle)
    (hi : needs = true → s.initialized = true) : hostCommand needs s body = outcome (body s) := by
  unfold hostCommand
  cases needs <;> simp_all

/-! ## Responses as bytes -/

@[simp] theorem Response.toBytes_length (r : Response) : r.toBytes.length = 4 + r.data.length := by
  simp only [Response.toBytes, wordBytes, List.length_append, List.length_cons, List.length_nil]

/-- A response's bytes come after those of the responses before it. -/
@[simp] theorem State.respond_responseBytes (s : State) (st : Status) (r : Bool) (n : Nat) (d : List Byte) :
    (s.respond st r n d).responseBytes = s.responseBytes ++ (wordBytes (responseWord st r n) ++ d) := by
  simp [State.responseBytes, State.respond, Response.toBytes]

/-! ## Stores into the memories -/

theorem slotBase_eq_ok {p : Params} {q n : Nat} : slotBase p q = .ok n ↔ q < p.Q ∧ n = q * p.C := by
  unfold slotBase; split_ifs with h <;> simp [h, eq_comm]

theorem rxStore_eq_ok {s t : State} {k : Nat} {b : Byte} :
    s.rxStore k b = .ok t ↔ k < s.params.C ∧ t = { s with rxBuf := Memory.poke s.rxBuf k b } := by
  unfold State.rxStore Memory.store
  by_cases h : k < s.params.C <;> simp [h, bind, Except.bind, eq_comm]

theorem slotLoad_eq_ok {s : State} {q k : Nat} {b : Byte} :
    s.slotLoad q k = .ok b ↔
      q < s.params.Q ∧ k < s.params.C ∧ Memory.peek s.slots (q * s.params.C + k) = some b := by
  unfold State.slotLoad slotBase
  by_cases h : q < s.params.Q <;> simp [h, bind, Except.bind, Memory.load_eq_ok]

theorem slotRead_eq_ok {s : State} {q n : Nat} {l : List Byte} (hq : q < s.params.Q) :
    s.slotRead q n = .ok l ↔ l.length = n ∧ ∀ j (h : j < l.length), s.slotLoad q j = .ok l[j] := by
  unfold State.slotRead State.slotLoad slotBase
  simp [hq, bind, Except.bind, Memory.loadRange_eq_ok]

theorem rxLoad_eq_ok {s : State} {k : Nat} {b : Byte} :
    s.rxLoad k = .ok b ↔ k < s.params.C ∧ Memory.peek s.rxBuf k = some b := by
  simp [State.rxLoad, Memory.load_eq_ok]

theorem rxSlice_eq_ok {s : State} {n : Nat} {l : List Byte} :
    s.rxSlice n = .ok l ↔ l.length = n ∧ ∀ j (h : j < l.length), s.rxLoad j = .ok l[j] := by
  simp [State.rxSlice, State.rxLoad, Memory.loadRange_eq_ok]

theorem msgLoad_eq_ok {s : State} {k : Nat} {b : Byte} :
    s.msgLoad k = .ok b ↔ k < s.params.C - 2 ∧ Memory.peek s.msgBuf k = some b := by
  simp [State.msgLoad, Memory.load_eq_ok]

theorem msgRead_eq_ok {s : State} {n : Nat} {l : List Byte} :
    s.msgRead n = .ok l ↔ l.length = n ∧ ∀ j (h : j < l.length), s.msgLoad j = .ok l[j] := by
  simp [State.msgRead, State.msgLoad, Memory.loadRange_eq_ok]

/-! ## DELIVER -/

/-- DELIVER(p) is the write of p into MSG_BUF, with MSG_LEN, the delivery event and READY (R132). -/
theorem deliver_eq (p : List Byte) (s : State) :
    deliver p s = (Memory.storeRange s.msgBuf 0 (s.params.C - 2) 0 p).map fun m =>
      { s with msgLen := p.length, msgBuf := m, deliv := s.deliv ++ deliveryEvents s p, ready := true } := by
  unfold deliver State.msgWrite deliveryEvents
  cases Memory.storeRange s.msgBuf 0 (s.params.C - 2) 0 p with
  | error f => rfl
  | ok m =>
    cases hv : s.handlerValid <;> simp [bind, Except.bind, Except.map]

/-- What a DELIVER of a payload that fits MSG_BUF does. -/
theorem deliver_spec (p : List Byte) (s : State) (h : p.length ≤ s.params.C - 2) :
    ∃ m, deliver p s = .ok { s with msgLen := p.length, msgBuf := m, deliv := s.deliv ++ deliveryEvents s p, ready := true } ∧
      (∀ j (hj : j < p.length), Memory.peek m j = some p[j]) ∧
      (∀ a, p.length ≤ a → Memory.peek m a = Memory.peek s.msgBuf a) ∧
      (Memory.wf s.msgBuf → Memory.wf m) ∧
      (∀ c ∈ m, c ∈ s.msgBuf ∨ c.1 < p.length) := by
  obtain ⟨m, h1, h2, h3, h4, h5⟩ :=
    Memory.storeRange_spec (base := 0) (size := s.params.C - 2) p s.msgBuf 0 (by omega)
  refine ⟨m, by rw [deliver_eq, h1]; rfl, fun j hj => by simpa using h2 j hj, fun a ha => h3 a (.inr (by omega)), h4,
    fun c hc => (h5 c hc).imp_right fun h => by omega⟩

/-! ## enqueue -/

theorem enqueueStatus_eq_ok {s : State} {m : List Byte} :
    enqueueStatus s m = .ok ↔ s.qsize ≠ s.params.Q ∧ m.length < s.params.C := by
  unfold enqueueStatus
  split_ifs with h1 h2
  · simp [h1]
  · simp; omega
  · simp [h1]; omega

/-- A refused enqueue answers its status and changes nothing (R151). -/
theorem enqueue_refused {s : State} {m : List Byte} (h : enqueueStatus s m ≠ .ok) :
    enqueue m s = .ok (enqueueStatus s m, s) := by
  unfold enqueue
  split
  · contradiction
  · rfl

/-- An accepted enqueue is the copy into SLOT[SLOT_NEXT], the new entry and the new SLOT_NEXT (R151, R153). -/
theorem enqueue_accepted {s : State} {m : List Byte} (h : enqueueStatus s m = .ok) :
    enqueue m s =
      if s.slotNext < s.params.Q then
        (Memory.storeRange s.slots (s.slotNext * s.params.C) s.params.C 0 m).map fun mem =>
          (.ok, { s with
            slots := mem
            qent := s.qent ++ [⟨s.slotNext, m.length⟩]
            slotNext := (s.slotNext + 1) % s.params.Q })
      else .error .outOfBounds := by
  unfold enqueue
  simp only [h, State.slotWrite, slotBase]
  split_ifs
  · cases hm : Memory.storeRange s.slots (s.slotNext * s.params.C) s.params.C 0 m <;>
      simp [bind, Except.bind, Except.map, hm]
  · rfl

/-- What an enqueue that answers did: nothing, or the accepted enqueue. -/
theorem enqueue_cases {s t : State} {m : List Byte} {st : Status} (h : enqueue m s = .ok (st, t)) :
    st = enqueueStatus s m ∧
      ((st ≠ .ok ∧ t = s) ∨
        (st = .ok ∧ s.slotNext < s.params.Q ∧ ∃ mem,
          Memory.storeRange s.slots (s.slotNext * s.params.C) s.params.C 0 m = .ok mem ∧
          t = { s with
            slots := mem
            qent := s.qent ++ [⟨s.slotNext, m.length⟩]
            slotNext := (s.slotNext + 1) % s.params.Q })) := by
  by_cases hs : enqueueStatus s m = .ok
  · rw [enqueue_accepted hs] at h
    split_ifs at h with hq
    cases hm : Memory.storeRange s.slots (s.slotNext * s.params.C) s.params.C 0 m with
    | error f => simp [hm, Except.map] at h
    | ok mem =>
      simp only [hm, Except.map, Except.ok.injEq, Prod.mk.injEq] at h
      exact ⟨h.1 ▸ hs.symm, .inr ⟨h.1.symm, hq, mem, rfl, h.2.symm⟩⟩
  · rw [enqueue_refused hs] at h
    simp only [Except.ok.injEq, Prod.mk.injEq] at h
    exact ⟨h.1.symm, .inl ⟨h.1 ▸ hs, h.2.symm⟩⟩

/-- ENQUEUE_DIAG is enqueue without its outcome (R133). -/
theorem enqueueDiag_eq (m : List Byte) (s : State) : enqueueDiag m s = (enqueue m s).map Prod.snd := by
  unfold enqueueDiag
  cases enqueue m s <;> rfl

theorem enqueueDiag_eq_ok {m : List Byte} {s t : State} :
    enqueueDiag m s = .ok t ↔ ∃ st, enqueue m s = .ok (st, t) := by
  rw [enqueueDiag_eq]
  cases h : enqueue m s with
  | error f => simp [Except.map]
  | ok r => obtain ⟨st, t'⟩ := r; simp [Except.map]

/-! ## The channel -/

theorem chRead_eq_ok {s t : State} {b : Byte} :
    chRead s = .ok (b, t) ↔ ∃ rest, s.chIn = b :: rest ∧ t = { s with chIn := rest } := by
  unfold chRead
  cases s.chIn with
  | nil => simp
  | cons c cs =>
    simp only [Except.ok.injEq, Prod.mk.injEq, List.cons.injEq]
    constructor
    · rintro ⟨rfl, rfl⟩; exact ⟨cs, ⟨rfl, rfl⟩, rfl⟩
    · rintro ⟨rest, ⟨rfl, rfl⟩, rfl⟩; exact ⟨rfl, rfl⟩

theorem chWrite_eq_ok {s t : State} {b : Byte} :
    chWrite s b = .ok t ↔ s.chCap ≠ 0 ∧ t = { s with chOut := s.chOut ++ [b] } := by
  unfold chWrite chWriteCap
  split_ifs with h <;> simp [h, eq_comm]

end Sys2Proof.Machine
end

