-- ==== Sys2Proof/Laws/Check.lean ====
section
/-! SUPPORT. The invariant of a concrete state as a Bool that evaluates, and what its answer means. -/

namespace Sys2Proof.Machine

/-- The first n bytes from index `base` on have been written. -/
def writtenFrom (m : Memory) (base n : Nat) : Bool :=
  (List.range n).all fun k => (Memory.peek m (base + k)).isSome

/-- The cursor's part of the check (R33). -/
def checkCursor (s : State) : Bool :=
  (decide (s.txOff = 0) && decide (s.txTot = 0)) ||
    match s.qent.head? with
    | none => false
    | some e => decide (s.txTot = e.len + s.ckBit + 2) && decide (1 ≤ s.txOff) && decide (s.txOff < s.txTot)

/-- The entries' part of the check (R29, R34, R151). -/
def checkEntries (s : State) : Bool :=
  (List.range s.qsize).all fun k =>
    match s.qent[k]? with
    | none => true
    | some e =>
      decide (e.slot = (s.slotNext + s.params.Q - s.qsize + k) % s.params.Q) && decide (e.len + 1 ≤ s.params.C) &&
        writtenFrom s.slots (e.slot * s.params.C) e.len

/-- `Inv`, evaluated. -/
def checkInv (s : State) : Bool :=
  decide s.params.Legal &&
  (decide (Memory.wf s.rxBuf) && decide (Memory.wf s.msgBuf) && decide (Memory.wf s.slots)) &&
  (s.rxBuf.all (fun c => decide (c.1 < s.params.C)) && s.msgBuf.all (fun c => decide (c.1 < s.params.C - 2)) &&
    s.slots.all (fun c => decide (c.1 < s.params.Q * s.params.C))) &&
  (decide (s.rxI < s.params.C) && writtenFrom s.rxBuf 0 s.rxI) &&
  (decide (s.msgLen ≤ s.params.C - 2) && writtenFrom s.msgBuf 0 s.msgLen) &&
  (decide (s.slotNext < s.params.Q) && decide (s.qsize ≤ s.params.Q) && checkEntries s) &&
  checkCursor s &&
  (decide (s.phase ≠ .idle) || (!s.ready && !s.ovfTick)) &&
  (decide (s.phase = .idle) || s.initialized) &&
  (s.initialized || (decide (s.rxI = 0) && decide (s.msgLen = 0) && decide (s.qent = []) && !s.handlerValid))

theorem writtenFrom_spec {m : Memory} {base n : Nat} (h : writtenFrom m base n = true) :
    ∀ k < n, ∃ b, Memory.peek m (base + k) = some b := fun k hk => by
  simp only [writtenFrom, List.all_eq_true, List.mem_range] at h
  exact Option.isSome_iff_exists.mp (h k hk)

theorem checkCursor_spec {s : State} (h : checkCursor s = true) : CursorInv s := by
  simp only [checkCursor, Bool.or_eq_true, Bool.and_eq_true, decide_eq_true_eq] at h
  rcases h with h | h
  · exact .inl h
  · cases he : s.qent.head? with
    | none => simp [he] at h
    | some e =>
      simp only [he, Bool.and_eq_true, decide_eq_true_eq] at h
      exact .inr ⟨e, he, h.1.1, h.1.2, h.2⟩

theorem checkEntries_spec {s : State} (h : checkEntries s = true) {k : Nat} {e : QEntry} (hk : s.qent[k]? = some e) :
    e.slot = (s.slotNext + s.params.Q - s.qsize + k) % s.params.Q ∧ e.len + 1 ≤ s.params.C ∧
      ∀ j < e.len, ∃ b, Memory.peek s.slots (e.slot * s.params.C + j) = some b := by
  simp only [checkEntries, List.all_eq_true, List.mem_range] at h
  have hlt : k < s.qsize := (List.getElem?_eq_some_iff.mp hk).1
  have := h k hlt
  simp only [hk, Bool.and_eq_true, decide_eq_true_eq] at this
  exact ⟨this.1.1, this.1.2, writtenFrom_spec this.2⟩

/-- A state that passes the check is good. -/
theorem inv_of_check {s : State} (h : checkInv s = true) : Inv s := by
  simp only [checkInv, Bool.and_eq_true, Bool.or_eq_true, decide_eq_true_eq, List.all_eq_true, Bool.not_eq_true'] at h
  obtain ⟨⟨⟨⟨⟨⟨⟨⟨⟨hl, ⟨w1, w2⟩, w3⟩, ⟨b1, b2⟩, b3⟩, r1, r2⟩, m1, m2⟩, ⟨q1, q2⟩, q3⟩, hc⟩, p1⟩, p2⟩, p3⟩ := h
  have hQ : 0 < s.params.Q := hl.2.2.1
  have entry : ∀ e ∈ s.qent, ∃ k, s.qent[k]? = some e := fun e he => by
    obtain ⟨k, hk, h⟩ := List.mem_iff_getElem.mp he
    exact ⟨k, by rw [List.getElem?_eq_getElem hk, h]⟩
  refine ⟨hl, ⟨w1, w2, w3, b1, b2, b3⟩, ⟨r1, fun k hk => ?_⟩, ⟨m1, fun k hk => ?_⟩,
    ⟨q1, q2, fun k e hk => (checkEntries_spec q3 hk).1, fun e he => ?_, fun e he k hk => ?_⟩, checkCursor_spec hc,
    ⟨fun hp => ?_, fun hp => ?_, fun hi => ?_⟩⟩
  · obtain ⟨b, hb⟩ := writtenFrom_spec r2 k hk
    exact ⟨b, rxLoad_eq_ok.mpr ⟨Nat.lt_trans hk r1, by simpa using hb⟩⟩
  · obtain ⟨b, hb⟩ := writtenFrom_spec m2 k hk
    exact ⟨b, msgLoad_eq_ok.mpr ⟨Nat.lt_of_lt_of_le hk m1, by simpa using hb⟩⟩
  · obtain ⟨k, hk⟩ := entry e he
    exact (checkEntries_spec q3 hk).2.1
  · obtain ⟨j, hj⟩ := entry e he
    obtain ⟨h1, h2, h3⟩ := checkEntries_spec q3 hj
    obtain ⟨b, hb⟩ := h3 k hk
    have hs : e.slot < s.params.Q := h1 ▸ Nat.mod_lt _ hQ
    exact ⟨b, slotLoad_eq_ok.mpr ⟨hs, by omega, hb⟩⟩
  · rcases p1 with p | p
    · exact absurd hp p
    · exact p
  · rcases p2 with p | p
    · exact absurd p hp
    · exact p
  · rcases p3 with p | ⟨⟨⟨a, b⟩, c⟩, d⟩
    · simp [hi] at p
    · exact ⟨a, b, c, d⟩

/-- An instruction or a step answers a next state. -/
def runs (o : Host.Outcome State Fault Refusal) : Bool :=
  match o with
  | .next _ => true
  | .fault _ => false
  | .refused _ => false

theorem next_of_runs {o : Host.Outcome State Fault Refusal} (h : runs o = true) : ∃ t, o = .next t := by
  cases o with
  | next t => exact ⟨t, rfl⟩
  | fault f => simp [runs] at h
  | refused r => simp [runs] at h

/-- What a view of the next state shows. -/
def view {α : Type} (f : State → α) (o : Host.Outcome State Fault Refusal) : Option α :=
  match o with
  | .next s => some (f s)
  | .fault _ => none
  | .refused _ => none

end Sys2Proof.Machine
end

