-- ==== Sys2Proof/Laws/Decode.lean ====
section
/-! SUPPORT. The header's fields, the masks and the byte order as arithmetic on numbers, one lemma each. -/

namespace Sys2Proof

/-! ## Byte order -/

theorem wordOfBytes_toNat (a b c d : Byte) :
    (wordOfBytes a b c d).toNat = a.toNat + 256 * b.toNat + 65536 * c.toNat + 16777216 * d.toNat := by
  have := a.isLt; have := b.isLt; have := c.isLt; have := d.isLt
  simp only [wordOfBytes, BitVec.toNat_ofNat]
  omega

/-- Reading back the four bytes of a word. -/
theorem wordOfBytes_extract (w : Word) :
    wordOfBytes (w.extractLsb' 0 8) (w.extractLsb' 8 8) (w.extractLsb' 16 8) (w.extractLsb' 24 8) = w := by
  apply BitVec.eq_of_toNat_eq
  have := w.isLt
  simp only [wordOfBytes_toNat, BitVec.extractLsb'_toNat, Nat.shiftRight_eq_div_pow]
  omega

/-- Writing the word of four bytes gives the bytes back. -/
theorem wordBytes_wordOfBytes (a b c d : Byte) : wordBytes (wordOfBytes a b c d) = [a, b, c, d] := by
  have := a.isLt; have := b.isLt; have := c.isLt; have := d.isLt
  simp only [wordBytes, List.cons.injEq, and_true]
  refine ⟨?_, ?_, ?_, ?_⟩ <;> apply BitVec.eq_of_toNat_eq <;>
    simp only [BitVec.extractLsb'_toNat, Nat.shiftRight_eq_div_pow, wordOfBytes_toNat] <;> omega

/-- The byte sequence of a transaction is read back as the transaction. -/
theorem ofBytes_toBytes (t : Transaction) : Transaction.ofBytes t.toBytes = some t := by
  simp only [Transaction.toBytes, wordBytes, List.cons_append, List.nil_append, Transaction.ofBytes,
    wordOfBytes_extract]

/-! ## Fields -/

theorem headerOpc_toNat (h : Word) : (headerOpc h).toNat = h.toNat % 256 := by
  simp [headerOpc, BitVec.extractLsb'_toNat]

theorem headerArg_toNat (h : Word) : (headerArg h).toNat = h.toNat / 65536 := by
  have := h.isLt
  simp only [headerArg, BitVec.extractLsb'_toNat, Nat.shiftRight_eq_div_pow]
  omega

theorem headerCk_toNat (h : Word) : (headerCk h).toNat = h.toNat / 256 % 2 := by
  rw [headerCk, BitVec.getLsbD, Nat.testBit_eq_decide_div_mod_eq]
  rcases Nat.mod_two_eq_zero_or_one (h.toNat / 2 ^ 8) with h | h <;> simp_all

theorem headerOf_toNat (opc : Byte) (ck : Bool) (arg : Half) :
    (headerOf opc ck arg).toNat = opc.toNat + 256 * ck.toNat + 65536 * arg.toNat := by
  have h1 := opc.isLt
  have h2 := arg.isLt
  have h3 : ck.toNat ≤ 1 := by cases ck <;> simp
  have e1 : ck.toNat <<< 8 ||| opc.toNat = 2 ^ 8 * ck.toNat + opc.toNat := by
    rw [Nat.shiftLeft_eq, Nat.mul_comm, ← Nat.two_pow_add_eq_or_of_lt (by omega)]
  have e2 : arg.toNat <<< 16 ||| (2 ^ 8 * ck.toNat + opc.toNat) = 2 ^ 16 * arg.toNat + (2 ^ 8 * ck.toNat + opc.toNat) := by
    rw [Nat.shiftLeft_eq, Nat.mul_comm, ← Nat.two_pow_add_eq_or_of_lt (by omega)]
  simp only [headerOf, BitVec.toNat_append, BitVec.toNat_ofBool, e1]
  simp only [BitVec.toNat_ofNat, Nat.zero_mod, Nat.zero_shiftLeft, Nat.zero_or, e2]
  omega

/-- The fields of a header are the ones it was made from (R91). -/
theorem headerOpc_headerOf (opc : Byte) (ck : Bool) (arg : Half) : headerOpc (headerOf opc ck arg) = opc := by
  apply BitVec.eq_of_toNat_eq
  have := opc.isLt
  rw [headerOpc_toNat, headerOf_toNat]
  omega

theorem headerArg_headerOf (opc : Byte) (ck : Bool) (arg : Half) : headerArg (headerOf opc ck arg) = arg := by
  apply BitVec.eq_of_toNat_eq
  have h1 := opc.isLt
  have h2 : ck.toNat ≤ 1 := by cases ck <;> simp
  rw [headerArg_toNat, headerOf_toNat]
  omega

theorem headerRsvd_headerOf (opc : Byte) (ck : Bool) (arg : Half) : headerRsvd (headerOf opc ck arg) = 0 := by
  apply BitVec.eq_of_toNat_eq
  have h1 := opc.isLt
  have h2 : ck.toNat ≤ 1 := by cases ck <;> simp
  simp only [headerRsvd, BitVec.extractLsb'_toNat, Nat.shiftRight_eq_div_pow, headerOf_toNat]
  simp
  omega

/-! ## Masks (R93) -/

theorem and_mask_full (h : Word) : h &&& 0xFFFFFFFF#32 = h := by
  rw [show (0xFFFFFFFF#32 : Word) = BitVec.allOnes 32 by decide, BitVec.and_allOnes]

theorem and_mask_low (h : Word) : (h &&& 0x0000FFFF#32).toNat = h.toNat % 65536 := by
  rw [BitVec.toNat_and, show (0x0000FFFF#32 : Word).toNat = 2 ^ 16 - 1 by decide, Nat.and_two_pow_sub_one_eq_mod]

theorem and_mask_init (h : Word) : (h &&& 0xFFFFFEFF#32).toNat = h.toNat - 256 * (h.toNat / 256 % 2) := by
  have hdis : (h &&& 0xFFFFFEFF#32) &&& (h &&& 0x00000100#32) = 0#32 := by
    rw [BitVec.and_assoc, ← BitVec.and_assoc 0xFFFFFEFF#32, BitVec.and_comm 0xFFFFFEFF#32 h, BitVec.and_assoc,
      show (0xFFFFFEFF#32 &&& 0x00000100#32 : Word) = 0#32 by decide, BitVec.and_zero, BitVec.and_zero]
  have hor : h = (h &&& 0xFFFFFEFF#32) + (h &&& 0x00000100#32) := by
    rw [BitVec.add_eq_or_of_and_eq_zero _ _ hdis, ← BitVec.and_or_distrib_left]
    rw [show (0xFFFFFEFF#32 ||| 0x00000100#32 : Word) = BitVec.allOnes 32 by decide, BitVec.and_allOnes]
  have hbit : (h &&& 0x00000100#32).toNat = 256 * (h.toNat / 256 % 2) := by
    rw [BitVec.toNat_and, show (0x00000100#32 : Word).toNat = 2 ^ 8 by decide, Nat.and_two_pow, ← headerCk_toNat]
    simp [headerCk, BitVec.getLsbD, Nat.mul_comm]
  have hle : (h &&& 0xFFFFFEFF#32).toNat ≤ h.toNat := by rw [BitVec.toNat_and]; exact Nat.and_le_left
  have := congrArg BitVec.toNat hor
  rw [BitVec.toNat_add, hbit] at this
  have := h.isLt
  omega

/-- A row selects a header exactly when the header's number has the row's form (R93): OPC, and zero in every reserved
or unused bit. -/
theorem selects_iff (op : HostOp) (h : Word) :
    op.selects h = true ↔
      match op with
      | .init => h.toNat = 1 ∨ h.toNat = 257
      | .tick => h.toNat = 2
      | .enqueue => h.toNat % 65536 = 3
      | .getMessage => h.toNat = 4
      | .setHandler => h.toNat % 65536 = 5 := by
  have := h.isLt
  simp only [HostOp.selects, beq_iff_eq, ← BitVec.toNat_inj]
  cases op <;> simp only [HostOp.mask, HostOp.pattern, BitVec.ofNat_eq_ofNat, and_mask_full, and_mask_low,
    and_mask_init, BitVec.toNat_ofNat]
  all_goals omega

/-- The row an OPC names. -/
theorem ofOpc_eq_some {o : Byte} {op : HostOp} :
    HostOp.ofOpc o = some op ↔
      o.toNat = match op with
        | .init => 1
        | .tick => 2
        | .enqueue => 3
        | .getMessage => 4
        | .setHandler => 5 := by
  unfold HostOp.ofOpc
  simp only [← BitVec.toNat_inj]
  cases op <;> split_ifs <;> simp_all

theorem ofOpc_eq_none {o : Byte} : HostOp.ofOpc o = none ↔ o.toNat = 0 ∨ 6 ≤ o.toNat := by
  unfold HostOp.ofOpc
  simp only [← BitVec.toNat_inj]
  split_ifs <;> simp_all
  omega

/-- The transactions that decode, and to what (R93, R99): the inversion lemma of the decoder. -/
theorem decode_eq_ok {t : Transaction} {i : Instr} :
    decode t = .ok i ↔
      (∃ b0 b1 b2 b3, (t.header.toNat = 1 ∨ t.header.toNat = 257) ∧ t.data = [b0, b1, b2, b3] ∧
        i = .init (headerCk t.header) (wordOfBytes b0 b1 b2 b3)) ∨
      (t.header.toNat = 2 ∧ t.data = [] ∧ i = .tick) ∨
      (t.header.toNat % 65536 = 3 ∧ t.data.length = t.header.toNat / 65536 ∧ i = .enqueue t.data) ∨
      (t.header.toNat = 4 ∧ t.data = [] ∧ i = .getMessage) ∨
      (t.header.toNat % 65536 = 5 ∧ t.data = [] ∧ i = .setHandler (headerArg t.header)) := by
  have hopc := headerOpc_toNat t.header
  have hlt := t.header.isLt
  unfold decode
  cases ho : HostOp.ofOpc (headerOpc t.header) with
  | none =>
    have := ofOpc_eq_none.mp ho
    simp only [reduceCtorEq, false_iff]
    rintro (⟨_, _, _, _, h, -⟩ | ⟨h, -⟩ | ⟨h, -⟩ | ⟨h, -⟩ | ⟨h, -⟩) <;> omega
  | some op =>
    have hop := ofOpc_eq_some.mp ho
    by_cases hs : op.selects t.header = true
    · have hsel := (selects_iff op t.header).mp hs
      simp only [hs, if_true]
      cases op with
      | init =>
        simp only at hsel hop
        simp only [HostOp.operandLength, HostOp.build]
        match hd : t.data with
        | [b0, b1, b2, b3] =>
          simp only [List.length_cons, List.length_nil, Nat.reduceAdd, if_true, decodeInit, Except.ok.injEq]
          constructor
          · rintro rfl
            exact .inl ⟨b0, b1, b2, b3, hsel, rfl, rfl⟩
          · rintro (⟨c0, c1, c2, c3, -, h, rfl⟩ | ⟨h, -⟩ | ⟨h, -⟩ | ⟨h, -⟩ | ⟨h, -⟩)
            · simp only [List.cons.injEq, and_true] at h
              obtain ⟨rfl, rfl, rfl, rfl⟩ := h
              rfl
            all_goals omega
        | [] | [_] | [_, _] | [_, _, _] | _ :: _ :: _ :: _ :: _ :: _ =>
          simp
          omega
      | tick =>
        simp only at hsel hop
        simp only [HostOp.operandLength, HostOp.build, List.length_eq_zero_iff]
        split_ifs with hl
        · simp only [Except.ok.injEq]
          constructor
          · rintro rfl; exact .inr (.inl ⟨hsel, hl, rfl⟩)
          · rintro (⟨_, _, _, _, h, -⟩ | ⟨h, -, h'⟩ | ⟨h, -⟩ | ⟨h, -, h'⟩ | ⟨h, -⟩) <;> first | exact h'.symm | omega
        · simp only [false_iff]
          rintro (⟨_, _, _, _, h, -⟩ | ⟨h, h', -⟩ | ⟨h, -⟩ | ⟨h, h', -⟩ | ⟨h, -⟩) <;> first | exact hl h' | omega
      | enqueue =>
        simp only at hsel hop
        simp only [HostOp.operandLength, HostOp.build, headerArg_toNat]
        split_ifs with hl
        · simp only [Except.ok.injEq]
          constructor
          · rintro rfl; exact .inr (.inr (.inl ⟨hsel, hl, rfl⟩))
          · rintro (⟨_, _, _, _, h, -⟩ | ⟨h, -⟩ | ⟨-, -, rfl⟩ | ⟨h, -⟩ | ⟨h, -⟩)
            · omega
            · omega
            · rfl
            · omega
            · omega
        · simp [hl, hsel]; omega
      | getMessage =>
        simp only at hsel hop
        simp only [HostOp.operandLength, HostOp.build, List.length_eq_zero_iff]
        split_ifs with hl
        · simp only [Except.ok.injEq]
          constructor
          · rintro rfl; exact .inr (.inr (.inr (.inl ⟨hsel, hl, rfl⟩)))
          · rintro (⟨_, _, _, _, h, -⟩ | ⟨h, -, h'⟩ | ⟨h, -⟩ | ⟨h, -, h'⟩ | ⟨h, -⟩) <;> first | exact h'.symm | omega
        · simp only [false_iff]
          rintro (⟨_, _, _, _, h, -⟩ | ⟨h, h', -⟩ | ⟨h, -⟩ | ⟨h, h', -⟩ | ⟨h, -⟩) <;> first | exact hl h' | omega
      | setHandler =>
        simp only at hsel hop
        simp only [HostOp.operandLength, HostOp.build, List.length_eq_zero_iff]
        split_ifs with hl
        · simp only [Except.ok.injEq]
          constructor
          · rintro rfl; exact .inr (.inr (.inr (.inr ⟨hsel, hl, rfl⟩)))
          · rintro (⟨_, _, _, _, h, -⟩ | ⟨h, -⟩ | ⟨h, -⟩ | ⟨h, -⟩ | ⟨-, -, rfl⟩)
            · omega
            · omega
            · omega
            · omega
            · rfl
        · simp [hl]; omega
    · have hsel := mt (selects_iff op t.header).mpr hs
      simp only [hs, Bool.false_eq_true, if_false, reduceCtorEq, false_iff]
      rintro (⟨_, _, _, _, h, -⟩ | ⟨h, -⟩ | ⟨h, -⟩ | ⟨h, -⟩ | ⟨h, -⟩) <;> cases op <;> simp only at hsel hop <;> omega

end Sys2Proof
end

