-- ==== Sys2Proof/Laws/Queue.lean ====
section
/-! SUPPORT. The transmit queue: what an enqueue and a dequeue do to the occupancy of the slots, the entries and the
messages they hold (spec/10_state.md R29 to R34). -/

namespace Sys2Proof.Machine

/-! ## Round-robin arithmetic (R30, R34) -/

/-- A live entry never stands in SLOT_NEXT while the queue is not full (R34). -/
theorem ring_ne {next size k cap : Nat} (hn : next < cap) (hs : size < cap) (_hk : k < size) :
    (next + cap - size + k) % cap ≠ next := by
  rcases Nat.lt_or_ge (next + cap - size + k) cap with h | h
  · rw [Nat.mod_eq_of_lt h]; omega
  · rw [Nat.mod_eq_sub_mod h, Nat.mod_eq_of_lt (by omega)]; omega

/-- Advancing SLOT_NEXT with one more entry keeps the place of every entry. -/
theorem ring_append {next size k cap : Nat} (hn : next < cap) (hs : size < cap) (_hk : k ≤ size) :
    ((next + 1) % cap + cap - (size + 1) + k) % cap = (next + cap - size + k) % cap := by
  rcases Nat.lt_or_ge (next + 1) cap with h | h
  · rw [Nat.mod_eq_of_lt h]; congr 1; omega
  · have : next + 1 = cap := by omega
    subst this
    rw [Nat.mod_self, show next + (next + 1) - size + k = (0 + (next + 1) - (size + 1) + k) + (next + 1) by omega,
      Nat.add_mod_right]

/-- The new entry stands at the ring's place for it. -/
theorem ring_last {next size cap : Nat} (hn : next < cap) (hs : size ≤ cap) :
    (next + cap - size + size) % cap = next := by
  rw [show next + cap - size + size = next + cap by omega, Nat.add_mod_right, Nat.mod_eq_of_lt hn]

/-- Indices of different slots are different. -/
theorem slot_index_ne {q r C j k : Nat} (h : q ≠ r) (hj : j < C) (hk : k < C) : q * C + j ≠ r * C + k := by
  rcases Nat.lt_or_gt_of_ne h with h | h
  · have := Nat.mul_le_mul_right C (show q + 1 ≤ r from h)
    rw [Nat.add_mul] at this; omega
  · have := Nat.mul_le_mul_right C (show r + 1 ≤ q from h)
    rw [Nat.add_mul] at this; omega

/-- An index within a slot is an index within the Q slots. -/
theorem slot_index_lt {q Q C j : Nat} (hq : q < Q) (hj : j < C) : q * C + j < Q * C := by
  have := Nat.mul_le_mul_right C (show q + 1 ≤ Q from hq)
  rw [Nat.add_mul] at this; omega

/-! ## enqueue -/

/-- The state an accepted enqueue leaves, given the memory it leaves. -/
def acceptedState (s : State) (m : List Byte) (mem : Memory) : State :=
  { s with
    slots := mem
    qent := s.qent ++ [⟨s.slotNext, m.length⟩]
    slotNext := (s.slotNext + 1) % s.params.Q }

/-- From a good queue, an accepted enqueue writes its message into SLOT[SLOT_NEXT] and no other slot byte. -/
theorem enqueue_accepts {s : State} {m : List Byte} (hq : QueueInv s) (h : enqueueStatus s m = .ok) :
    ∃ mem, enqueue m s = .ok (.ok, acceptedState s m mem) ∧
      (∀ j (hj : j < m.length), Memory.peek mem (s.slotNext * s.params.C + j) = some m[j]) ∧
      (∀ a, (a < s.slotNext * s.params.C ∨ s.slotNext * s.params.C + m.length ≤ a) →
        Memory.peek mem a = Memory.peek s.slots a) ∧
      (Memory.wf s.slots → Memory.wf mem) ∧
      (∀ c ∈ mem, c ∈ s.slots ∨
        (s.slotNext * s.params.C ≤ c.1 ∧ c.1 < s.slotNext * s.params.C + m.length)) := by
  have hlen := (enqueueStatus_eq_ok.mp h).2
  obtain ⟨mem, h1, h2, h3, h4, h5⟩ := Memory.storeRange_spec (base := s.slotNext * s.params.C)
    (size := s.params.C) m s.slots 0 (by omega)
  refine ⟨mem, ?_, fun j hj => by simpa using h2 j hj, fun a ha => h3 a (by simpa using ha), h4,
    fun c hc => by simpa using h5 c hc⟩
  rw [enqueue_accepted h, if_pos hq.next, h1]
  rfl

/-- From a good queue, enqueue always answers (R210: it never stops the machine). -/
theorem enqueue_total {s : State} (m : List Byte) (hq : QueueInv s) :
    ∃ t, enqueue m s = .ok (enqueueStatus s m, t) := by
  by_cases h : enqueueStatus s m = .ok
  · obtain ⟨mem, h1, -⟩ := enqueue_accepts hq h
    exact ⟨_, h ▸ h1⟩
  · exact ⟨s, enqueue_refused h⟩

/-- A live entry's slot differs from SLOT_NEXT while the queue is not full (R34). -/
theorem live_slot_ne_next {s : State} (hq : QueueInv s) (hfull : s.qsize ≠ s.params.Q) {e : QEntry}
    (he : e ∈ s.qent) : e.slot < s.params.Q ∧ e.slot ≠ s.slotNext := by
  obtain ⟨k, hk, hke⟩ := List.mem_iff_getElem.mp he
  have hsz : s.qsize < s.params.Q := Nat.lt_of_le_of_ne hq.size hfull
  have := hq.occupancy k e (by rw [List.getElem?_eq_getElem hk, hke])
  rw [this]
  exact ⟨Nat.mod_lt _ (by omega), ring_ne hq.next hsz hk⟩

/-- A live entry's slot is one of the Q slots. -/
theorem live_slot_lt {s : State} (hq : QueueInv s) {e : QEntry} (he : e ∈ s.qent) : e.slot < s.params.Q := by
  obtain ⟨k, hk, hke⟩ := List.mem_iff_getElem.mp he
  rw [hq.occupancy k e (by rw [List.getElem?_eq_getElem hk, hke])]
  exact Nat.mod_lt _ (Nat.lt_of_le_of_lt (Nat.zero_le _) hq.next)

/-- An accepted enqueue keeps the bytes of every live entry. -/
theorem accepted_keeps_live {s : State} {m : List Byte} {mem : Memory} (hq : QueueInv s)
    (h : enqueueStatus s m = .ok)
    (hkeep : ∀ a, (a < s.slotNext * s.params.C ∨ s.slotNext * s.params.C + m.length ≤ a) →
      Memory.peek mem a = Memory.peek s.slots a)
    {e : QEntry} (he : e ∈ s.qent) {k : Nat} (hk : k < s.params.C) :
    (acceptedState s m mem).slotLoad e.slot k = s.slotLoad e.slot k := by
  have hst := enqueueStatus_eq_ok.mp h
  have hne := live_slot_ne_next hq hst.1 he
  have hpeek : Memory.peek mem (e.slot * s.params.C + k) = Memory.peek s.slots (e.slot * s.params.C + k) := by
    apply hkeep
    by_contra hcon
    have h1 : e.slot * s.params.C + k
        = s.slotNext * s.params.C + (e.slot * s.params.C + k - s.slotNext * s.params.C) := by omega
    exact slot_index_ne hne.2 hk (by omega) h1
  unfold State.slotLoad slotBase
  simp only [acceptedState, hne.1, if_true, bind, Except.bind]
  unfold Memory.load
  simp only [hpeek]

/-- An accepted enqueue keeps the queue's invariant (R34, by induction). -/
theorem accepted_queueInv {s : State} {m : List Byte} {mem : Memory} (hq : QueueInv s)
    (h : enqueueStatus s m = .ok)
    (hnew : ∀ j (hj : j < m.length), Memory.peek mem (s.slotNext * s.params.C + j) = some m[j])
    (hkeep : ∀ a, (a < s.slotNext * s.params.C ∨ s.slotNext * s.params.C + m.length ≤ a) →
      Memory.peek mem a = Memory.peek s.slots a) : QueueInv (acceptedState s m mem) := by
  have hst := enqueueStatus_eq_ok.mp h
  have hsz : s.qsize < s.params.Q := Nat.lt_of_le_of_ne hq.size hst.1
  have hsize : (acceptedState s m mem).qsize = s.qsize + 1 := by simp [acceptedState, State.qsize]
  refine ⟨Nat.mod_lt _ (by omega), by rw [hsize]; exact hsz, fun k e hk => ?_, fun e he => ?_, fun e he k hk => ?_⟩
  · rw [hsize]
    have hkl : k < s.qsize + 1 := by
      have := (List.getElem?_eq_some_iff.mp hk).1
      simpa [acceptedState, State.qsize] using this
    show e.slot = ((s.slotNext + 1) % s.params.Q + s.params.Q - (s.qsize + 1) + k) % s.params.Q
    rw [ring_append hq.next hsz (by omega)]
    rcases Nat.lt_or_ge k s.qsize with hlt | hge
    · apply hq.occupancy k e
      simpa [acceptedState, List.getElem?_append_left hlt] using hk
    · have hkk : k = s.qsize := by omega
      subst hkk
      rw [ring_last hq.next hq.size]
      simp only [acceptedState, State.qsize, List.getElem?_concat_length, Option.some.injEq] at hk
      rw [← hk]
  · rcases List.mem_append.mp he with he | he
    · exact hq.entryLen e he
    · simp only [List.mem_singleton] at he
      subst he
      exact hst.2
  · rcases List.mem_append.mp he with he | he
    · obtain ⟨b, hb⟩ := hq.entryLive e he k hk
      have hkC : k < s.params.C := (slotLoad_eq_ok.mp hb).2.1
      exact ⟨b, by rw [accepted_keeps_live hq h hkeep he hkC, hb]⟩
    · simp only [List.mem_singleton] at he
      subst he
      exact ⟨m[k], slotLoad_eq_ok.mpr ⟨hq.next, by
        show k < s.params.C
        have : k < m.length := hk
        omega, hnew k hk⟩⟩

/-- An accepted enqueue appends its message to the messages the queue holds. -/
theorem accepted_queued {s : State} {m : List Byte} {mem : Memory} {ms : List (List Byte)} (hq : QueueInv s)
    (h : enqueueStatus s m = .ok)
    (hnew : ∀ j (hj : j < m.length), Memory.peek mem (s.slotNext * s.params.C + j) = some m[j])
    (hkeep : ∀ a, (a < s.slotNext * s.params.C ∨ s.slotNext * s.params.C + m.length ≤ a) →
      Memory.peek mem a = Memory.peek s.slots a) (hms : Queued s ms) : Queued (acceptedState s m mem) (ms ++ [m]) := by
  have hst := enqueueStatus_eq_ok.mp h
  unfold Queued
  refine List.rel_append ?_ ?_
  · have hmem : ∀ (l : List QEntry) (ms : List (List Byte)), (∀ e ∈ l, e ∈ s.qent) →
        List.Forall₂ (fun (e : QEntry) m => e.len = m.length ∧ s.slotRead e.slot e.len = .ok m) l ms →
        List.Forall₂ (fun (e : QEntry) m' => e.len = m'.length ∧
          (acceptedState s m mem).slotRead e.slot e.len = .ok m') l ms := by
      intro l
      induction l with
      | nil => intro ms _ h; cases h; exact .nil
      | cons e l ih =>
        intro ms hl hf
        cases hf with
        | cons hd htl =>
          refine .cons ⟨hd.1, ?_⟩ (ih _ (fun e' he' => hl e' (List.mem_cons_of_mem _ he')) htl)
          have he : e ∈ s.qent := hl e List.mem_cons_self
          have hlt := live_slot_lt hq he
          obtain ⟨h1, h2⟩ := (slotRead_eq_ok hlt).mp hd.2
          refine (slotRead_eq_ok (s := acceptedState s m mem) hlt).mpr ⟨h1, fun j hj => ?_⟩
          have hj' := h2 j hj
          rw [accepted_keeps_live hq h hkeep he (slotLoad_eq_ok.mp hj').2.1, hj']
    exact hmem s.qent ms (fun _ h => h) hms
  · refine .cons ⟨rfl, ?_⟩ .nil
    refine (slotRead_eq_ok (s := acceptedState s m mem) hq.next).mpr ⟨rfl, fun j hj => ?_⟩
    exact slotLoad_eq_ok.mpr ⟨hq.next, by show j < s.params.C; omega, hnew j hj⟩

/-! ## dequeue -/

/-- Removing the head keeps the queue's invariant (R159). -/
theorem dequeue_queueInv {s t : State} {e : QEntry} {rest : List QEntry} (hq : QueueInv s)
    (hs : s.qent = e :: rest) (ht : t.qent = rest) (hp : t.params = s.params) (hn : t.slotNext = s.slotNext)
    (hm : t.slots = s.slots) : QueueInv t := by
  have hsz : s.qsize = t.qsize + 1 := by simp [State.qsize, hs, ht]
  have hle := hq.size
  have hload : ∀ q k, t.slotLoad q k = s.slotLoad q k := fun q k => by simp [State.slotLoad, hp, hm]
  refine ⟨by rw [hn, hp]; exact hq.next, by rw [hp]; omega, fun k e' hk => ?_, fun e' he => ?_, fun e' he k hk => ?_⟩
  · have := hq.occupancy (k + 1) e' (by rw [hs]; simpa [ht] using hk)
    rw [this, hn, hp]
    congr 1
    omega
  · rw [hp]; exact hq.entryLen e' (by rw [hs]; exact List.mem_cons_of_mem _ (ht ▸ he))
  · rw [hload]; exact hq.entryLive e' (by rw [hs]; exact List.mem_cons_of_mem _ (ht ▸ he)) k hk

/-- A state with the same queue, slots and parameters has the same queue invariant. -/
theorem QueueInv.congr {s t : State} (hq : QueueInv s) (hp : t.params = s.params) (he : t.qent = s.qent)
    (hn : t.slotNext = s.slotNext) (hm : t.slots = s.slots) : QueueInv t := by
  have hload : ∀ q k, t.slotLoad q k = s.slotLoad q k := fun q k => by simp [State.slotLoad, hp, hm]
  have hsz : t.qsize = s.qsize := by simp [State.qsize, he]
  exact ⟨by rw [hn, hp]; exact hq.next, by rw [hsz, hp]; exact hq.size,
    fun k e h => by rw [hn, hp, hsz]; exact hq.occupancy k e (he ▸ h),
    fun e h => by rw [hp]; exact hq.entryLen e (he ▸ h),
    fun e h k hk => by rw [hload]; exact hq.entryLive e (he ▸ h) k hk⟩

/-- A state with the same queue, slots and parameters holds the same messages. -/
theorem Queued.congr {s t : State} {ms : List (List Byte)} (h : Queued s ms) (hp : t.params = s.params)
    (he : t.qent = s.qent) (hm : t.slots = s.slots) : Queued t ms := by
  have hread : ∀ q n, t.slotRead q n = s.slotRead q n := fun q n => by simp [State.slotRead, hp, hm]
  unfold Queued
  simp only [he, hread]
  exact h

/-- The number of messages is QSIZE. -/
theorem Queued.length {s : State} {ms : List (List Byte)} (h : Queued s ms) : s.qsize = ms.length :=
  List.Forall₂.length_eq h

/-- Every good queue holds some list of messages. -/
theorem exists_queued {s : State} (hq : QueueInv s) : ∃ ms, Queued s ms := by
  have : ∀ l : List QEntry, (∀ e ∈ l, e ∈ s.qent) →
      ∃ ms, List.Forall₂ (fun (e : QEntry) m => e.len = m.length ∧ s.slotRead e.slot e.len = .ok m) l ms := by
    intro l
    induction l with
    | nil => exact fun _ => ⟨[], .nil⟩
    | cons e l ih =>
      intro hl
      obtain ⟨ms, hms⟩ := ih fun e' he' => hl e' (List.mem_cons_of_mem _ he')
      have he : e ∈ s.qent := hl e List.mem_cons_self
      have hlt := live_slot_lt hq he
      obtain ⟨m, hm⟩ : ∃ m, s.slotRead e.slot e.len = .ok m := by
        unfold State.slotRead slotBase
        simp only [hlt, if_true, bind, Except.bind]
        apply Memory.loadRange_total
        intro j hj
        obtain ⟨b, hb⟩ := hq.entryLive e he j hj
        obtain ⟨-, h2, h3⟩ := slotLoad_eq_ok.mp hb
        exact ⟨b, Memory.load_eq_ok.mpr ⟨by simpa using h2, by simpa using h3⟩⟩
      exact ⟨m :: ms, .cons ⟨((slotRead_eq_ok hlt).mp hm).1.symm, hm⟩ hms⟩
  exact this s.qent fun _ h => h

end Sys2Proof.Machine
end

