-- ==== Sys2Proof/Laws/Invariant.lean ====
section
/-! SUPPORT. What each operation does to the invariant, one lemma per operation: from a good state it answers, and the
state it leaves is good. -/

namespace Sys2Proof.Machine

/-! ## Enqueue -/

/-- The parts of the invariant an enqueue depends on and may change. -/
structure TxGood (s : State) : Prop where
  memory : MemoryInv s
  queue : QueueInv s
  cursor : CursorInv s

/-- An accepted enqueue does not touch the cursor's head (R155). -/
theorem accepted_cursorInv {s : State} {m : List Byte} {mem : Memory} (h : CursorInv s) :
    CursorInv (acceptedState s m mem) := by
  rcases h with h | ⟨e, h1, h2⟩
  · exact .inl h
  · refine .inr ⟨e, ?_, h2⟩
    simp only [acceptedState]
    cases hq : s.qent with
    | nil => simp [hq] at h1
    | cons a l => simpa [hq] using h1

theorem accepted_memoryInv {s : State} {m : List Byte} {mem : Memory} (h : MemoryInv s) (hn : s.slotNext < s.params.Q)
    (hm : m.length < s.params.C) (hw : Memory.wf mem)
    (hc : ∀ c ∈ mem, c ∈ s.slots ∨
      (s.slotNext * s.params.C ≤ c.1 ∧ c.1 < s.slotNext * s.params.C + m.length)) :
    MemoryInv (acceptedState s m mem) := by
  refine ⟨h.rxWf, h.msgWf, hw, h.rxWithin, h.msgWithin, fun c hcm => ?_⟩
  rcases hc c hcm with hc | ⟨h1, h2⟩
  · exact h.slotsWithin c hc
  · have := slot_index_lt (j := c.1 - s.slotNext * s.params.C) hn (show _ < s.params.C by omega)
    show c.1 < s.params.Q * s.params.C
    omega

/-- `enqueue` from a good queue: it answers its status, changes `slots`, `qent` and `slotNext` at most, keeps the
queue good, and appends the message exactly when the status is OK (R151, R153, R155). -/
theorem enqueue_good {s : State} (m : List Byte) (h : TxGood s) :
    ∃ mem q n, enqueue m s = .ok (enqueueStatus s m, { s with slots := mem, qent := q, slotNext := n }) ∧
      TxGood { s with slots := mem, qent := q, slotNext := n } ∧
      ∀ ms, Queued s ms → Queued { s with slots := mem, qent := q, slotNext := n }
        (if enqueueStatus s m = .ok then ms ++ [m] else ms) := by
  by_cases hst : enqueueStatus s m = .ok
  · obtain ⟨mem, h1, h2, h3, h4, h5⟩ := enqueue_accepts h.queue hst
    refine ⟨mem, s.qent ++ [QEntry.mk s.slotNext m.length], (s.slotNext + 1) % s.params.Q, by rw [hst]; exact h1,
      (⟨accepted_memoryInv h.memory h.queue.next (enqueueStatus_eq_ok.mp hst).2 (h4 h.memory.slotsWf) h5,
        accepted_queueInv h.queue hst h2 h3, accepted_cursorInv h.cursor⟩ : TxGood (acceptedState s m mem)), fun ms hms => ?_⟩
    rw [if_pos hst]
    exact accepted_queued h.queue hst h2 h3 hms
  · exact ⟨s.slots, s.qent, s.slotNext, enqueue_refused hst, h, fun ms hms => by rw [if_neg hst]; exact hms⟩

/-- `afterDiag` is what enqueue does to the messages. -/
theorem afterDiag_eq {s : State} {m : List Byte} {ms : List (List Byte)} (h : QueueInv s) (hms : Queued s ms) :
    afterDiag s ms m = if enqueueStatus s m = .ok then ms ++ [m] else ms := by
  have hl := hms.length
  have hle := h.size
  unfold afterDiag
  simp only [enqueueStatus_eq_ok, hl]
  congr 1
  simp only [eq_iff_iff]
  omega

/-- ENQUEUE_DIAG from a good queue (R133). -/
theorem enqueueDiag_good {s : State} (m : List Byte) (h : TxGood s) :
    ∃ mem q n, enqueueDiag m s = .ok { s with slots := mem, qent := q, slotNext := n } ∧
      TxGood { s with slots := mem, qent := q, slotNext := n } ∧
      ∀ ms, Queued s ms → Queued { s with slots := mem, qent := q, slotNext := n } (afterDiag s ms m) := by
  obtain ⟨mem, q, n, h1, h2, h3⟩ := enqueue_good m h
  exact ⟨mem, q, n, by rw [enqueueDiag_eq, h1]; rfl, h2,
    fun ms hms => by rw [afterDiag_eq h.queue hms]; exact h3 ms hms⟩

/-! ## DELIVER -/

/-- DELIVER of a payload that fits leaves a good Message holding it (R132, R27). -/
theorem deliver_good {s : State} {p : List Byte} (h : MemoryInv s) (hp : p.length ≤ s.params.C - 2) :
    ∃ m, deliver p s = .ok { s with msgLen := p.length, msgBuf := m, deliv := s.deliv ++ deliveryEvents s p, ready := true } ∧
      MemoryInv { s with msgLen := p.length, msgBuf := m, deliv := s.deliv ++ deliveryEvents s p, ready := true } ∧
      MsgInv { s with msgLen := p.length, msgBuf := m, deliv := s.deliv ++ deliveryEvents s p, ready := true } ∧
      ({ s with msgLen := p.length, msgBuf := m, deliv := s.deliv ++ deliveryEvents s p, ready := true } : State).msgRead
        p.length = .ok p ∧
      (∀ k, p.length ≤ k → ({ s with msgLen := p.length, msgBuf := m, deliv := s.deliv ++ deliveryEvents s p,
                                      ready := true } : State).msgLoad k = s.msgLoad k) := by
  obtain ⟨m, h1, h2, h3, h4, h5⟩ := deliver_spec p s hp
  refine ⟨m, h1, ⟨h.rxWf, h4 h.msgWf, h.slotsWf, h.rxWithin, fun c hc => ?_, h.slotsWithin⟩, ⟨hp, fun k hk => ?_⟩, ?_,
    fun k hk => ?_⟩
  · rcases h5 c hc with hc | hc
    · exact h.msgWithin c hc
    · exact Nat.lt_of_lt_of_le hc hp
  · exact ⟨p[k], msgLoad_eq_ok.mpr ⟨Nat.lt_of_lt_of_le hk hp, h2 k hk⟩⟩
  · exact msgRead_eq_ok.mpr ⟨rfl, fun j hj => msgLoad_eq_ok.mpr ⟨Nat.lt_of_lt_of_le hj hp, h2 j hj⟩⟩
  · simp only [State.msgLoad, Memory.load, Nat.zero_add, h3 k hk]

/-! ## CONSUME_BYTE -/

/-- The state after step 1 of CONSUME_BYTE: the byte stored at RX_I (R121). -/
def storedState (s : State) (b : Byte) : State := { s with rxBuf := Memory.poke s.rxBuf s.rxI b }

theorem rxStore_storedState {s : State} (b : Byte) (h : s.rxI < s.params.C) :
    s.rxStore s.rxI b = .ok (storedState s b) := rxStore_eq_ok.mpr ⟨h, rfl⟩

/-- The byte just stored. -/
theorem stored_load_self {s : State} (b : Byte) (h : s.rxI < s.params.C) : (storedState s b).rxLoad s.rxI = .ok b :=
  rxLoad_eq_ok.mpr ⟨h, Memory.peek_poke_self _ _ _⟩

/-- Every other byte of RX_BUF is as before. -/
theorem stored_load_other {s : State} (b : Byte) {k : Nat} (h : k ≠ s.rxI) :
    (storedState s b).rxLoad k = s.rxLoad k := by
  simp only [State.rxLoad, Memory.load, storedState, Nat.zero_add, Memory.peek_poke_other _ _ h]

theorem stored_memoryInv {s : State} (b : Byte) (h : MemoryInv s) (hi : s.rxI < s.params.C) :
    MemoryInv (storedState s b) :=
  ⟨Memory.poke_wf _ _ h.rxWf, h.msgWf, h.slotsWf, fun c hc => by
      rcases Memory.mem_poke hc with hc | hc
      · exact h.rxWithin c hc
      · subst hc; exact hi,
    h.msgWithin, h.slotsWithin⟩

/-- Every byte up to the one just stored can be read. -/
theorem stored_live {s : State} (b : Byte) (h : RxInv s) {k : Nat} (hk : k ≤ s.rxI) :
    ∃ v, (storedState s b).rxLoad k = .ok v := by
  rcases Nat.lt_or_eq_of_le hk with hk | hk
  · obtain ⟨v, hv⟩ := h.live k hk
    exact ⟨v, by rw [stored_load_other b (by omega), hv]⟩
  · exact ⟨b, hk ▸ stored_load_self b h.index⟩

theorem stored_slice {s : State} (b : Byte) (h : RxInv s) {n : Nat} (hn : n ≤ s.rxI + 1) :
    ∃ l, (storedState s b).rxSlice n = .ok l ∧ l.length = n := by
  obtain ⟨l, hl⟩ := Memory.loadRange_total (m := (storedState s b).rxBuf) (base := 0) (size := s.params.C) (n := n)
    (k := 0) fun j hj => by
      obtain ⟨v, hv⟩ := stored_live b h (k := j) (by omega)
      exact ⟨v, by simpa [State.rxLoad, storedState] using hv⟩
  exact ⟨l, hl, (rxSlice_eq_ok.mp hl).1⟩

/-- The boundary test answers (R121). -/
theorem isBoundary_total {s : State} (b : Byte) (h : RxInv s) :
    ∃ v, isBoundary (storedState s b) s.rxI b = .ok v := by
  unfold isBoundary
  split_ifs with hc
  · obtain ⟨a, ha⟩ := stored_live b h (k := s.rxI - 1) (by omega)
    exact ⟨_, by simp [bind, Except.bind, ha]; rfl⟩
  · exact ⟨false, rfl⟩

/-- What the boundary test answers (R84, R121). -/
theorem isBoundary_eq_true {s : State} {i : Nat} {b : Byte} :
    isBoundary s i b = .ok true ↔ 0 < i ∧ b = s.params.termB ∧ s.rxLoad (i - 1) = .ok s.params.termA := by
  unfold isBoundary
  split_ifs with hc
  · cases ha : s.rxLoad (i - 1) with
    | error f => simp [bind, Except.bind]
    | ok a => simp [bind, Except.bind, hc]
  · simp only [Except.ok.injEq, Bool.false_eq_true, false_iff]
    tauto

/-- The parts of the state the receive path may change. -/
def rxChange (s : State) (msgLen : Nat) (msgBuf : Memory) (deliv : List Delivery) (ready : Bool) (slots : Memory)
    (qent : List QEntry) (slotNext : Nat) : State :=
  { s with msgLen := msgLen, msgBuf := msgBuf, deliv := deliv, ready := ready, slots := slots, qent := qent,
           slotNext := slotNext }

/-- Closing a frame at a boundary from a good state: it answers, keeps what it does not own, and stays good (R121 to
R124, R126). -/
theorem closeFrame_good {s : State} {i : Nat} (hl : s.params.Legal) (htx : TxGood s) (hm : MsgInv s) (hi : 0 < i)
    (hiC : i < s.params.C) (hlive : ∀ k < i, ∃ v, s.rxLoad k = .ok v) :
    ∃ a b c d e f g, closeFrame i s = .ok (rxChange s a b c d e f g) ∧ TxGood (rxChange s a b c d e f g) ∧
      MsgInv (rxChange s a b c d e f g) := by
  have slice : ∀ n, n ≤ i → ∃ l, s.rxSlice n = .ok l ∧ l.length = n := fun n hn => by
    obtain ⟨l, hl⟩ := Memory.loadRange_total (m := s.rxBuf) (base := 0) (size := s.params.C) (n := n) (k := 0)
      fun j hj => by
        obtain ⟨v, hv⟩ := hlive j (by omega)
        exact ⟨v, by simpa [State.rxLoad] using hv⟩
    exact ⟨l, hl, (rxSlice_eq_ok.mp hl).1⟩
  have del : ∀ p : List Byte, p.length ≤ s.params.C - 2 →
      ∃ a b c d e f g, deliver p s = .ok (rxChange s a b c d e f g) ∧ TxGood (rxChange s a b c d e f g) ∧
        MsgInv (rxChange s a b c d e f g) := fun p hp => by
    obtain ⟨m, h1, h2, h3, -⟩ := deliver_good htx.memory hp
    exact ⟨p.length, m, s.deliv ++ deliveryEvents s p, true, s.slots, s.qent, s.slotNext, h1,
      ⟨h2, ⟨htx.queue.next, htx.queue.size, htx.queue.occupancy, htx.queue.entryLen, htx.queue.entryLive⟩, htx.cursor⟩, h3⟩
  unfold closeFrame
  by_cases hck : checkedPath s.cfgCk i = true
  · have hi2 : 2 < i := by simp [checkedPath] at hck; exact hck.2
    obtain ⟨rx, hrx⟩ := hlive (i - 2) (by omega)
    obtain ⟨p, hp, hpl⟩ := slice (i - 2) (by omega)
    simp only [hck, if_true, bind, Except.bind, hrx, hp]
    split_ifs with hsum
    · exact del p (by omega)
    · obtain ⟨m1, q1, n1, h1, g1, -⟩ := enqueueDiag_good s.params.badckNotice htx
      obtain ⟨m2, q2, n2, h2, g2, -⟩ := enqueueDiag_good (echoDiag p) g1
      obtain ⟨m3, q3, n3, h3, g3, -⟩ := enqueueDiag_good (ckDiag s.params.ckFormat rx) g2
      refine ⟨s.msgLen, s.msgBuf, s.deliv, s.ready, m3, q3, n3, ?_, g3, ⟨hm.bound, hm.live⟩⟩
      simp only [reportMismatch, bind, Except.bind, h1, h2]
      exact h3
  · obtain ⟨p, hp, hpl⟩ := slice (i - 1) (by omega)
    simp only [hck, Bool.false_eq_true, if_false, bind, Except.bind, hp]
    exact del p (by omega)

/-- CONSUME_BYTE in the receive loop, from a good state: it answers and the state stays good, in the same phase. -/
theorem consumeByte_good {s : State} (b : Byte) (h : Inv s) (hp : s.phase = .rx) :
    ∃ t, consumeByte b s = .ok t ∧ Inv t ∧ t.phase = .rx := by
  have hinit : s.initialized = true := h.phase.busy (by simp [hp])
  have phase : ∀ t : State, t.phase = .rx → t.initialized = true → PhaseInv t := fun t h1 h2 =>
    ⟨fun h => by simp [h1] at h, fun _ => h2, fun h => by simp [h2] at h⟩
  obtain ⟨v, hv⟩ := isBoundary_total b h.rx
  have htx : TxGood (storedState s b) := ⟨stored_memoryInv b h.memory h.rx.index,
    h.queue.congr rfl rfl rfl rfl, h.cursor⟩
  have hCpos : 0 < s.params.C := by have := h.legal.1; omega
  unfold consumeByte
  simp only [bind, Except.bind, rxStore_storedState b h.rx.index, hv]
  cases v with
  | true =>
    have hi := (isBoundary_eq_true.mp hv).1
    obtain ⟨a1, a2, a3, a4, a5, a6, a7, e1, e2, e3⟩ := closeFrame_good (s := storedState s b) (i := s.rxI) h.legal htx
      ⟨h.msg.bound, h.msg.live⟩ hi h.rx.index fun k hk => stored_live b h.rx (by omega)
    simp only [if_true, e1]
    exact ⟨_, rfl, ⟨h.legal, ⟨e2.memory.rxWf, e2.memory.msgWf, e2.memory.slotsWf, e2.memory.rxWithin,
      e2.memory.msgWithin, e2.memory.slotsWithin⟩, ⟨hCpos, fun k hk => by simp at hk⟩, ⟨e3.bound, e3.live⟩,
      e2.queue.congr rfl rfl rfl rfl, e2.cursor, phase _ hp hinit⟩, hp⟩
  | false =>
    simp only [Bool.false_eq_true, if_false]
    split_ifs with hcap
    · obtain ⟨m, q, n, h1, h2, -⟩ := enqueueDiag_good (s := { storedState s b with rxI := 0, ovfTick := true })
        s.params.overflowNotice ⟨⟨htx.memory.rxWf, htx.memory.msgWf, htx.memory.slotsWf, htx.memory.rxWithin,
          htx.memory.msgWithin, htx.memory.slotsWithin⟩, htx.queue.congr rfl rfl rfl rfl, htx.cursor⟩
      refine ⟨_, h1, ⟨h.legal, h2.memory, ⟨hCpos, fun k hk => by simp at hk⟩, ⟨h.msg.bound, h.msg.live⟩, h2.queue,
        h2.cursor, phase _ hp hinit⟩, hp⟩
    · have hlt : s.rxI + 1 < s.params.C := by
        simp only [reachesCapacity, decide_eq_true_eq] at hcap
        have := h.rx.index
        exact Nat.lt_of_le_of_ne this hcap
      exact ⟨_, rfl, ⟨h.legal, ⟨htx.memory.rxWf, htx.memory.msgWf, htx.memory.slotsWf, htx.memory.rxWithin,
        htx.memory.msgWithin, htx.memory.slotsWithin⟩, ⟨hlt, fun k hk => stored_live b h.rx (Nat.lt_succ_iff.mp hk)⟩,
        ⟨h.msg.bound, h.msg.live⟩, htx.queue.congr rfl rfl rfl rfl, htx.cursor, phase _ hp hinit⟩, hp⟩

/-! ## PUMP_ONE_BYTE -/

/-- TX_TOT at this byte, from a good state (R33). -/
theorem txTotal_good {s : State} {e : QEntry} {rest : List QEntry} (h : CursorInv s) (hs : s.qent = e :: rest) :
    txTotal s e = e.len + s.ckBit + 2 ∧ s.txOff < e.len + s.ckBit + 2 := by
  unfold txTotal
  rcases h with ⟨h1, h2⟩ | ⟨e', h1, h2, h3, h4⟩
  · simp [h1, h2]
  · simp only [hs, List.head?_cons, Option.some.injEq] at h1
    subst h1
    have hne : ¬(s.txOff = 0 ∧ s.txTot = 0) := by omega
    rw [if_neg hne, h2]
    exact ⟨rfl, by omega⟩

/-- The byte an effective pump sends, by the offset in the frame (R157). -/
theorem txByte_good {s : State} {e : QEntry} {m : List Byte} (hq : e.slot < s.params.Q)
    (hm : s.slotRead e.slot e.len = .ok m) (hoff : s.txOff < e.len + s.ckBit + 2) :
    ∃ b, txByte s e (e.len + s.ckBit + 2 - s.txOff) = .ok b ∧ (wireFrame s.params s.cfgCk m)[s.txOff]? = some b := by
  obtain ⟨hl, hload⟩ := (slotRead_eq_ok hq).mp hm
  unfold txByte wireFrame State.ckBit
  unfold State.ckBit at hoff
  cases hc : s.cfgCk
  · simp only [hc, Bool.false_eq_true, if_false] at hoff ⊢
    rcases Nat.lt_or_ge s.txOff e.len with h1 | h1
    · refine ⟨m[s.txOff], ?_, ?_⟩
      · rw [if_neg (by simp), if_neg (by omega), if_neg (by omega)]
        exact hload _ (by omega)
      · rw [List.append_nil, List.getElem?_append_left (by omega), List.getElem?_eq_getElem (by omega)]
    · rcases Nat.lt_or_ge s.txOff (e.len + 1) with h2 | h2
      · have : s.txOff = e.len := by omega
        refine ⟨s.params.termA, by rw [if_neg (by simp), if_pos (by omega)], ?_⟩
        rw [List.append_nil, List.getElem?_append_right (by omega), this, hl]
        simp
      · have : s.txOff = e.len + 1 := by omega
        refine ⟨s.params.termB, by rw [if_neg (by simp), if_neg (by omega), if_pos (by omega)], ?_⟩
        rw [List.append_nil, List.getElem?_append_right (by omega), this, hl]
        simp
  · simp only [hc, if_true] at hoff ⊢
    have happ : m ++ [checksum m] ++ [s.params.termA, s.params.termB]
        = m ++ [checksum m, s.params.termA, s.params.termB] := by simp
    rw [happ]
    rcases Nat.lt_or_ge s.txOff e.len with h1 | h1
    · refine ⟨m[s.txOff], ?_, ?_⟩
      · rw [if_neg (by simp; omega), if_neg (by omega), if_neg (by omega)]
        exact hload _ (by omega)
      · rw [List.getElem?_append_left (by omega), List.getElem?_eq_getElem (by omega)]
    · rcases Nat.lt_or_ge s.txOff (e.len + 1) with h2 | h2
      · have : s.txOff = e.len := by omega
        refine ⟨checksum m, ?_, ?_⟩
        · rw [if_pos ⟨trivial, by omega⟩, hm]; rfl
        · rw [List.getElem?_append_right (by omega), this, hl]
          simp
      · rcases Nat.lt_or_ge s.txOff (e.len + 2) with h3 | h3
        · have : s.txOff = e.len + 1 := by omega
          refine ⟨s.params.termA, by rw [if_neg (by simp; omega), if_pos (by omega)], ?_⟩
          rw [List.getElem?_append_right (by omega), this, hl]
          simp
        · have : s.txOff = e.len + 2 := by omega
          refine ⟨s.params.termB, by rw [if_neg (by simp; omega), if_neg (by omega), if_pos (by omega)], ?_⟩
          rw [List.getElem?_append_right (by omega), this, hl]
          simp

/-- The state an effective pump that writes b leaves (R156, R159). -/
def pumpedState (s : State) (e : QEntry) (rest : List QEntry) (b : Byte) : State :=
  advanceCursor rest (e.len + s.ckBit + 2) { s with chOut := s.chOut ++ [b] }

/-- An effective pump from a good queue (R156, R157). -/
theorem pump_effective {s : State} {e : QEntry} {rest : List QEntry} {m : List Byte} (hc : CursorInv s)
    (hs : s.qent = e :: rest) (hcap : s.chCap ≠ 0) (hq : e.slot < s.params.Q)
    (hm : s.slotRead e.slot e.len = .ok m) :
    ∃ b, pumpOneByte s = .ok (pumpedState s e rest b) ∧ (wireFrame s.params s.cfgCk m)[s.txOff]? = some b := by
  obtain ⟨ht, hlt⟩ := txTotal_good hc hs
  obtain ⟨b, hb, hw⟩ := txByte_good hq hm hlt
  refine ⟨b, ?_, hw⟩
  have hwr : chWrite s b = .ok { s with chOut := s.chOut ++ [b] } := chWrite_eq_ok.mpr ⟨hcap, rfl⟩
  unfold pumpOneByte
  split
  · simp_all
  · next e' rest' hs' =>
    obtain ⟨rfl, rfl⟩ := List.cons.inj (hs.symm.trans hs')
    simp only [chWriteCap, hcap, if_false, ht, Nat.not_lt_of_lt hlt, bind, Except.bind, hb, hwr]
    rfl

/-- A pump without an entry or without capacity changes nothing (R160, R162). -/
theorem pump_noop {s : State} (h : s.qent = [] ∨ s.chCap = 0) : pumpOneByte s = .ok s := by
  unfold pumpOneByte
  rcases h with h | h
  · simp [h]
  · split <;> simp [chWriteCap, h]

/-- PUMP_ONE_BYTE from a good queue: it answers, at most CH_OUT, QENT and the cursor change, and the queue stays good. -/
theorem pump_good {s : State} (h : TxGood s) :
    ∃ out q off tot, pumpOneByte s = .ok { s with chOut := out, qent := q, txOff := off, txTot := tot } ∧
      TxGood { s with chOut := out, qent := q, txOff := off, txTot := tot } := by
  by_cases hno : s.qent = [] ∨ s.chCap = 0
  · exact ⟨s.chOut, s.qent, s.txOff, s.txTot, pump_noop hno, h⟩
  · simp only [not_or] at hno
    obtain ⟨e, rest, hs⟩ := List.exists_cons_of_ne_nil hno.1
    have he : e ∈ s.qent := by simp [hs]
    have hlt := live_slot_lt h.queue he
    obtain ⟨ms, hms⟩ := exists_queued h.queue
    unfold Queued at hms
    rw [hs] at hms
    cases hms with
    | cons hd _ =>
      obtain ⟨b, hb, -⟩ := pump_effective h.cursor hs hno.2 hlt hd.2
      have hoff := (txTotal_good h.cursor hs).2
      rw [hb]
      unfold pumpedState advanceCursor
      split_ifs with hlast
      · exact ⟨_, _, _, _, rfl, ⟨h.memory.rxWf, h.memory.msgWf, h.memory.slotsWf, h.memory.rxWithin,
          h.memory.msgWithin, h.memory.slotsWithin⟩, dequeue_queueInv h.queue hs rfl rfl rfl rfl, .inl ⟨rfl, rfl⟩⟩
      · refine ⟨s.chOut ++ [b], s.qent, s.txOff + 1, e.len + s.ckBit + 2, rfl, ⟨h.memory.rxWf, h.memory.msgWf,
          h.memory.slotsWf, h.memory.rxWithin, h.memory.msgWithin, h.memory.slotsWithin⟩,
          h.queue.congr rfl rfl rfl rfl, .inr ⟨e, by simp [hs], rfl, by simp, ?_⟩⟩
        simp only at hlast ⊢
        omega

end Sys2Proof.Machine
end

