-- ==== Sys2Proof/Laws/PerInstr.lean ====
section
/-! SUPPORT. The family `EncodedForm` of statements about every instruction's encoding, one lemma for each
instruction. -/

namespace Sys2Proof.Laws.EncodedForm

/-- An encoding has the operand bytes its header asks for (R90), and RSVD is zero (R91). -/
def Statement (i : Instr) : Prop :=
  ∀ (p : Params) (t : Transaction), i.wellFormed p = true → encode i = some t →
    i.isHostCommand = true ∧ t.data.length = portOperandLength t.header ∧ headerRsvd t.header = 0

theorem init (ck : Bool) (bitrate : Word) : Statement (.init ck bitrate) := by
  intro p t _ h
  simp only [encode, Option.some.injEq] at h
  subst h
  exact ⟨rfl, by simp [portOperandLength, headerOpc_headerOf, HostOp.ofOpc, HostOp.operandLength, wordBytes],
    headerRsvd_headerOf _ _ _⟩

theorem tick : Statement .tick := by
  intro p t _ h
  simp only [encode, Option.some.injEq] at h
  subst h
  exact ⟨rfl, by decide, by decide⟩

theorem enqueue (m : List Byte) : Statement (.enqueue m) := by
  intro p t hw h
  simp only [Instr.wellFormed, messageFitsLen, decide_eq_true_eq] at hw
  simp only [encode, Option.some.injEq] at h
  subst h
  refine ⟨rfl, ?_, headerRsvd_headerOf _ _ _⟩
  simp [portOperandLength, headerOpc_headerOf, HostOp.ofOpc, HostOp.operandLength, headerArg_headerOf]
  omega

theorem getMessage : Statement .getMessage := by
  intro p t _ h
  simp only [encode, Option.some.injEq] at h
  subst h
  exact ⟨rfl, by decide, by decide⟩

theorem setHandler (hid : Half) : Statement (.setHandler hid) := by
  intro p t _ h
  simp only [encode, Option.some.injEq] at h
  subst h
  exact ⟨rfl, by simp [portOperandLength, headerOpc_headerOf, HostOp.ofOpc, HostOp.operandLength],
    headerRsvd_headerOf _ _ _⟩

theorem checksum (s : List Byte) : Statement (.checksum s) := fun _ _ _ h => by simp [encode] at h

theorem consumeByte (b : Byte) : Statement (.consumeByte b) := fun _ _ _ h => by simp [encode] at h

theorem deliver (s : List Byte) : Statement (.deliver s) := fun _ _ _ h => by simp [encode] at h

theorem enqueueDiag (m : List Byte) : Statement (.enqueueDiag m) := fun _ _ _ h => by simp [encode] at h

theorem pumpOneByte : Statement .pumpOneByte := fun _ _ _ h => by simp [encode] at h

end Sys2Proof.Laws.EncodedForm
end

