-- ==== Sys2Proof/Laws/Receive.lean ====
section
/-! SUPPORT. CONSUME_BYTE in terms of the frame in progress, one lemma for each of its cases (R121 to R126). -/

namespace Sys2Proof.Machine

/-! ## The frame in progress -/

theorem FrameSoFar.index {s : State} {l : List Byte} (h : FrameSoFar s l) : s.rxI = l.length := h.1

theorem FrameSoFar.load {s : State} {l : List Byte} (h : FrameSoFar s l) {k : Nat} (hk : k < l.length) :
    s.rxLoad k = .ok l[k] := (rxSlice_eq_ok.mp h.2).2 k hk

/-- A state with the same RX_BUF, RX_I and parameters has the same frame in progress. -/
theorem FrameSoFar.congr {s t : State} {l : List Byte} (h : FrameSoFar s l) (hi : t.rxI = s.rxI)
    (hb : t.rxBuf = s.rxBuf) (hp : t.params = s.params) : FrameSoFar t l :=
  ⟨hi.trans h.1, by simpa only [State.rxSlice, hb, hp] using h.2⟩

/-- The frame in progress is empty exactly at RX_I = 0. -/
theorem frameSoFar_nil {s : State} : FrameSoFar s [] ↔ s.rxI = 0 :=
  ⟨fun h => h.1, fun h => ⟨h, rfl⟩⟩

/-- Step 1 of CONSUME_BYTE extends the bytes of the frame (R121). -/
theorem FrameSoFar.stored {s : State} {l : List Byte} (h : FrameSoFar s l) (b : Byte) (hi : s.rxI < s.params.C) :
    (storedState s b).rxSlice (l.length + 1) = .ok (l ++ [b]) := by
  refine rxSlice_eq_ok.mpr ⟨by simp, fun j hj => ?_⟩
  rcases Nat.lt_or_ge j l.length with hlt | hge
  · rw [stored_load_other b (by rw [h.1]; omega), h.load hlt, List.getElem_append_left hlt]
  · have hjl : j = l.length := by simp at hj; omega
    subst hjl
    have := stored_load_self b hi
    rw [h.1] at this
    simpa using this

/-- A shorter slice is the beginning of a longer one. -/
theorem rxSlice_append {s : State} {l r : List Byte} (h : s.rxSlice (l.length + r.length) = .ok (l ++ r)) :
    s.rxSlice l.length = .ok l := by
  obtain ⟨-, h2⟩ := rxSlice_eq_ok.mp h
  refine rxSlice_eq_ok.mpr ⟨rfl, fun j hj => ?_⟩
  rw [h2 j (by simp; omega), List.getElem_append_left hj]

/-- The boundary test reads the frame's last byte (R84, R121). -/
theorem FrameSoFar.isBoundary {s : State} {l : List Byte} (h : FrameSoFar s l) (b : Byte) :
    isBoundary (storedState s b) s.rxI b
      = .ok (decide (l.getLast? = some s.params.termA ∧ b = s.params.termB)) := by
  unfold Sys2Proof.Machine.isBoundary
  rcases List.eq_nil_or_concat l with rfl | ⟨p, a, rfl⟩
  · simp [h.1]
  · have hi : s.rxI = p.length + 1 := by rw [h.1]; simp
    have ha : (storedState s b).rxLoad (s.rxI - 1) = .ok a := by
      rw [stored_load_other b (by omega), show s.rxI - 1 = p.length by omega]
      have := h.load (k := p.length) (by simp)
      simpa using this
    by_cases hb : b = s.params.termB
    · have hc : 0 < s.rxI ∧ b = (storedState s b).params.termB := ⟨by omega, hb⟩
      rw [if_pos hc]
      simp only [bind, Except.bind, ha]
      simp [storedState, hb, Bool.beq_eq_decide_eq]
    · have hc : ¬(0 < s.rxI ∧ b = (storedState s b).params.termB) := fun hc => hb hc.2
      rw [if_neg hc]
      simp [hb]

/-! ## The cases of CONSUME_BYTE -/

/-- A byte that ends no frame and does not fill the buffer (R121). -/
theorem consumeByte_extends {s : State} {l : List Byte} {b : Byte} (h : FrameSoFar s l) (hi : l.length + 1 < s.params.C)
    (hb : ¬(l.getLast? = some s.params.termA ∧ b = s.params.termB)) :
    consumeByte b s = .ok { storedState s b with rxI := s.rxI + 1 } ∧
      FrameSoFar { storedState s b with rxI := s.rxI + 1 } (l ++ [b]) := by
  have hlt : s.rxI < s.params.C := by rw [h.1]; omega
  have hcap : reachesCapacity (storedState s b).params s.rxI = false := by
    simp [reachesCapacity, storedState, h.1]; omega
  refine ⟨?_, by simp [h.1], ?_⟩
  · unfold consumeByte
    simp only [bind, Except.bind, rxStore_storedState b hlt, h.isBoundary b, hb, decide_false, Bool.false_eq_true,
      if_false, hcap]
  · rw [List.length_append]
    exact h.stored b hlt

/-- A byte that ends no frame and fills the buffer (R125). -/
theorem consumeByte_overflows {s : State} {l : List Byte} {b : Byte} (h : FrameSoFar s l)
    (hi : l.length + 1 = s.params.C) (hb : ¬(l.getLast? = some s.params.termA ∧ b = s.params.termB)) :
    consumeByte b s = enqueueDiag s.params.overflowNotice { storedState s b with rxI := 0, ovfTick := true } := by
  have hlt : s.rxI < s.params.C := by rw [h.1]; omega
  have hcap : reachesCapacity (storedState s b).params s.rxI = true := by
    simp [reachesCapacity, storedState, h.1]; omega
  unfold consumeByte
  simp only [bind, Except.bind, rxStore_storedState b hlt, h.isBoundary b, hb, decide_false, Bool.false_eq_true,
    if_false, hcap, if_true]
  rfl

/-- A boundary: the frame is closed and RX_I returns to 0 (R121 step 2). -/
theorem consumeByte_boundary {s : State} {l : List Byte} (h : FrameSoFar s (l ++ [s.params.termA]))
    (hlt : s.rxI < s.params.C) :
    consumeByte s.params.termB s
      = (closeFrame s.rxI (storedState s s.params.termB)).map fun t => { t with rxI := 0 } := by
  unfold consumeByte
  simp only [bind, Except.bind, rxStore_storedState _ hlt, h.isBoundary _, List.getLast?_concat, and_self, decide_true,
    if_true]
  cases closeFrame s.rxI (storedState s s.params.termB) <;> rfl

/-- Closing a frame on the unchecked path delivers the bytes before TERM_A (R124, R126). -/
theorem closeFrame_unchecked {s : State} {p : List Byte} {a : Byte} (hp : s.rxSlice (p.length + 1) = .ok (p ++ [a]))
    (hck : s.cfgCk = false ∨ p.length ≤ 1) : closeFrame (p.length + 1) s = deliver p s := by
  have hc : checkedPath s.cfgCk (p.length + 1) = false := by
    rcases hck with h | h
    · simp [checkedPath, h]
    · simp [checkedPath]; omega
  have hs : s.rxSlice p.length = .ok p := rxSlice_append (r := [a]) hp
  simp only [closeFrame, hc, Bool.false_eq_true, if_false, Nat.add_sub_cancel, hs, bind, Except.bind]

/-- Closing a frame on the checked path compares the byte before TERM_A with the payload's checksum (R123). -/
theorem closeFrame_checked {s : State} {p : List Byte} {rx a : Byte}
    (hp : s.rxSlice (p.length + 2) = .ok (p ++ [rx, a])) (hck : s.cfgCk = true) (hne : p ≠ []) :
    closeFrame (p.length + 2) s = if checksum p = rx then deliver p s else reportMismatch p rx s := by
  have hpos := List.length_pos_iff.mpr hne
  have hc : checkedPath s.cfgCk (p.length + 2) = true := by simp [checkedPath, hck]; omega
  have hs : s.rxSlice p.length = .ok p := rxSlice_append (r := [rx, a]) hp
  have hr : s.rxLoad p.length = .ok rx := by
    have := (rxSlice_eq_ok.mp hp).2 p.length (by simp)
    simpa using this
  simp only [closeFrame, hc, if_true, Nat.add_sub_cancel, hs, hr, bind, Except.bind]

/-- A mismatch's three diagnostics from a good queue: they change `slots`, `qent` and `slotNext` at most, and append
what each enqueue accepts (R123, R133). -/
theorem reportMismatch_good {s : State} (p : List Byte) (rx : Byte) (h : TxGood s) :
    ∃ mem q n, reportMismatch p rx s = .ok { s with slots := mem, qent := q, slotNext := n } ∧
      TxGood { s with slots := mem, qent := q, slotNext := n } ∧
      ∀ ms, Queued s ms → Queued { s with slots := mem, qent := q, slotNext := n }
        (afterDiag s (afterDiag s (afterDiag s ms s.params.badckNotice) (echoDiag p)) (ckDiag s.params.ckFormat rx)) := by
  obtain ⟨m1, q1, n1, h1, g1, a1⟩ := enqueueDiag_good s.params.badckNotice h
  obtain ⟨m2, q2, n2, h2, g2, a2⟩ := enqueueDiag_good (echoDiag p) g1
  obtain ⟨m3, q3, n3, h3, g3, a3⟩ := enqueueDiag_good (ckDiag s.params.ckFormat rx) g2
  refine ⟨m3, q3, n3, ?_, g3, fun ms hms => a3 _ (a2 _ (a1 _ hms))⟩
  simp only [reportMismatch, bind, Except.bind, h1, h2]
  exact h3

end Sys2Proof.Machine
end

