-- ==== Sys2Proof/Laws/Step.lean ====
section
/-! SUPPORT. What each operation, and so a step, can do from any state, good or not: one inversion lemma each. -/

namespace Sys2Proof.Machine

/-! ## Operations -/

/-- Everything an accepted or refused enqueue can do. -/
theorem enqueue_eq_ok {m : List Byte} {s : State} {r : Status × State} (h : enqueue m s = .ok r) :
    ∃ mem q n, r = (enqueueStatus s m, { s with slots := mem, qent := q, slotNext := n }) ∧
      (MemoryInv s → MemoryInv { s with slots := mem, qent := q, slotNext := n }) := by
  by_cases hst : enqueueStatus s m = .ok
  · have hm := (enqueueStatus_eq_ok.mp hst).2
    unfold enqueue at h
    simp only [hst, State.slotWrite, slotBase, bind, Except.bind] at h
    by_cases hn : s.slotNext < s.params.Q
    · obtain ⟨mem, h1, -, -, h4, h5⟩ :=
        Memory.storeRange_spec (base := s.slotNext * s.params.C) (size := s.params.C) m s.slots 0 (by omega)
      simp only [hn, if_true, h1, Except.ok.injEq] at h
      refine ⟨mem, s.qent ++ [⟨s.slotNext, m.length⟩], (s.slotNext + 1) % s.params.Q, by rw [hst, ← h], fun hi => ?_⟩
      exact accepted_memoryInv (m := m) hi hn hm (h4 hi.slotsWf) (by simpa using h5)
    · simp [hn] at h
  · rw [enqueue_refused hst] at h
    exact ⟨s.slots, s.qent, s.slotNext, (Except.ok.inj h).symm, id⟩

/-- Everything ENQUEUE_DIAG can do (R133). -/
theorem enqueueDiag_cases {m : List Byte} {s t : State} (h : enqueueDiag m s = .ok t) :
    ∃ mem q n, t = { s with slots := mem, qent := q, slotNext := n } ∧ (MemoryInv s → MemoryInv t) := by
  unfold enqueueDiag at h
  cases hr : enqueue m s with
  | error f => simp [hr, bind, Except.bind] at h
  | ok r =>
    simp only [hr, bind, Except.bind, Except.ok.injEq] at h
    obtain ⟨mem, q, n, rfl, h2⟩ := enqueue_eq_ok hr
    subst h
    exact ⟨mem, q, n, rfl, h2⟩

/-- The state DELIVER(p) leaves, with p in the memory `mem` (R132). -/
def deliveredState (s : State) (p : List Byte) (mem : Memory) : State :=
  { s with msgLen := p.length, msgBuf := mem, deliv := s.deliv ++ deliveryEvents s p, ready := true }

/-- Everything DELIVER can do (R132). -/
theorem deliver_eq_ok {p : List Byte} {s t : State} (h : deliver p s = .ok t) :
    ∃ mem, t = deliveredState s p mem ∧ (MemoryInv s → MemoryInv t) := by
  rw [deliver_eq] at h
  cases hr : Memory.storeRange s.msgBuf 0 (s.params.C - 2) 0 p with
  | error f => simp [hr, Except.map] at h
  | ok mem =>
    simp only [hr, Except.map, Except.ok.injEq] at h
    refine ⟨mem, h.symm, fun hi => ?_⟩
    have hle : p.length ≤ s.params.C - 2 := by
      rcases eq_or_ne p [] with rfl | hne
      · simp
      · simpa using Memory.storeRange_bound hr hne
    obtain ⟨m', h1, -, -, h4, h5⟩ := Memory.storeRange_spec (base := 0) (size := s.params.C - 2) p s.msgBuf 0 (by omega)
    obtain rfl : m' = mem := Except.ok.inj (h1.symm.trans hr)
    subst h
    refine ⟨hi.rxWf, h4 hi.msgWf, hi.slotsWf, hi.rxWithin, fun c hc => ?_, hi.slotsWithin⟩
    rcases h5 c hc with hc | hc
    · exact hi.msgWithin c hc
    · exact Nat.lt_of_lt_of_le hc.2 (by simpa using hle)

/-- Everything a mismatch report can do. -/
theorem reportMismatch_eq_ok {p : List Byte} {rx : Byte} {s t : State} (h : reportMismatch p rx s = .ok t) :
    ∃ mem q n, t = { s with slots := mem, qent := q, slotNext := n } ∧ (MemoryInv s → MemoryInv t) := by
  unfold reportMismatch at h
  cases h1 : enqueueDiag s.params.badckNotice s with
  | error f => simp [h1, bind, Except.bind] at h
  | ok s1 =>
    cases h2 : enqueueDiag (echoDiag p) s1 with
    | error f => simp [h1, h2, bind, Except.bind] at h
    | ok s2 =>
      simp only [h1, h2, bind, Except.bind] at h
      obtain ⟨_, _, _, rfl, g1⟩ := enqueueDiag_cases h1
      obtain ⟨_, _, _, rfl, g2⟩ := enqueueDiag_cases h2
      obtain ⟨m, q, n, rfl, g3⟩ := enqueueDiag_cases h
      exact ⟨m, q, n, rfl, fun hi => g3 (g2 (g1 hi))⟩

/-- Everything the end of a frame can do: a delivery, or diagnostics (R121 step 2). -/
theorem closeFrame_eq_ok {i : Nat} {s t : State} (h : closeFrame i s = .ok t) :
    (MemoryInv s → MemoryInv t) ∧
      ((∃ p mem, t = deliveredState s p mem) ∨
        ∃ mem q n, t = { s with slots := mem, qent := q, slotNext := n }) := by
  unfold closeFrame at h
  split_ifs at h with hck
  · cases hr : s.rxLoad (i - 2) with
    | error f => simp [hr, bind, Except.bind] at h
    | ok rx =>
      cases hp : s.rxSlice (i - 2) with
      | error f => simp [hr, hp, bind, Except.bind] at h
      | ok p =>
        simp only [hr, hp, bind, Except.bind] at h
        split_ifs at h
        · obtain ⟨mem, rfl, g⟩ := deliver_eq_ok h
          exact ⟨g, .inl ⟨p, mem, rfl⟩⟩
        · obtain ⟨m, q, n, rfl, g⟩ := reportMismatch_eq_ok h
          exact ⟨g, .inr ⟨m, q, n, rfl⟩⟩
  · cases hp : s.rxSlice (i - 1) with
    | error f => simp [hp, bind, Except.bind] at h
    | ok p =>
      simp only [hp, bind, Except.bind] at h
      obtain ⟨mem, rfl, g⟩ := deliver_eq_ok h
      exact ⟨g, .inl ⟨p, mem, rfl⟩⟩

/-- Everything CONSUME_BYTE can do: the byte is stored, and a payload is delivered, or RX_I, OVF_TICK and the queue
change at most (R121). -/
theorem consumeByte_eq_ok {b : Byte} {s t : State} (h : consumeByte b s = .ok t) :
    (MemoryInv s → MemoryInv t) ∧
      ((∃ rx p mem, t = { deliveredState s p mem with rxBuf := rx, rxI := 0 }) ∨
        ∃ rx i ovf mem q n,
          t = { s with rxBuf := rx, rxI := i, ovfTick := ovf, slots := mem, qent := q, slotNext := n }) := by
  unfold consumeByte at h
  cases hs : s.rxStore s.rxI b with
  | error f => simp [hs, bind, Except.bind] at h
  | ok s1 =>
    obtain ⟨hi, rfl⟩ := rxStore_eq_ok.mp hs
    have g0 : MemoryInv s → MemoryInv (storedState s b) := fun g => stored_memoryInv b g hi
    change MemoryInv s → MemoryInv { s with rxBuf := Memory.poke s.rxBuf s.rxI b } at g0
    cases hb : isBoundary { s with rxBuf := Memory.poke s.rxBuf s.rxI b } s.rxI b with
    | error f => simp [hs, hb, bind, Except.bind] at h
    | ok v =>
      simp only [hs, hb, bind, Except.bind] at h
      cases v with
      | true =>
        simp only [if_true] at h
        cases hc : closeFrame s.rxI { s with rxBuf := Memory.poke s.rxBuf s.rxI b } with
        | error f => simp [hc] at h
        | ok s2 =>
          simp only [hc, Except.ok.injEq] at h
          obtain ⟨g, hcase⟩ := closeFrame_eq_ok hc
          refine ⟨fun hm => ?_, ?_⟩
          · have := g (g0 hm)
            subst h
            exact ⟨this.rxWf, this.msgWf, this.slotsWf, this.rxWithin, this.msgWithin, this.slotsWithin⟩
          · rcases hcase with ⟨p, mem, rfl⟩ | ⟨mem, q, n, rfl⟩
            · exact .inl ⟨_, p, mem, h.symm⟩
            · exact .inr ⟨_, 0, s.ovfTick, mem, q, n, h.symm⟩
      | false =>
        simp only [Bool.false_eq_true, if_false] at h
        split_ifs at h with hcap
        · obtain ⟨mem, q, n, rfl, g⟩ := enqueueDiag_cases h
          refine ⟨fun hm => g ?_, .inr ⟨_, 0, true, mem, q, n, rfl⟩⟩
          have := g0 hm
          exact ⟨this.rxWf, this.msgWf, this.slotsWf, this.rxWithin, this.msgWithin, this.slotsWithin⟩
        · simp only [Except.ok.injEq] at h
          refine ⟨fun hm => ?_, .inr ⟨_, s.rxI + 1, s.ovfTick, s.slots, s.qent, s.slotNext, h.symm⟩⟩
          have := g0 hm
          subst h
          exact ⟨this.rxWf, this.msgWf, this.slotsWf, this.rxWithin, this.msgWithin, this.slotsWithin⟩

/-- Everything PUMP_ONE_BYTE can do: nothing, or one byte to the channel (R156, R160). -/
theorem pumpOneByte_eq_ok {s t : State} (h : pumpOneByte s = .ok t) :
    t = s ∨ ∃ e rest b, s.qent = e :: rest ∧ s.chCap ≠ 0 ∧
      t = advanceCursor rest (txTotal s e) { s with chOut := s.chOut ++ [b] } := by
  unfold pumpOneByte at h
  split at h
  · exact .inl (Except.ok.inj h).symm
  · next e rest hq =>
    split_ifs at h with hcap hneg
    · exact .inl (Except.ok.inj h).symm
    · cases hb : txByte s e (txTotal s e - s.txOff) with
      | error f => simp [hb, bind, Except.bind] at h
      | ok b =>
        cases hw : chWrite s b with
        | error f => simp [hb, hw, bind, Except.bind] at h
        | ok s1 =>
          simp only [hb, hw, bind, Except.bind, Except.ok.injEq] at h
          obtain ⟨-, rfl⟩ := chWrite_eq_ok.mp hw
          exact .inr ⟨e, rest, b, hq, hcap, h.symm⟩

/-- An advance of the cursor changes the queue and the cursor at most. -/
theorem advanceCursor_eq (rest : List QEntry) (total : Nat) (s : State) :
    ∃ q off tot, advanceCursor rest total s = { s with qent := q, txOff := off, txTot := tot } := by
  unfold advanceCursor
  split_ifs
  · exact ⟨rest, 0, 0, rfl⟩
  · exact ⟨s.qent, s.txOff + 1, total, rfl⟩

/-! ## Whose turn it is -/

/-- The step at the sequencer's turn. -/
theorem step_of_acts {s u : State} (h : SequencerActs s u) : step s = sequencerTurn u := by
  rcases h with ⟨h, rfl⟩ | ⟨m, h, rfl⟩ <;> simp [step, turn, h]

/-- The sequencer acts on the state itself, a pass of the channel taken off. -/
theorem SequencerActs.eq {s u : State} (h : SequencerActs s u) : u = { s with chanQ := u.chanQ } := by
  rcases h with ⟨h, rfl⟩ | ⟨m, h, rfl⟩ <;> rfl

/-- A step is the sequencer's turn or a move of the channel (R65, R228). -/
theorem step_cases (s : State) :
    (∃ u, SequencerActs s u ∧ step s = sequencerTurn u) ∨
      (∃ moves bs, s.chanQ = .append bs :: moves ∧ step s = .next { s with chanQ := moves, chIn := s.chIn ++ bs }) ∨
      (∃ moves n, s.chanQ = .setCap n :: moves ∧ step s = .next { s with chanQ := moves, chCap := n }) := by
  rcases h : s.chanQ with _ | ⟨m, moves⟩
  · exact .inl ⟨s, .inl ⟨h, rfl⟩, by simp [step, turn, h]⟩
  · cases m with
    | append bs => exact .inr (.inl ⟨moves, bs, rfl, by simp [step, turn, h]⟩)
    | setCap n => exact .inr (.inr ⟨moves, n, rfl, by simp [step, turn, h]⟩)
    | pass => exact .inl ⟨_, .inr ⟨moves, h, rfl⟩, by simp [step, turn, h]⟩

theorem sequencerTurn_idle {s : State} (h : s.phase = .idle) : sequencerTurn s = idleTurn s := by
  unfold sequencerTurn
  rw [h]

theorem sequencerTurn_rx {s : State} (h : s.phase = .rx) : sequencerTurn s = rxTurn s := by
  unfold sequencerTurn
  rw [h]

theorem sequencerTurn_pump {s : State} (h : s.phase = .pump) : sequencerTurn s = pumpTurn s := by
  unfold sequencerTurn
  rw [h]

/-- A run of n + 1 steps is a step and a run of n. -/
theorem run_succ {s t : State} (n : Nat) (h : step s = .next t) :
    Sys2Proof.core.run (n + 1) s = Sys2Proof.core.run n t := by
  have hs : Sys2Proof.core.step s = .next t := h
  simp only [Host.Core.run, hs]

/-- What a decoded transaction is: a host command. -/
theorem decode_isHostCommand {t : Transaction} {i : Instr} (h : decode t = .ok i) : i.isHostCommand = true := by
  rcases decode_eq_ok.mp h with ⟨_, _, _, _, _, _, rfl⟩ | ⟨_, _, rfl⟩ | ⟨_, _, rfl⟩ | ⟨_, _, rfl⟩ | ⟨_, _, rfl⟩ <;> rfl

/-- Everything the dispatch of a transaction at PHASE = IDLE can do (R180). -/
theorem command_cases {c : Transaction} {s t : State} (h : command c s = .next t) :
    (∃ st, t = s.answer st ∧ (decode c ≠ .ok .tick ∨ s.initialized = false)) ∨
      (∃ ck bitrate, decode c = .ok (.init ck bitrate) ∧ t = (s.initialise ck bitrate).answer .ok) ∨
      (decode c = .ok .tick ∧ s.initialized = true ∧ t = s.enterTick) ∨
      (∃ m st mem q n, decode c = .ok (.enqueue m) ∧ s.initialized = true ∧
        enqueue m s = .ok (st, { s with slots := mem, qent := q, slotNext := n }) ∧ st = enqueueStatus s m ∧
        (MemoryInv s → MemoryInv { s with slots := mem, qent := q, slotNext := n }) ∧
        t = ({ s with slots := mem, qent := q, slotNext := n } : State).answer st) ∨
      (∃ d, decode c = .ok .getMessage ∧ s.initialized = true ∧ s.msgRead s.msgLen = .ok d ∧
        t = s.respond .ok false s.msgLen d) ∨
      (∃ hid, decode c = .ok (.setHandler hid) ∧ s.initialized = true ∧
        t = ({ s with handlerValid := true, handlerId := hid } : State).answer .ok) := by
  unfold command at h
  cases hd : decode c with
  | error r =>
    simp only [hd, Host.Outcome.next.injEq] at h
    exact .inl ⟨.illegalCommand, h.symm, .inl (by simp)⟩
  | ok i =>
    simp only [hd] at h
    have hh := decode_isHostCommand hd
    cases i with
    | init ck bitrate =>
      simp only [exec, execInit] at h
      obtain ⟨-, hc⟩ := hostCommand_eq_next.mp h
      rcases hc with ⟨h1, -⟩ | ⟨-, h2⟩
      · simp at h1
      · exact .inr (.inl ⟨ck, bitrate, rfl, (Except.ok.inj h2).symm⟩)
    | tick =>
      simp only [exec, execTick] at h
      obtain ⟨-, hc⟩ := hostCommand_eq_next.mp h
      rcases hc with ⟨-, h1, h2⟩ | ⟨h1, h2⟩
      · exact .inl ⟨_, h2, .inr h1⟩
      · exact .inr (.inr (.inl ⟨rfl, h1 rfl, (Except.ok.inj h2).symm⟩))
    | enqueue m =>
      simp only [exec, execEnqueue] at h
      obtain ⟨-, hc⟩ := hostCommand_eq_next.mp h
      rcases hc with ⟨-, h1, h2⟩ | ⟨h1, h2⟩
      · exact .inl ⟨_, h2, .inr h1⟩
      · unfold enqueueCmd at h2
        cases hr : enqueue m s with
        | error f => simp [hr, bind, Except.bind] at h2
        | ok r =>
          simp only [hr, bind, Except.bind, Except.ok.injEq] at h2
          obtain ⟨mem, q, n, rfl, g⟩ := enqueue_eq_ok hr
          exact .inr (.inr (.inr (.inl ⟨m, _, mem, q, n, rfl, h1 rfl, hr, rfl, g, h2.symm⟩)))
    | getMessage =>
      simp only [exec, execGetMessage] at h
      obtain ⟨-, hc⟩ := hostCommand_eq_next.mp h
      rcases hc with ⟨-, h1, h2⟩ | ⟨h1, h2⟩
      · exact .inl ⟨_, h2, .inr h1⟩
      · unfold getMessage at h2
        cases hr : s.msgRead s.msgLen with
        | error f => simp [hr, bind, Except.bind] at h2
        | ok d =>
          simp only [hr, bind, Except.bind, Except.ok.injEq] at h2
          exact .inr (.inr (.inr (.inr (.inl ⟨d, rfl, h1 rfl, rfl, h2.symm⟩))))
    | setHandler hid =>
      simp only [exec, execSetHandler] at h
      obtain ⟨-, hc⟩ := hostCommand_eq_next.mp h
      rcases hc with ⟨-, h1, h2⟩ | ⟨h1, h2⟩
      · exact .inl ⟨_, h2, .inr h1⟩
      · exact .inr (.inr (.inr (.inr (.inr ⟨hid, rfl, h1 rfl, (Except.ok.inj h2).symm⟩))))
    | checksum _ => simp [Instr.isHostCommand] at hh
    | consumeByte _ => simp [Instr.isHostCommand] at hh
    | deliver _ => simp [Instr.isHostCommand] at hh
    | enqueueDiag _ => simp [Instr.isHostCommand] at hh
    | pumpOneByte => simp [Instr.isHostCommand] at hh

/-- Everything the sequencer's turn can do (R181). -/
theorem sequencerTurn_cases {s t : State} (h : sequencerTurn s = .next t) :
    (s.phase = .idle ∧ s.hostQ = [] ∧ t = s) ∨
      (s.phase = .idle ∧ ∃ c rest, s.hostQ = c :: rest ∧ command c { s with hostQ := rest } = .next t) ∨
      (s.phase = .rx ∧ rxContinues s = true ∧ ∃ b rest, s.chIn = b :: rest ∧
        consumeByte b { s with chIn := rest } = .ok t) ∨
      (s.phase = .rx ∧ rxContinues s = false ∧ t = s.endRx) ∨
      (s.phase = .pump ∧ ∃ s1, pumpOneByte s = .ok s1 ∧ t = finishTick s1) := by
  unfold sequencerTurn at h
  split at h
  · next hp =>
    unfold idleTurn at h
    split at h
    · next hq => exact .inl ⟨hp, hq, (Host.Outcome.next.inj h).symm⟩
    · next c rest hq => exact .inr (.inl ⟨hp, c, rest, hq, h⟩)
  · next hp =>
    unfold rxTurn chRead at h
    split_ifs at h with hc
    · cases hci : s.chIn with
      | nil => simp [hci] at h
      | cons b rest =>
        simp only [hci, exec] at h
        exact .inr (.inr (.inl ⟨hp, hc, b, rest, rfl, outcome_eq_next.mp h⟩))
    · exact .inr (.inr (.inr (.inl ⟨hp, by simpa using hc, (Host.Outcome.next.inj h).symm⟩)))
  · next hp =>
    unfold pumpTurn exec execPumpOneByte at h
    cases hr : pumpOneByte s with
    | error f => simp [hr] at h
    | ok s1 =>
      simp only [hr, outcome_ok, Host.Outcome.next.injEq] at h
      exact .inr (.inr (.inr (.inr ⟨hp, s1, rfl, h.symm⟩)))

end Sys2Proof.Machine
end

