-- ==== Sys2Proof/Tests/Slice0.lean ====
section
/-! SUPPORT. The model's own tests, and for each statement with hypotheses a state and operands that meet them. The
expected results are those of spec/95_test_vectors.md, cited by the vector's name, or of the rule cited. -/

namespace Sys2Proof.Tests

open Sys2Proof.Machine

/-! ## Small states under EX1 (R10) -/

/-- The cells of a byte string written from index `base` on. -/
def cells (base : Nat) : List Byte → Memory
  | [] => []
  | b :: bs => (base, b) :: cells (base + 1) bs

/-- Initialised, between commands, everything empty. -/
def idle (ck : Bool) : State := { State.powerOn Params.ex1 with initialized := true, cfgCk := ck }

/-- In a receive loop, with a frame in progress and inbound bytes. -/
def receiving (ck : Bool) (frame inbound : List Byte) : State :=
  { idle ck with phase := .rx, rxBuf := cells 0 frame, rxI := frame.length, chIn := inbound }

/-- One queued message in slot 0, the cursor, and a write capacity of 1. -/
def sending (ck : Bool) (m : List Byte) (off tot : Nat) : State :=
  { idle ck with slots := cells 0 m, qent := [⟨0, m.length⟩], slotNext := 1, txOff := off, txTot := tot, chCap := 1 }

/-- Handler 7 registered. -/
def handled (s : State) : State := { s with handlerValid := true, handlerId := 7 }

/-- A Message held. -/
def holding (m : List Byte) (s : State) : State := { s with msgLen := m.length, msgBuf := cells 0 m }

/-- A full queue of three one-byte messages. -/
def full : State :=
  { idle false with
    slots := [(0, 0x61), (8, 0x62), (16, 0x63)], qent := [⟨0, 1⟩, ⟨1, 1⟩, ⟨2, 1⟩], slotNext := 0 }

/-- A transaction waiting at the host port. -/
def offered (t : Transaction) (s : State) : State := { s with hostQ := [t] }

/-- The transaction of a TICK: 02 00 00 00 (R95). -/
def tickWord : Transaction := ⟨0x00000002, []⟩

/-- "hi", "ab", "BAD", "!ab", "!0", "OVF", "ABCDEF", "ABCDEFGH" (R19). -/
def hi : List Byte := [0x68, 0x69]
/-- See `hi`. -/
def ab : List Byte := [0x61, 0x62]
/-- See `hi`. -/
def abcdef : List Byte := [0x41, 0x42, 0x43, 0x44, 0x45, 0x46]
/-- See `hi`. -/
def abcdefgh : List Byte := abcdef ++ [0x47, 0x48]

/-! ## WellFormed refuses -/

theorem enqueue_wellFormed_replicate (n : Nat) :
    Instr.wellFormed Params.ex1 (.enqueue (List.replicate n 0)) = decide (n ≤ 65535) := by
  simp [Instr.wellFormed, messageFitsLen]

theorem test_enqueue_too_long_for_len : Instr.wellFormed Params.ex1 (.enqueue (List.replicate 65536 0)) = false :=
  (enqueue_wellFormed_replicate 65536).trans (by decide)

theorem test_enqueue_longest : Instr.wellFormed Params.ex1 (.enqueue (List.replicate 65535 0)) = true :=
  (enqueue_wellFormed_replicate 65535).trans (by decide)

theorem test_deliver_too_long : Instr.wellFormed Params.ex1 (.deliver (abcdef ++ [0x47])) = false := by decide

theorem test_deliver_longest : Instr.wellFormed Params.ex1 (.deliver abcdef) = true := by decide

/-! ## Decoding: words written from R94 to R98 and the vectors of sections 2.10 to 2.12 -/

theorem test_decode_init :
    decodeBytes [0x01, 0x01, 0x00, 0x00, 0x80, 0x25, 0x00, 0x00] = .ok (.init true 9600) ∧
    decodeBytes [0x01, 0x01, 0x00, 0x00, 0xFF, 0xFF, 0xFF, 0xFF] = .ok (.init true 0xFFFFFFFF) := by decide

theorem test_decode_tick : decodeBytes [0x02, 0x00, 0x00, 0x00] = .ok .tick := by decide

theorem test_decode_enqueue :
    decodeBytes [0x03, 0x00, 0x02, 0x00, 0x68, 0x69] = .ok (.enqueue hi) ∧
    decodeBytes [0x03, 0x00, 0x00, 0x00] = .ok (.enqueue []) := by decide

theorem test_decode_getMessage : decodeBytes [0x04, 0x00, 0x00, 0x00] = .ok .getMessage := by decide

theorem test_decode_setHandler :
    decodeBytes [0x05, 0x00, 0xFF, 0xFF] = .ok (.setHandler 0xFFFF) ∧
    decodeBytes [0x05, 0x00, 0x07, 0x00] = .ok (.setHandler 7) := by decide

/-- IL1 to IL5, and IL8 to IL10. -/
theorem test_illegal_headers :
    decode ⟨0x00000000, []⟩ = .error .unknownOpcode ∧ decode ⟨0x00000006, []⟩ = .error .unknownOpcode ∧
    decode ⟨0x000000FF, []⟩ = .error .unknownOpcode ∧ decode ⟨0x00000102, []⟩ = .error .reservedBits ∧
    decode ⟨0x00010002, []⟩ = .error .reservedBits ∧ decode ⟨0x00000104, []⟩ = .error .reservedBits ∧
    decode ⟨0x00000105, []⟩ = .error .reservedBits ∧ decode ⟨0x00008003, []⟩ = .error .reservedBits := by decide

/-- IL6, IL7, IL11 and EQ9. -/
theorem test_illegal_operands :
    decode ⟨0x00000201, [0, 0, 0, 0]⟩ = .error .reservedBits ∧
    decode ⟨0x00010001, [0, 0, 0, 0]⟩ = .error .reservedBits ∧
    decode ⟨0x00000001, []⟩ = .error .operandLength ∧ decode ⟨0x00020003, [0x68]⟩ = .error .operandLength := by decide

/-- The internal operations have no command encoding (R93). -/
theorem test_internal_operations_not_encoded :
    encode (.checksum ab) = none ∧ encode (.consumeByte 0) = none ∧ encode (.deliver ab) = none ∧
    encode (.enqueueDiag ab) = none ∧ encode .pumpOneByte = none := by decide

/-- The table's word of INIT with a BITRATE word of zeros, run as the first instruction after reset. -/
theorem test_first_step_after_reset :
    decodeTableWord 64 0x101 = some (.init true 0) ∧
    view (fun s => (s.initialized, s.cfgCk, s.responses)) (step (State.reset.withFetchWord 64 0x101))
      = some (true, true, [⟨0, []⟩]) := by decide

/-! ## One step of each instruction -/

/-- IN3: INIT during a partly sent frame. -/
theorem test_init_discards_queue :
    view (fun s => (s.qent, s.txOff, s.txTot, s.handlerValid, s.responses))
      (exec (.init false 9600) (handled (sending false hi 1 4))) = some ([], 0, 0, false, [⟨0, []⟩]) := by decide

/-- IN1, IN4: the configuration, and a partial frame discarded. -/
theorem test_init_configures :
    view (fun s => (s.cfgCk, s.cfgBitrate, s.rxI, s.msgLen))
      (exec (.init true 9600) { receiving false [0x68, 0x69, 0x0D] [] with phase := .idle })
        = some (true, 0x2580, 0, 0) := by decide

/-- NI1: TICK before INIT. -/
theorem test_tick_before_init :
    exec .tick (State.powerOn Params.ex1) = .next { State.powerOn Params.ex1 with responses := [⟨4, []⟩] } := by rfl

/-- R181: the entry of a TICK. -/
theorem test_tick_enters_rx :
    view (fun s => (s.phase, s.ovfTick, s.responses)) (exec .tick (idle true)) = some (.rx, false, []) := by decide

/-- EQ7, on a full ring less one. -/
theorem test_enqueue_wraps :
    view (fun s => (s.qent, s.slotNext, s.slots, s.responses))
      (exec (.enqueue [0x78]) { full with qent := [⟨1, 1⟩, ⟨2, 1⟩] })
        = some ([⟨1, 1⟩, ⟨2, 1⟩, ⟨0, 1⟩], 1, [(0, 0x78), (8, 0x62), (16, 0x63)], [⟨0, []⟩]) := by decide

/-- EQ4 and EQ6: QUEUE_FULL is tested first. -/
theorem test_enqueue_refusals :
    view (fun s => (s.qent, s.responses)) (exec (.enqueue abcdefgh) (idle false)) = some ([], [⟨2, []⟩]) ∧
    view (fun s => (s.qsize, s.responses)) (exec (.enqueue abcdefgh) full) = some (3, [⟨1, []⟩]) := by decide

/-- GM1 and GM2. -/
theorem test_getMessage :
    view (fun s => s.responses) (exec .getMessage (idle false)) = some [⟨0, []⟩] ∧
    view (fun s => s.responses) (exec .getMessage (holding hi (idle false))) = some [⟨0x00020000, hi⟩] := by decide

/-- SH2. -/
theorem test_setHandler :
    view (fun s => (s.handlerValid, s.handlerId, s.responses)) (exec (.setHandler 9) (handled (idle false)))
      = some (true, 9, [⟨0, []⟩]) := by decide

/-- CK2, CK6 and CK11. -/
theorem test_checksum :
    view (fun s => s.ckResult) (exec (.checksum ab) (idle false)) = some 0xC3 ∧
    view (fun s => s.ckResult) (exec (.checksum [0xFF, 0x01]) (idle false)) = some 0x00 ∧
    view (fun s => s.ckResult) (exec (.checksum [0x41, 0x42, 0x43, 0x44, 0x45]) (idle false)) = some 0x4F := by decide

/-- The last byte of RX13: a mismatch and its three diagnostics. -/
theorem test_consumeByte_mismatch :
    view (fun s => (s.rxI, s.ready, s.qent, s.slots)) (exec (.consumeByte 0x0A) (receiving true [0x61, 0x62, 0x00, 0x0D] []))
      = some (0, false, [⟨0, 3⟩, ⟨1, 3⟩, ⟨2, 2⟩],
          cells 0 [0x42, 0x41, 0x44] ++ cells 8 [0x21, 0x61, 0x62] ++ cells 16 [0x21, 0x30]) := by decide

/-- The last byte of RX4: an overflow at index C−1. -/
theorem test_consumeByte_overflow :
    view (fun s => (s.rxI, s.ovfTick, s.qent, s.slots))
      (exec (.consumeByte 0x48) (receiving false [0x41, 0x42, 0x43, 0x44, 0x45, 0x46, 0x47] []))
        = some (0, true, [⟨0, 3⟩], cells 0 [0x4F, 0x56, 0x46]) := by decide

/-- DL1. -/
theorem test_deliver :
    view (fun s => (s.msgLen, s.msgBuf, s.ready, s.deliv)) (exec (.deliver hi) (handled (idle false)))
      = some (2, cells 0 hi, true, [⟨7, hi⟩]) := by decide

/-- DL3: the empty payload replaces the Message. -/
theorem test_deliver_empty :
    view (fun s => (s.msgLen, s.ready, s.deliv)) (exec (.deliver []) (holding hi (idle false))) = some (0, true, []) := by
  decide

/-- DG5: a diagnostic dropped by a full queue. -/
theorem test_enqueueDiag_dropped : exec (.enqueueDiag [0x4F, 0x56, 0x46]) full = .next full := by rfl

/-- DG7: "!255" does not fit a slot of 4 bytes. -/
theorem test_enqueueDiag_too_long :
    view (fun s => s.qent) (exec (.enqueueDiag [0x21, 0x32, 0x35, 0x35]) (State.powerOn { Params.ex1 with C := 4 }))
      = some [] := by decide

/-- PU4: the checksum byte of "ab". -/
theorem test_pump_checksum :
    view (fun s => (s.chOut, s.txOff, s.txTot, s.qsize)) (exec .pumpOneByte (sending true ab 2 5))
      = some ([0xC3], 3, 5, 1) := by decide

/-- PU3: the last byte dequeues. -/
theorem test_pump_last_byte :
    view (fun s => (s.chOut, s.txOff, s.txTot, s.qsize)) (exec .pumpOneByte (sending false hi 3 4))
      = some ([0x0A], 0, 0, 0) := by decide

/-- P1 step 9 and P2 step 8: the bytes out. -/
theorem test_response_bytes :
    view (fun s => s.responseBytes) (exec .getMessage (holding hi (idle false)))
      = some [0x00, 0x00, 0x02, 0x00, 0x68, 0x69] ∧
    view (fun s => s.responseBytes) (exec (.enqueue [0x78]) full) = some [0x01, 0x00, 0x00, 0x00] := by decide

/-- A response cut short of its LEN bytes is none. -/
theorem test_response_read_back :
    Response.ofBytes [0x00, 0x00, 0x02, 0x00, 0x68, 0x69, 0x04] = some (⟨0x00020000, hi⟩, [0x04]) ∧
    Response.ofBytes [0x00, 0x00, 0x02, 0x00, 0x68] = none := by decide

/-! ## Good states, for the witnesses -/

theorem idle_inv (ck : Bool) : Inv (idle ck) := by cases ck <;> exact inv_of_check (by decide)

theorem full_inv : Inv full := inv_of_check (by decide)

theorem sending_inv : Inv (sending true ab 2 5) := inv_of_check (by decide)

theorem sending_fresh_inv : Inv (sending true ab 0 0) := inv_of_check (by decide)

theorem sending_last_inv : Inv (sending true ab 4 5) := inv_of_check (by decide)

theorem sending_queued (off tot : Nat) : Queued (sending true ab off tot) [ab] := .cons ⟨rfl, rfl⟩ .nil

theorem powerOn_inv : Inv (State.powerOn Params.ex1) := inv_of_check (by decide)

/-! ## Witnesses of the statements' hypotheses, clause by clause -/

/-- Lengths 0 and 65535; a message of exactly C bytes. -/
theorem witness_EnqueueEncodedUpToLenMax :
    ([] : List Byte).length ≤ 65535 ∧ (List.replicate 65535 (0 : Byte)).length ≤ 65535 ∧
    (abcdefgh.length ≤ 65535 ∧ (idle false).phase = .idle ∧ (idle false).initialized = true ∧
      (idle false).params.C ≤ abcdefgh.length ∧ (idle false).qsize ≠ (idle false).params.Q) :=
  ⟨by decide, List.length_replicate.le, by decide⟩

theorem witness_DecodeEncodeRoundTrip :
    (Instr.wellFormed Params.ex1 (.init true 0xFFFFFFFF) = true ∧ (Instr.init true 0xFFFFFFFF).isHostCommand = true) ∧
    (Instr.wellFormed Params.ex1 (.enqueue (List.replicate 65535 0)) = true ∧
      (Instr.enqueue (List.replicate 65535 0)).isHostCommand = true) :=
  ⟨by decide, test_enqueue_longest, rfl⟩

theorem witness_EncodeDecodeRoundTrip : decode ⟨0xFFFF0005, []⟩ = .ok (.setHandler 0xFFFF) := by decide

theorem witness_OpcodeMapUnambiguous :
    (HostOp.init.selects 0x00000101 = true ∧ HostOp.init.selects 0x00000101 = true) ∧
    decode ⟨0x00000002, []⟩ = .ok .tick := by decide

theorem witness_IllegalCommandsAnswered :
    decode ⟨0x00000006, []⟩ = .error .unknownOpcode ∧ decode ⟨0x00000102, []⟩ = .error .reservedBits ∧
    decode ⟨0x00000001, [0, 0, 0]⟩ = .error .operandLength := by decide

theorem witness_ResponseWordFields : (65535 : Nat) ≤ 65535 ∧ (0 : Nat) ≤ 65535 := by decide

theorem witness_ResponseBytesLittleEndian :
    (0 : Nat) < 4 ∧ (3 : Nat) < 4 ∧ GoodResponse ⟨0x00020000, hi⟩ ∧ GoodResponse ⟨0x00000004, []⟩ ∧
    ([] : List Byte).length ≤ 65535 ∧ (List.replicate 65535 (0 : Byte)).length ≤ 65535 :=
  ⟨by decide, by decide, ⟨by decide, by decide, by decide, by decide⟩, ⟨by decide, by decide, by decide, by decide⟩,
    by decide, List.length_replicate.le⟩

/-- With a pass of the channel, and without; a legal transaction and an illegal one. -/
theorem witness_StepRunsDecodedCommand :
    (SequencerActs (offered tickWord (idle false)) (offered tickWord (idle false)) ∧
      (offered tickWord (idle false)).phase = .idle ∧ (offered tickWord (idle false)).hostQ = [tickWord] ∧
      decode tickWord = .ok .tick) ∧
    (SequencerActs { offered ⟨6, []⟩ (idle false) with chanQ := [.pass] } (offered ⟨6, []⟩ (idle false)) ∧
      (idle false).phase = .idle ∧ (offered ⟨6, []⟩ (idle false)).hostQ = [⟨6, []⟩] ∧
      decode ⟨6, []⟩ = .error .unknownOpcode) :=
  ⟨⟨.inl ⟨rfl, rfl⟩, rfl, rfl, by decide⟩, .inr ⟨[], rfl, rfl⟩, rfl, rfl, by decide⟩

theorem witness_RxMicroStep :
    (SequencerActs (receiving false hi [0x0D]) (receiving false hi [0x0D]) ∧ (receiving false hi [0x0D]).phase = .rx ∧
      (receiving false hi [0x0D]).chIn = 0x0D :: [] ∧ (receiving false hi [0x0D]).ovfTick = false) ∧
    (SequencerActs (receiving false hi []) (receiving false hi []) ∧ (receiving false hi []).phase = .rx ∧
      (receiving false hi []).chIn = []) ∧
    (SequencerActs { receiving false [] hi with ovfTick := true } { receiving false [] hi with ovfTick := true } ∧
      (receiving false [] hi).phase = .rx ∧ (receiving false [] hi).params.stopRxAfterOverflow = true) :=
  ⟨⟨.inl ⟨rfl, rfl⟩, rfl, rfl, rfl⟩, ⟨.inl ⟨rfl, rfl⟩, rfl, rfl⟩, .inl ⟨rfl, rfl⟩, rfl, rfl⟩

theorem witness_PumpMicroStep :
    ∃ s v : State, SequencerActs s s ∧ s.phase = .pump ∧ exec .pumpOneByte s = .next v := by
  obtain ⟨v, hv⟩ := next_of_runs (show runs (exec .pumpOneByte { sending true ab 2 5 with phase := .pump }) = true by decide)
  exact ⟨_, v, .inl ⟨rfl, rfl⟩, rfl, hv⟩

theorem witness_ChannelMayStepAnytime :
    ({ idle false with chanQ := [.append hi] } : State).chanQ = .append hi :: [] ∧
    ({ idle false with chanQ := [.setCap 1] } : State).chanQ = .setCap 1 :: [] := ⟨rfl, rfl⟩

theorem witness_IdleSequencerWaits :
    SequencerActs (idle false) (idle false) ∧ (idle false).phase = .idle ∧ (idle false).hostQ = [] :=
  ⟨.inl ⟨rfl, rfl⟩, rfl, rfl⟩

theorem witness_NotInitializedAnswered :
    Instr.tick.isHostCommand = true ∧ (∀ ck bitrate, Instr.tick ≠ .init ck bitrate) ∧
    (State.powerOn Params.ex1).phase = .idle ∧ (State.powerOn Params.ex1).initialized = false :=
  ⟨rfl, by simp, rfl, rfl⟩

theorem witness_NoCommandDuringCommand :
    (Instr.init true 0).isHostCommand = true ∧ (receiving false [] []).phase ≠ .idle := by decide

/-- An initialised block and one that is not. -/
theorem witness_InitResult : (idle true).phase = .idle ∧ (State.powerOn Params.ex1).phase = .idle := ⟨rfl, rfl⟩

theorem witness_TickEntryResult : (idle true).phase = .idle ∧ (idle true).initialized = true := ⟨rfl, rfl⟩

/-- A Message of the greatest length, C−2, and the empty one. -/
theorem witness_GetMessageResult :
    (Inv (holding abcdef (idle false)) ∧ (holding abcdef (idle false)).phase = .idle ∧
      (holding abcdef (idle false)).initialized = true) ∧ Inv (idle false) :=
  ⟨⟨inv_of_check (by decide), rfl, rfl⟩, idle_inv false⟩

theorem witness_SetHandlerResult : (idle true).phase = .idle ∧ (idle true).initialized = true := ⟨rfl, rfl⟩

/-- The empty message, and the longest, C−1, into the last free slot. -/
theorem witness_EnqueueAccepted :
    (Inv (idle false) ∧ (idle false).phase = .idle ∧ (idle false).initialized = true ∧
      (idle false).qsize < (idle false).params.Q ∧ ([] : List Byte).length < (idle false).params.C) ∧
    (Inv { full with qent := [⟨1, 1⟩, ⟨2, 1⟩] } ∧
      ({ full with qent := [⟨1, 1⟩, ⟨2, 1⟩] } : State).qsize < full.params.Q ∧
      (abcdef ++ [0x47]).length < full.params.C) :=
  ⟨⟨idle_inv false, by decide⟩, inv_of_check (by decide), by decide⟩

theorem witness_EnqueueRefusedInOrder :
    (full.phase = .idle ∧ full.initialized = true ∧ full.qsize = full.params.Q) ∧
    ((idle false).phase = .idle ∧ (idle false).initialized = true ∧ (idle false).qsize ≠ (idle false).params.Q ∧
      (idle false).params.C ≤ abcdefgh.length) := by decide

theorem witness_EnqueueDiagResult :
    (Inv full ∧ full.qsize = full.params.Q) ∧
    (Inv (idle false) ∧ (idle false).params.C ≤ abcdefgh.length) ∧
    (Inv (idle false) ∧ (idle false).qsize < (idle false).params.Q ∧
      (abcdef ++ [0x47]).length < (idle false).params.C) :=
  ⟨⟨full_inv, by decide⟩, ⟨idle_inv false, by decide⟩, idle_inv false, by decide⟩

theorem witness_DeliverResult :
    abcdef.length + 2 ≤ (handled (idle false)).params.C ∧ ([] : List Byte).length + 2 ≤ (idle false).params.C := by decide

/-- The first byte of a frame, and the last that fits (index C−2). -/
theorem witness_ConsumeByteExtendsFrame :
    (Inv (receiving true [] []) ∧ FrameSoFar (receiving true [] []) [] ∧ ([] : List Byte).length + 1 < 8) ∧
    (Inv (receiving true abcdef []) ∧ FrameSoFar (receiving true abcdef []) abcdef ∧
      ¬(abcdef.getLast? = some (receiving true abcdef []).params.termA ∧
        (0x0A : Byte) = (receiving true abcdef []).params.termB) ∧
      abcdef.length + 1 < (receiving true abcdef []).params.C) :=
  ⟨⟨inv_of_check (by decide), ⟨rfl, rfl⟩, by decide⟩, inv_of_check (by decide), ⟨rfl, rfl⟩, by decide, by decide⟩

theorem witness_ConsumeByteOverflows :
    Inv (receiving true (abcdef ++ [0x47]) []) ∧ FrameSoFar (receiving true (abcdef ++ [0x47]) []) (abcdef ++ [0x47]) ∧
    ¬((abcdef ++ [0x47]).getLast? = some Params.ex1.termA ∧ (0x48 : Byte) = Params.ex1.termB) ∧
    (abcdef ++ [0x47]).length + 1 = (receiving true (abcdef ++ [0x47]) []).params.C :=
  ⟨inv_of_check (by decide), ⟨rfl, rfl⟩, by decide, by decide⟩

/-- Checksum mode off, with the longest payload; checksum mode on, with payloads of 0 and 1 bytes. -/
theorem witness_ConsumeByteDeliversUnchecked :
    (Inv (receiving false (abcdef ++ [0x0D]) []) ∧
      FrameSoFar (receiving false (abcdef ++ [0x0D]) []) (abcdef ++ [Params.ex1.termA]) ∧
      (receiving false (abcdef ++ [0x0D]) []).cfgCk = false) ∧
    (Inv (receiving true [0x0D] []) ∧ FrameSoFar (receiving true [0x0D] []) ([] ++ [Params.ex1.termA]) ∧
      ([] : List Byte).length ≤ 1) ∧
    (Inv (receiving true [0x7A, 0x0D] []) ∧
      FrameSoFar (receiving true [0x7A, 0x0D] []) ([0x7A] ++ [Params.ex1.termA]) ∧ ([0x7A] : List Byte).length ≤ 1) :=
  ⟨⟨inv_of_check (by decide), ⟨rfl, rfl⟩, rfl⟩, ⟨inv_of_check (by decide), ⟨rfl, rfl⟩, by decide⟩,
    inv_of_check (by decide), ⟨rfl, rfl⟩, by decide⟩

/-- RX12, before its last byte. -/
theorem witness_ConsumeByteDeliversChecked :
    Inv (receiving true (ab ++ [0xC3, 0x0D]) []) ∧ (receiving true (ab ++ [0xC3, 0x0D]) []).cfgCk = true ∧ ab ≠ [] ∧
    FrameSoFar (receiving true (ab ++ [0xC3, 0x0D]) [])
      (ab ++ [BitVec.ofNat 8 (ab.map BitVec.toNat).sum, Params.ex1.termA]) :=
  ⟨inv_of_check (by decide), rfl, by decide, rfl, by decide⟩

/-- RX13, before its last byte. -/
theorem witness_ConsumeByteReportsMismatch :
    Inv (receiving true (ab ++ [0x00, 0x0D]) []) ∧ (receiving true (ab ++ [0x00, 0x0D]) []).cfgCk = true ∧ ab ≠ [] ∧
    (0x00 : Byte) ≠ BitVec.ofNat 8 (ab.map BitVec.toNat).sum ∧
    FrameSoFar (receiving true (ab ++ [0x00, 0x0D]) []) (ab ++ [0x00, Params.ex1.termA]) ∧
    Queued (receiving true (ab ++ [0x00, 0x0D]) []) [] :=
  ⟨inv_of_check (by decide), rfl, by decide, by decide, ⟨rfl, rfl⟩, .nil⟩

/-- The first byte, a byte in the middle, and the last byte of a frame. -/
theorem witness_PumpSendsNextFrameByte :
    (Inv (sending true ab 0 0) ∧ Queued (sending true ab 0 0) [ab] ∧ (sending true ab 0 0).chCap ≠ 0 ∧
      (sending true ab 0 0).txOff + 1 < ab.length + (sending true ab 0 0).ckBit + 2) ∧
    (Inv (sending true ab 4 5) ∧ Queued (sending true ab 4 5) [ab] ∧ (sending true ab 4 5).chCap ≠ 0 ∧
      (sending true ab 4 5).txOff + 1 = ab.length + (sending true ab 4 5).ckBit + 2) :=
  ⟨⟨sending_fresh_inv, sending_queued 0 0, by decide, by decide⟩, sending_last_inv, sending_queued 4 5, by decide,
    by decide⟩

/-- Each clause: work to do, nothing queued, no capacity. -/
theorem witness_PumpWritesOneByteOrNothing :
    (Inv (sending true ab 0 0) ∧ (sending true ab 0 0).qent ≠ [] ∧ (sending true ab 0 0).chCap ≠ 0) ∧
    (idle false).qent = [] ∧ full.chCap = 0 := ⟨⟨sending_fresh_inv, by decide, by decide⟩, rfl, rfl⟩

theorem witness_ChecksumLaws : ([0x61, 0x62] : List Byte).Perm [0x62, 0x61] := by decide

theorem witness_ChecksumDetectionLimits :
    (0x61 : Byte) ≠ 0x62 ∧ ([0x61, 0x62] : List Byte).Perm [0x62, 0x61] := by decide

theorem witness_ResetIsGood : Params.ex1.Legal ∧ ({ Params.ex1 with C := 65535, Q := 65535 } : Params).Legal := by decide

/-- A good state whose next step is a pump, one whose next step ends a frame, and one whose next step is an INIT. -/
theorem witness_StepKeepsInvariant :
    (Inv { sending true ab 2 5 with phase := .pump } ∧
      ∃ t, step { sending true ab 2 5 with phase := .pump } = .next t) ∧
    (Inv (receiving true (ab ++ [0x00, 0x0D]) [0x0A]) ∧
      ∃ t, step (receiving true (ab ++ [0x00, 0x0D]) [0x0A]) = .next t) ∧
    (Inv (offered ⟨1, [0, 0, 0, 0]⟩ full) ∧ ∃ t, step (offered ⟨1, [0, 0, 0, 0]⟩ full) = .next t) :=
  ⟨⟨inv_of_check (by decide), next_of_runs (by decide)⟩, ⟨inv_of_check (by decide), next_of_runs (by decide)⟩,
    inv_of_check (by decide), next_of_runs (by decide)⟩

theorem witness_GoodStateNeverStops : Inv (State.powerOn Params.ex1) ∧ Inv full := ⟨powerOn_inv, full_inv⟩

theorem witness_StepKeepsMemoriesCanonical :
    ∃ s t : State, MemoryInv s ∧ s.rxBuf ≠ [] ∧ step s = .next t := by
  obtain ⟨t, ht⟩ := next_of_runs (show runs (step (receiving true (ab ++ [0x00, 0x0D]) [0x0A])) = true by decide)
  exact ⟨_, t, (inv_of_check (by decide)).memory, by decide, ht⟩

theorem witness_ResponsesStayWellFormed :
    ∃ s t : State, Inv s ∧ (∀ r ∈ s.responses, GoodResponse r) ∧ s.responses ≠ [] ∧ step s = .next t := by
  obtain ⟨t, ht⟩ := next_of_runs (show runs (step
    (offered ⟨4, []⟩ { holding hi (idle false) with responses := [⟨0x00020000, hi⟩] })) = true by decide)
  refine ⟨_, t, inv_of_check (by decide), fun r hr => ?_, by decide, ht⟩
  obtain rfl : r = ⟨0x00020000, hi⟩ := by simpa [offered, holding, idle] using hr
  exact ⟨by decide, by decide, by decide, by decide⟩

theorem witness_ParametersAndModeStay :
    ∃ s t : State, step s = .next t ∧ s.initialized = true := by
  obtain ⟨t, ht⟩ := next_of_runs (show runs (step (offered tickWord (idle false))) = true by decide)
  exact ⟨_, t, ht, rfl⟩

/-- A step of each kind: a SET_HANDLER, an INIT, and one that writes no control register. -/
theorem witness_ControlRegistersWrittenOnlyByCommands :
    (∃ t, step (offered ⟨0x00070005, []⟩ (idle false)) = .next t ∧
      AcceptsSetHandler (offered ⟨0x00070005, []⟩ (idle false)) 7) ∧
    (∃ t, step (offered ⟨0x00000101, [0, 0, 0, 0]⟩ (idle false)) = .next t ∧
      AcceptsInit (offered ⟨0x00000101, [0, 0, 0, 0]⟩ (idle false)) true 0) ∧
    ∃ t, step (idle false) = .next t := by
  obtain ⟨t1, h1⟩ := next_of_runs (show runs (step (offered ⟨0x00070005, []⟩ (idle false))) = true by decide)
  obtain ⟨t2, h2⟩ := next_of_runs (show runs (step (offered ⟨0x00000101, [0, 0, 0, 0]⟩ (idle false))) = true by decide)
  exact ⟨⟨t1, h1, rfl, _, _, rfl, by decide⟩, ⟨t2, h2, rfl, _, _, rfl, by decide⟩, next_of_runs (by decide)⟩

theorem witness_MessageWrittenOnlyByDelivery :
    ∃ t, step (receiving false (hi ++ [0x0D]) [0x0A]) = .next t := next_of_runs (by decide)

theorem witness_ChannelTrafficOnlyInsideTick :
    (∃ t, step { sending true ab 2 5 with phase := .pump } = .next t) ∧
    ∃ t, step (receiving false hi [0x0D]) = .next t := ⟨next_of_runs (by decide), next_of_runs (by decide)⟩

theorem witness_OneResponsePerCommand :
    (∃ t, step (offered tickWord (idle false)) = .next t) ∧
    (∃ t, step (offered ⟨4, []⟩ (idle false)) = .next t) ∧
    ∃ t, step { idle false with phase := .pump } = .next t :=
  ⟨next_of_runs (by decide), next_of_runs (by decide), next_of_runs (by decide)⟩

theorem witness_QueueRefinesFifo :
    ∃ s t : State, Inv s ∧ Queued s [ab] ∧ step s = .next t := by
  obtain ⟨t, ht⟩ := next_of_runs (show runs (step { sending true ab 4 5 with phase := .pump }) = true by decide)
  exact ⟨{ sending true ab 4 5 with phase := .pump }, t, inv_of_check (by decide), sending_queued 4 5, ht⟩

theorem witness_FrameSentByEffectivePumps :
    Inv (sending true ab 0 0) ∧ Queued (sending true ab 0 0) [ab] ∧ (sending true ab 0 0).chCap ≠ 0 ∧
    (sending true ab 0 0).txOff = 0 ∧ (sending true ab 0 0).txTot = 0 :=
  ⟨sending_fresh_inv, sending_queued 0 0, by decide, rfl, rfl⟩

/-- TERM_A TERM_B is absent from a byte string in which TERM_A does not occur before the last place. -/
theorem noPair_of_check {p : Params} {l : List Byte} (h : p.termA ∉ l.dropLast) : NoPair p l := by
  intro k hk hk1
  have hk1l : k + 1 < l.length := (List.getElem?_eq_some_iff.mp hk1).1
  refine h (List.mem_iff_getElem?.mpr ⟨k, ?_⟩)
  rw [List.getElem?_dropLast, if_pos (by omega)]
  exact hk

/-- Both modes; with checksum mode off, the longest payload that fits, of C−2 bytes. -/
theorem witness_ReceiverReproducesPayload :
    (Inv (receiving true [] []) ∧ (receiving true [] []).rxI = 0 ∧ (wireFrame Params.ex1 true ab).length ≤ 8 ∧
      NoPair Params.ex1 (wireFrame Params.ex1 true ab).dropLast ∧ ab ≠ []) ∧
    (Inv (receiving false [] []) ∧ (receiving false [] []).rxI = 0 ∧ (wireFrame Params.ex1 false abcdef).length ≤ 8 ∧
      NoPair Params.ex1 (wireFrame Params.ex1 false abcdef).dropLast) :=
  ⟨⟨inv_of_check (by decide), rfl, by decide, noPair_of_check (by decide), by decide⟩,
    inv_of_check (by decide), rfl, by decide, noPair_of_check (by decide)⟩

theorem witness_EmptyMessageArrivesAsZeroByte :
    Inv (receiving true [] []) ∧ (receiving true [] []).rxI = 0 ∧ (receiving true [] []).cfgCk = true ∧
    3 ≤ (receiving true [] []).params.C ∧
    ¬((receiving true [] []).params.termA = 0 ∧ (receiving true [] []).params.termB = 0) :=
  ⟨inv_of_check (by decide), rfl, rfl, by decide, by decide⟩

theorem witness_OverflowExactlyOnce :
    Inv (receiving false [] []) ∧ (receiving false [] []).rxI = 0 ∧ (receiving false [] []).ovfTick = false ∧
    abcdefgh.length = (receiving false [] []).params.C ∧ NoPair (receiving false [] []).params abcdefgh ∧
    Queued (receiving false [] []) [] :=
  ⟨inv_of_check (by decide), rfl, rfl, by decide, noPair_of_check (by decide), .nil⟩

theorem witness_QueueFullAtQPlusOne :
    Inv (idle false) ∧ (idle false).phase = .idle ∧ (idle false).initialized = true ∧ (idle false).qent = [] ∧
    [hi, ab, [], hi].length = (idle false).params.Q + 1 ∧ ∀ m ∈ [hi, ab, [], hi], m.length < (idle false).params.C :=
  ⟨idle_inv false, rfl, rfl, rfl, by decide, by decide⟩

/-- With inbound bytes, a handler, and STOP_RX_AFTER_OVERFLOW false. -/
theorem witness_TickCompletes :
    let s := offered tickWord (handled { idle false with
      chIn := hi ++ [0x0D, 0x0A], params := { Params.ex1 with stopRxAfterOverflow := false } })
    Inv s ∧ s.phase = .idle ∧ s.initialized = true ∧ s.chanQ = [] ∧ s.hostQ = tickWord :: [] ∧
      decode tickWord = .ok .tick ∧ s.handlerValid = true ∧ s.params.stopRxAfterOverflow = false :=
  ⟨inv_of_check (by decide), rfl, rfl, rfl, rfl, by decide, rfl, rfl⟩

theorem witness_IdleTickChangesNothing :
    let s := offered tickWord (idle false)
    Inv s ∧ s.phase = .idle ∧ s.initialized = true ∧ s.chanQ = [] ∧ s.hostQ = tickWord :: [] ∧
      decode tickWord = .ok .tick ∧ s.chIn = [] ∧ s.qent = [] :=
  ⟨inv_of_check (by decide), rfl, rfl, rfl, rfl, by decide, rfl, rfl⟩

/-- Two good states that differ in a stale byte of RX_BUF and in HANDLER_ID, and a step. -/
theorem witness_StaleContentsNeverObserved :
    ∃ s t s' : State, Inv s ∧ Inv t ∧ SameLive s t ∧ s ≠ t ∧ step s = .next s' := by
  obtain ⟨u, hu⟩ := next_of_runs (show runs (step (receiving false [] hi)) = true by decide)
  refine ⟨receiving false [] hi, { receiving false [] hi with rxBuf := [(3, 0x55)], handlerId := 9 }, u,
    inv_of_check (by decide), inv_of_check (by decide), ?_, by decide, hu⟩
  exact ⟨rfl, rfl, fun _ => ⟨rfl, rfl⟩, rfl, fun h => by simp [receiving, idle, State.powerOn] at h, rfl,
    fun k hk => by simp [receiving] at hk, rfl, fun _ _ => rfl, rfl, rfl, fun _ _ _ _ => rfl, rfl, rfl, rfl, rfl, rfl,
    rfl, rfl, rfl, rfl, rfl, rfl, rfl⟩

end Sys2Proof.Tests
end

section
/-! PROOFS. The rules of spec/00_scope.md that hold of every step: the build-time parameters (R9) and the initialised
mode (R223). -/

namespace Sys2Proof.Machine

/-- What R9 and R223 ask of a step from s to t: the same build-time parameters, and the initialised mode not left. -/
def KeepsParamsAndMode (s t : State) : Prop :=
  t.params = s.params ∧ (s.initialized = true → t.initialized = true)

/-- The case of every operation but INIT: it writes neither the parameters nor INITIALIZED. -/
theorem KeepsParamsAndMode.of_eq {s t : State} (hp : t.params = s.params) (hi : t.initialized = s.initialized) :
    KeepsParamsAndMode s t :=
  ⟨hp, hi.trans⟩

/-- CONSUME_BYTE, whether it delivers a payload or not (R121). -/
theorem consumeByte_keepsParamsAndMode {b : Byte} {s t : State} (h : consumeByte b s = .ok t) :
    KeepsParamsAndMode s t := by
  obtain ⟨-, ⟨rx, p, mem, rfl⟩ | ⟨rx, i, ovf, mem, q, n, rfl⟩⟩ := consumeByte_eq_ok h
  · exact .of_eq rfl rfl
  · exact .of_eq rfl rfl

/-- PUMP_ONE_BYTE, whether it sends a byte or not (R156). -/
theorem pumpOneByte_keepsParamsAndMode {s t : State} (h : pumpOneByte s = .ok t) : KeepsParamsAndMode s t := by
  obtain rfl | ⟨e, rest, b, -, -, rfl⟩ := pumpOneByte_eq_ok h
  · exact .of_eq rfl rfl
  · obtain ⟨q, off, tot, heq⟩ := advanceCursor_eq rest (txTotal s e) { s with chOut := s.chOut ++ [b] }
    rw [heq]
    exact .of_eq rfl rfl

/-- A host command (R180). Only INIT writes INITIALIZED, and it sets it (R23, R196). -/
theorem command_keepsParamsAndMode {c : Transaction} {s t : State} (h : command c s = .next t) :
    KeepsParamsAndMode s t := by
  obtain ⟨st, rfl, -⟩ | ⟨ck, bitrate, -, rfl⟩ | ⟨-, -, rfl⟩ | ⟨m, st, mem, q, n, -, -, -, -, -, rfl⟩ |
    ⟨d, -, -, -, rfl⟩ | ⟨hid, -, -, rfl⟩ := command_cases h
  case inr.inl => exact ⟨rfl, fun _ => rfl⟩
  all_goals exact .of_eq rfl rfl

/-- A step of the sequencer, in each phase (R181). -/
theorem sequencerTurn_keepsParamsAndMode {s t : State} (h : sequencerTurn s = .next t) : KeepsParamsAndMode s t := by
  obtain ⟨-, -, rfl⟩ | ⟨-, c, rest, -, hc⟩ | ⟨-, -, b, rest, -, hb⟩ | ⟨-, -, rfl⟩ | ⟨-, s1, hs, rfl⟩ :=
    sequencerTurn_cases h
  · exact .of_eq rfl rfl
  · obtain ⟨hp, hi⟩ := command_keepsParamsAndMode hc
    exact ⟨hp, hi⟩
  · obtain ⟨hp, hi⟩ := consumeByte_keepsParamsAndMode hb
    exact ⟨hp, hi⟩
  · exact .of_eq rfl rfl
  · obtain ⟨hp, hi⟩ := pumpOneByte_keepsParamsAndMode hs
    exact ⟨hp, hi⟩

/-- Every step, of the sequencer or of the channel (R228). -/
theorem step_keepsParamsAndMode {s t : State} (h : step s = .next t) : KeepsParamsAndMode s t := by
  obtain ⟨u, hu, hs⟩ | ⟨moves, bs, -, hs⟩ | ⟨moves, n, -, hs⟩ := step_cases s
  · have hkeep : KeepsParamsAndMode u t := sequencerTurn_keepsParamsAndMode (hs.symm.trans h)
    rw [hu.eq] at hkeep
    exact hkeep
  · obtain rfl := Host.Outcome.next.inj (hs.symm.trans h)
    exact .of_eq rfl rfl
  · obtain rfl := Host.Outcome.next.inj (hs.symm.trans h)
    exact .of_eq rfl rfl

/-- Settles O41: it holds, by cases on whose turn it is and on what that turn can do. -/
theorem parametersAndModeStay : Obligations.ParametersAndModeStay := by
  unfold Obligations.ParametersAndModeStay
  intro s t h
  exact step_keepsParamsAndMode h

end Sys2Proof.Machine
end

section
/-! PROOFS. The rules of spec/10_state.md that hold of every step, by cases on what a step can do. This section: the
invariant of R25 to R34 and of the flags between commands (R28, R45). -/

namespace Sys2Proof.Machine

/-! ## Steps -/

/-- A relation between a state and its next state holds of every step when every sequencer turn and every channel move
keeps it and it does not see a pass of the channel taken off (R65, R228). -/
theorem step_induct {P : State → State → Prop}
    (pass : ∀ s moves t, P { s with chanQ := moves } t → P s t)
    (sequencer : ∀ s t, sequencerTurn s = .next t → P s t)
    (channel : ∀ s moves inb cap, P s { s with chanQ := moves, chIn := inb, chCap := cap })
    {s t : State} (h : step s = .next t) : P s t := by
  obtain ⟨u, hu, hs⟩ | ⟨moves, bs, -, hs⟩ | ⟨moves, n, -, hs⟩ := step_cases s
  · have hut : P u t := sequencer u t (hs.symm.trans h)
    exact pass s u.chanQ t (hu.eq ▸ hut)
  · obtain rfl := Host.Outcome.next.inj (hs.symm.trans h)
    exact channel s moves (s.chIn ++ bs) s.chCap
  · obtain rfl := Host.Outcome.next.inj (hs.symm.trans h)
    exact channel s moves s.chIn n

/-! ## Updates that keep the invariant -/

/-- An initialised block keeps `PhaseInv` when its flags are clear between commands (R28, R45). -/
theorem PhaseInv.of_initialized {s : State} (hi : s.initialized = true)
    (hf : s.phase = .idle → s.ready = false ∧ s.ovfTick = false) : PhaseInv s :=
  ⟨hf, fun _ => hi, fun h => absurd (hi.symm.trans h) (by decide)⟩

/-- The invariant says nothing of the ports: the channel's side, the host's transactions and the responses (R46). -/
theorem Inv.withPorts {s : State} (h : Inv s) (inb : List Byte) (cap : Nat) (hosts : List Transaction)
    (moves : List ChannelMove) (resps : List Response) :
    Inv { s with chIn := inb, chCap := cap, hostQ := hosts, chanQ := moves, responses := resps } where
  legal := h.legal
  memory := { h.memory with }
  rx := { h.rx with }
  msg := { h.msg with }
  queue := { h.queue with }
  cursor := h.cursor
  phase := { h.phase with }

/-- READY, OVF_TICK and PHASE of an initialised block, set so that the flags are clear between commands. -/
theorem Inv.withFlags {s : State} (h : Inv s) (hi : s.initialized = true) {ready ovf : Bool} {phase : Phase}
    (hf : phase = .idle → ready = false ∧ ovf = false) :
    Inv { s with ready := ready, ovfTick := ovf, phase := phase } where
  legal := h.legal
  memory := { h.memory with }
  rx := { h.rx with }
  msg := { h.msg with }
  queue := { h.queue with }
  cursor := h.cursor
  phase := .of_initialized hi hf

/-- A transmit side of an initialised block that is good again. -/
theorem Inv.withTx {s : State} (h : Inv s) (hi : s.initialized = true) {mem : Memory} {q : List QEntry}
    {n off tot : Nat} {out : List Byte}
    (g : TxGood { s with slots := mem, qent := q, slotNext := n, txOff := off, txTot := tot, chOut := out }) :
    Inv { s with slots := mem, qent := q, slotNext := n, txOff := off, txTot := tot, chOut := out } where
  legal := h.legal
  memory := g.memory
  rx := { h.rx with }
  msg := { h.msg with }
  queue := g.queue
  cursor := g.cursor
  phase := .of_initialized hi h.phase.idleFlags

/-- The registered handler of an initialised block (R189). -/
theorem Inv.withHandler {s : State} (h : Inv s) (hi : s.initialized = true) (valid : Bool) (hid : Half) :
    Inv { s with handlerValid := valid, handlerId := hid } where
  legal := h.legal
  memory := { h.memory with }
  rx := { h.rx with }
  msg := { h.msg with }
  queue := { h.queue with }
  cursor := h.cursor
  phase := .of_initialized hi h.phase.idleFlags

/-- INIT leaves a good state: no frame, no Message, no entry, the cursor at (0, 0) (R196). -/
theorem Inv.initialise {s : State} (h : Inv s) (ck : Bool) (bitrate : Word) : Inv (s.initialise ck bitrate) where
  legal := h.legal
  memory := { h.memory with }
  rx := ⟨Nat.zero_lt_of_lt h.rx.index, nofun⟩
  msg := ⟨Nat.zero_le _, nofun⟩
  queue := ⟨Nat.zero_lt_of_lt h.queue.next, Nat.zero_le _, by simp, by simp, by simp⟩
  cursor := .inl ⟨rfl, rfl⟩
  phase := .of_initialized rfl fun _ => ⟨rfl, rfl⟩

/-- A good state has a good transmit side. -/
theorem Inv.txGood {s : State} (h : Inv s) : TxGood s := ⟨h.memory, h.queue, h.cursor⟩

/-! ## The invariant, step by step -/

theorem Inv.answer {s : State} (h : Inv s) (st : Status) : Inv (s.answer st) :=
  h.withPorts s.chIn s.chCap s.hostQ s.chanQ (s.answer st).responses

theorem Inv.respond {s : State} (h : Inv s) (st : Status) (ready : Bool) (len : Nat) (data : List Byte) :
    Inv (s.respond st ready len data) :=
  h.withPorts s.chIn s.chCap s.hostQ s.chanQ (s.respond st ready len data).responses

/-- An enqueue keeps the transmit side good (R151, R153). -/
theorem enqueue_keeps_txGood {m : List Byte} {s t : State} {st : Status} (h : TxGood s)
    (he : enqueue m s = .ok (st, t)) : TxGood t := by
  obtain ⟨mem, q, n, heq, g, -⟩ := enqueue_good m h
  obtain ⟨-, rfl⟩ := Prod.mk.inj (Except.ok.inj (heq.symm.trans he))
  exact g

/-- A host command (R180). -/
theorem command_keepsInv {c : Transaction} {s t : State} (hi : Inv s) (h : command c s = .next t) : Inv t := by
  obtain ⟨st, rfl, -⟩ | ⟨ck, bitrate, -, rfl⟩ | ⟨-, hinit, rfl⟩ | ⟨m, st, mem, q, n, -, hinit, he, -, -, rfl⟩ |
    ⟨d, -, -, -, rfl⟩ | ⟨hid, -, hinit, rfl⟩ := command_cases h
  · exact hi.answer st
  · exact (hi.initialise ck bitrate).answer .ok
  · exact hi.withFlags hinit nofun
  · exact (hi.withTx hinit (enqueue_keeps_txGood hi.txGood he)).answer st
  · exact hi.respond .ok false s.msgLen d
  · exact (hi.withHandler hinit true hid).answer .ok

/-- PUMP_ONE_BYTE (R156). -/
theorem pumpOneByte_keepsInv {s t : State} (hi : Inv s) (hinit : s.initialized = true) (h : pumpOneByte s = .ok t) :
    Inv t := by
  obtain ⟨out, q, off, tot, heq, g⟩ := pump_good hi.txGood
  obtain rfl := Except.ok.inj (heq.symm.trans h)
  exact hi.withTx hinit g

/-- The flag writes and the response that end a TICK (R181). -/
theorem finishTick_keepsInv {s : State} (hi : Inv s) (hinit : s.initialized = true) : Inv (finishTick s) :=
  Inv.respond (hi.withFlags hinit fun _ => ⟨rfl, rfl⟩) _ _ _ _

/-- A step of the sequencer, in each phase (R181). -/
theorem sequencerTurn_keepsInv {s t : State} (hi : Inv s) (h : sequencerTurn s = .next t) : Inv t := by
  obtain ⟨-, -, rfl⟩ | ⟨-, c, rest, -, hc⟩ | ⟨hp, -, b, rest, -, hb⟩ | ⟨hp, -, rfl⟩ | ⟨hp, s1, hs, rfl⟩ :=
    sequencerTurn_cases h
  · exact hi
  · exact command_keepsInv (hi.withPorts s.chIn s.chCap rest s.chanQ s.responses) hc
  · obtain ⟨t', heq, hinv, -⟩ := consumeByte_good b (hi.withPorts rest s.chCap s.hostQ s.chanQ s.responses) hp
    obtain rfl := Except.ok.inj (heq.symm.trans hb)
    exact hinv
  · exact hi.withFlags (hi.phase.busy (by simp [hp])) nofun
  · have hinit : s.initialized = true := hi.phase.busy (by simp [hp])
    have hpump : Inv s1 := pumpOneByte_keepsInv hi hinit hs
    exact finishTick_keepsInv hpump ((pumpOneByte_keepsParamsAndMode hs).2 hinit)

/-- Settles O37: it holds, by cases on whose turn it is and on what that turn can do. -/
theorem stepKeepsInvariant : Obligations.StepKeepsInvariant := by
  unfold Obligations.StepKeepsInvariant
  intro s t hi h
  exact step_induct (P := fun s t => Inv s → Inv t)
    (fun s moves t hp hi => hp (hi.withPorts s.chIn s.chCap s.hostQ moves s.responses))
    (fun s t ht hi => sequencerTurn_keepsInv hi ht)
    (fun s moves inb cap hi => hi.withPorts inb cap s.hostQ moves s.responses) h hi

end Sys2Proof.Machine
end

section
/-! PROOFS. The transmit queue of spec/10_state.md as a FIFO of messages (R34, R41), step by step. -/

namespace Sys2Proof.Machine

/-! ## Inversion of the receive path -/

/-- A sequence of two operations answers when both do. -/
theorem bind_eq_ok {α β : Type} {x : Except Fault α} {f : α → Except Fault β} {b : β} :
    (x >>= f) = .ok b ↔ ∃ a, x = .ok a ∧ f a = .ok b := by
  cases x <;> simp [bind, Except.bind]

/-- The end of a frame is a DELIVER or a mismatch report (R121 step 2). -/
theorem closeFrame_cases {i : Nat} {s t : State} (h : closeFrame i s = .ok t) :
    (∃ p, deliver p s = .ok t) ∨ ∃ p rx, reportMismatch p rx s = .ok t := by
  unfold closeFrame at h
  split_ifs at h
  · obtain ⟨rx, -, h⟩ := bind_eq_ok.mp h
    obtain ⟨p, -, h⟩ := bind_eq_ok.mp h
    split_ifs at h
    · exact .inl ⟨p, h⟩
    · exact .inr ⟨p, rx, h⟩
  · obtain ⟨p, -, h⟩ := bind_eq_ok.mp h
    exact .inl ⟨p, h⟩

/-- CONSUME_BYTE ends a frame, overflows, or extends the frame in progress (R121). -/
theorem consumeByte_cases {b : Byte} {s t : State} (h : consumeByte b s = .ok t) :
    (∃ u, closeFrame s.rxI (storedState s b) = .ok u ∧ t = { u with rxI := 0 }) ∨
      rxOverflow (storedState s b) = .ok t ∨ t = { storedState s b with rxI := s.rxI + 1 } := by
  obtain ⟨s1, hs, h⟩ := bind_eq_ok.mp h
  obtain ⟨-, rfl⟩ := rxStore_eq_ok.mp hs
  obtain ⟨boundary, -, h⟩ := bind_eq_ok.mp h
  split_ifs at h
  · obtain ⟨u, hu, h⟩ := bind_eq_ok.mp h
    exact .inl ⟨u, hu, (Except.ok.inj h).symm⟩
  · exact .inr (.inl h)
  · exact .inr (.inr (Except.ok.inj h).symm)

/-! ## Appending at the tail -/

/-- From a good queue, t is s with messages appended at the tail, and its queue is good again. -/
def QueueAppends (s t : State) : Prop :=
  QueueInv s → QueueInv t ∧ ∀ ms, Queued s ms → ∃ added, Queued t (ms ++ added)

/-- A state with the same queue, slots and parameters: nothing is appended. -/
theorem QueueAppends.of_eq {s t : State} (hp : t.params = s.params) (he : t.qent = s.qent)
    (hn : t.slotNext = s.slotNext) (hm : t.slots = s.slots) : QueueAppends s t :=
  fun hq => ⟨hq.congr hp he hn hm, fun ms hms => ⟨[], by simpa using hms.congr hp he hm⟩⟩

theorem QueueAppends.trans {s t u : State} (h1 : QueueAppends s t) (h2 : QueueAppends t u) : QueueAppends s u := by
  intro hq
  obtain ⟨hqt, ht⟩ := h1 hq
  obtain ⟨hqu, hu⟩ := h2 hqt
  refine ⟨hqu, fun ms hms => ?_⟩
  obtain ⟨a, ha⟩ := ht ms hms
  obtain ⟨b, hb⟩ := hu _ ha
  exact ⟨a ++ b, by simpa using hb⟩

/-- An enqueue appends its message, or nothing when it is refused (R151). -/
theorem enqueue_appends {m : List Byte} {s t : State} {st : Status} (h : enqueue m s = .ok (st, t)) :
    QueueAppends s t := by
  by_cases hst : enqueueStatus s m = .ok
  · intro hq
    obtain ⟨mem, heq, hnew, hkeep, -, -⟩ := enqueue_accepts hq hst
    obtain ⟨-, rfl⟩ := Prod.mk.inj (Except.ok.inj (heq.symm.trans h))
    exact ⟨accepted_queueInv hq hst hnew hkeep, fun ms hms => ⟨[m], accepted_queued hq hst hnew hkeep hms⟩⟩
  · obtain ⟨-, rfl⟩ := Prod.mk.inj (Except.ok.inj ((enqueue_refused hst).symm.trans h))
    exact .of_eq rfl rfl rfl rfl

/-- ENQUEUE_DIAG (R133). -/
theorem enqueueDiag_appends {m : List Byte} {s t : State} (h : enqueueDiag m s = .ok t) : QueueAppends s t := by
  obtain ⟨st, h⟩ := enqueueDiag_eq_ok.mp h
  exact enqueue_appends h

/-- The three diagnostics of a mismatch (R215). -/
theorem reportMismatch_appends {p : List Byte} {rx : Byte} {s t : State} (h : reportMismatch p rx s = .ok t) :
    QueueAppends s t := by
  obtain ⟨s1, h1, h⟩ := bind_eq_ok.mp h
  obtain ⟨s2, h2, h3⟩ := bind_eq_ok.mp h
  exact (enqueueDiag_appends h1).trans ((enqueueDiag_appends h2).trans (enqueueDiag_appends h3))

/-- The end of a frame: a delivery leaves the queue alone, a mismatch appends diagnostics (R121 step 2). -/
theorem closeFrame_appends {i : Nat} {s t : State} (h : closeFrame i s = .ok t) : QueueAppends s t := by
  obtain ⟨p, h⟩ | ⟨p, rx, h⟩ := closeFrame_cases h
  · obtain ⟨mem, rfl, -⟩ := deliver_eq_ok h
    exact .of_eq rfl rfl rfl rfl
  · exact reportMismatch_appends h

/-- CONSUME_BYTE appends diagnostics at most (R121). -/
theorem consumeByte_appends {b : Byte} {s t : State} (h : consumeByte b s = .ok t) : QueueAppends s t := by
  have hstore : QueueAppends s (storedState s b) := .of_eq rfl rfl rfl rfl
  obtain ⟨u, hu, rfl⟩ | h | rfl := consumeByte_cases h
  · exact hstore.trans ((closeFrame_appends hu).trans (.of_eq rfl rfl rfl rfl))
  · have hreset : QueueAppends (storedState s b) { storedState s b with rxI := 0, ovfTick := true } :=
      .of_eq rfl rfl rfl rfl
    exact hstore.trans (hreset.trans (enqueueDiag_appends h))
  · exact .of_eq rfl rfl rfl rfl

/-! ## Dropping the head -/

/-- A pump sends a byte of the head and drops the head at most (R156, R159). -/
theorem pumpOneByte_queued {s t : State} {ms : List (List Byte)} (hms : Queued s ms) (h : pumpOneByte s = .ok t) :
    Queued t ms ∨ (ms ≠ [] ∧ Queued t ms.tail) := by
  obtain rfl | ⟨e, rest, b, hq, -, rfl⟩ := pumpOneByte_eq_ok h
  · exact .inl hms
  · unfold advanceCursor
    split_ifs
    · unfold Queued at hms
      rw [hq] at hms
      cases hms with
      | cons _ hrest => exact .inr ⟨List.cons_ne_nil _ _, hrest⟩
    · exact .inl hms

/-! ## The FIFO, step by step -/

/-- What a step from s to t does to a queue that holds the messages ms: messages are appended outside of PUMP, the head
is dropped in PUMP, or an INIT empties the queue. -/
def FifoMove (s t : State) (ms : List (List Byte)) : Prop :=
  (∃ added, Queued t (ms ++ added) ∧ (added ≠ [] → s.phase ≠ .pump)) ∨
    (s.phase = .pump ∧ ms ≠ [] ∧ Queued t ms.tail) ∨
    ∃ ck bitrate, AcceptsInit s ck bitrate ∧ Queued t []

/-- A step that leaves the messages as they are. -/
theorem FifoMove.of_queued {s t : State} {ms : List (List Byte)} (h : Queued t ms) : FifoMove s t ms :=
  .inl ⟨[], by simpa using h, fun h => absurd rfl h⟩

/-- A step outside of PUMP that appends messages. -/
theorem FifoMove.of_appends {s t : State} {ms : List (List Byte)} (hq : QueueInv s) (hms : Queued s ms)
    (h : QueueAppends s t) (hp : s.phase ≠ .pump) : FifoMove s t ms := by
  obtain ⟨added, hadded⟩ := (h hq).2 ms hms
  exact .inl ⟨added, hadded, fun _ => hp⟩

/-- A host command taken from the port (R180): only ENQUEUE appends, only INIT empties the queue. -/
theorem command_fifoMove {c : Transaction} {rest : List Transaction} {s t : State} {ms : List (List Byte)}
    (hq : QueueInv s) (hms : Queued s ms) (hp : s.phase = .idle) (hc : s.hostQ = c :: rest)
    (h : command c { s with hostQ := rest } = .next t) : FifoMove s t ms := by
  obtain ⟨st, rfl, -⟩ | ⟨ck, bitrate, hd, rfl⟩ | ⟨-, -, rfl⟩ | ⟨m, st, mem, q, n, -, -, he, -, -, rfl⟩ |
    ⟨d, -, -, -, rfl⟩ | ⟨hid, -, -, rfl⟩ := command_cases h
  case inr.inl => exact .inr (.inr ⟨ck, bitrate, ⟨hp, c, rest, hc, hd⟩, .nil⟩)
  case inr.inr.inr.inl =>
    have htaken : QueueAppends s { s with hostQ := rest } := .of_eq rfl rfl rfl rfl
    exact .of_appends hq hms (htaken.trans ((enqueue_appends he).trans (.of_eq rfl rfl rfl rfl))) (by simp [hp])
  all_goals exact .of_queued (hms.congr rfl rfl rfl)

/-- A step of the sequencer, in each phase (R181). -/
theorem sequencerTurn_fifoMove {s t : State} {ms : List (List Byte)} (hq : QueueInv s) (hms : Queued s ms)
    (h : sequencerTurn s = .next t) : FifoMove s t ms := by
  obtain ⟨-, -, rfl⟩ | ⟨hp, c, rest, hc, h⟩ | ⟨hp, -, b, rest, -, hb⟩ | ⟨-, -, rfl⟩ | ⟨hp, s1, hs, rfl⟩ :=
    sequencerTurn_cases h
  · exact .of_queued hms
  · exact command_fifoMove hq hms hp hc h
  · have hread : QueueAppends s { s with chIn := rest } := .of_eq rfl rfl rfl rfl
    exact .of_appends hq hms (hread.trans (consumeByte_appends hb)) (by simp [hp])
  · exact .of_queued (hms.congr rfl rfl rfl)
  · obtain hkept | ⟨hne, htail⟩ := pumpOneByte_queued hms hs
    · exact .of_queued (hkept.congr rfl rfl rfl)
    · exact .inr (.inl ⟨hp, hne, htail.congr rfl rfl rfl⟩)

/-- Settles O46: it holds, by cases on whose turn it is; the queue's bytes stay because an enqueue writes into a slot
that no live entry holds (R34). -/
theorem queueRefinesFifo : Obligations.QueueRefinesFifo := by
  unfold Obligations.QueueRefinesFifo
  intro s t ms hi hms h
  exact step_induct (P := fun s t => QueueInv s → Queued s ms → FifoMove s t ms)
    (fun s moves t hmove hq hms => hmove (hq.congr rfl rfl rfl rfl) (hms.congr rfl rfl rfl))
    (fun s t ht hq hms => sequencerTurn_fifoMove hq hms ht)
    (fun s moves inb cap _ hms => .of_queued (hms.congr rfl rfl rfl)) h hi.queue hms

end Sys2Proof.Machine
end

section
/-! PROOFS. What a step may write (spec/10_state.md): the memories stay canonical (R40), the control registers are
written by commands (R21 to R24), the Message by deliveries (R27), PHASE and the responses as TICK's micro-steps and the
commands end (R44, R193); and the channel's own moves (R46). -/

namespace Sys2Proof.Machine

/-! ## Frames of the internal operations -/

/-- What CONSUME_BYTE leaves unchanged: all but the frame in progress, the Message with its event and READY, OVF_TICK
and the queue (R121). -/
theorem consumeByte_frame {b : Byte} {s t : State} (h : consumeByte b s = .ok t) :
    ∃ rx i len msg ev ready ovf mem q n,
      t = { s with rxBuf := rx, rxI := i, msgLen := len, msgBuf := msg, deliv := ev, ready := ready, ovfTick := ovf,
                   slots := mem, qent := q, slotNext := n } := by
  obtain ⟨-, ⟨rx, p, mem, rfl⟩ | ⟨rx, i, ovf, mem, q, n, rfl⟩⟩ := consumeByte_eq_ok h
  · exact ⟨rx, 0, p.length, mem, s.deliv ++ deliveryEvents s p, true, s.ovfTick, s.slots, s.qent, s.slotNext, rfl⟩
  · exact ⟨rx, i, s.msgLen, s.msgBuf, s.deliv, s.ready, ovf, mem, q, n, rfl⟩

/-- What PUMP_ONE_BYTE leaves unchanged: all but CH_OUT, the queue and the cursor (R156). -/
theorem pumpOneByte_frame {s t : State} (h : pumpOneByte s = .ok t) :
    ∃ out q off tot, t = { s with chOut := out, qent := q, txOff := off, txTot := tot } := by
  obtain rfl | ⟨e, rest, b, -, -, rfl⟩ := pumpOneByte_eq_ok h
  · exact ⟨t.chOut, t.qent, t.txOff, t.txTot, rfl⟩
  · obtain ⟨q, off, tot, heq⟩ := advanceCursor_eq rest (txTotal s e) { s with chOut := s.chOut ++ [b] }
    exact ⟨s.chOut ++ [b], q, off, tot, heq⟩

/-! ## Memories (R40) -/

/-- A state with the same memories and parameters. -/
theorem MemoryInv.congr {s t : State} (h : MemoryInv s) (hp : t.params = s.params) (hrx : t.rxBuf = s.rxBuf)
    (hmsg : t.msgBuf = s.msgBuf) (hsl : t.slots = s.slots) : MemoryInv t where
  rxWf := hrx ▸ h.rxWf
  msgWf := hmsg ▸ h.msgWf
  slotsWf := hsl ▸ h.slotsWf
  rxWithin := by rw [hrx, hp]; exact h.rxWithin
  msgWithin := by rw [hmsg, hp]; exact h.msgWithin
  slotsWithin := by rw [hsl, hp]; exact h.slotsWithin

/-- A host command (R180): only ENQUEUE writes a memory. -/
theorem command_keepsMemoryInv {c : Transaction} {s t : State} (h : command c s = .next t) (hm : MemoryInv s) :
    MemoryInv t := by
  obtain ⟨st, rfl, -⟩ | ⟨ck, bitrate, -, rfl⟩ | ⟨-, -, rfl⟩ | ⟨m, st, mem, q, n, -, -, -, -, henq, rfl⟩ |
    ⟨d, -, -, -, rfl⟩ | ⟨hid, -, -, rfl⟩ := command_cases h
  case inr.inr.inr.inl => exact (henq hm).congr rfl rfl rfl rfl
  all_goals exact hm.congr rfl rfl rfl rfl

/-- A step of the sequencer, in each phase (R181). -/
theorem sequencerTurn_keepsMemoryInv {s t : State} (hm : MemoryInv s) (h : sequencerTurn s = .next t) :
    MemoryInv t := by
  obtain ⟨-, -, rfl⟩ | ⟨-, c, rest, -, hc⟩ | ⟨-, -, b, rest, -, hb⟩ | ⟨-, -, rfl⟩ | ⟨-, s1, hs, rfl⟩ :=
    sequencerTurn_cases h
  · exact hm
  · exact command_keepsMemoryInv hc (hm.congr rfl rfl rfl rfl)
  · exact (consumeByte_eq_ok hb).1 (hm.congr rfl rfl rfl rfl)
  · exact hm.congr rfl rfl rfl rfl
  · obtain ⟨out, q, off, tot, rfl⟩ := pumpOneByte_frame hs
    exact hm.congr rfl rfl rfl rfl

/-- Settles O39: it holds, by cases on whose turn it is; each write of a memory keeps its form and its bounds. -/
theorem stepKeepsMemoriesCanonical : Obligations.StepKeepsMemoriesCanonical := by
  unfold Obligations.StepKeepsMemoriesCanonical
  intro s t hm h
  exact step_induct (P := fun s t => MemoryInv s → MemoryInv t)
    (fun s moves t hp hm => hp (hm.congr rfl rfl rfl rfl))
    (fun s t ht hm => sequencerTurn_keepsMemoryInv hm ht)
    (fun s moves inb cap hm => hm.congr rfl rfl rfl rfl) h hm

/-! ## Control registers (R21 to R24, R38) -/

/-- What a step from s to t does to the control registers: nothing, or what SET_HANDLER or INIT writes. -/
def ControlMove (s t : State) : Prop :=
  (t.cfgCk = s.cfgCk ∧ t.cfgBitrate = s.cfgBitrate ∧ t.initialized = s.initialized ∧
      t.handlerValid = s.handlerValid ∧ t.handlerId = s.handlerId) ∨
    (∃ hid, AcceptsSetHandler s hid ∧ t.handlerValid = true ∧ t.handlerId = hid ∧
      t.cfgCk = s.cfgCk ∧ t.cfgBitrate = s.cfgBitrate ∧ t.initialized = s.initialized) ∨
    ∃ ck bitrate, AcceptsInit s ck bitrate ∧ t.cfgCk = ck ∧ t.cfgBitrate = bitrate ∧ t.initialized = true ∧
      t.handlerValid = false

/-- A host command taken from the port (R180). -/
theorem command_controlMove {c : Transaction} {rest : List Transaction} {s t : State} (hp : s.phase = .idle)
    (hc : s.hostQ = c :: rest) (h : command c { s with hostQ := rest } = .next t) : ControlMove s t := by
  obtain ⟨st, rfl, -⟩ | ⟨ck, bitrate, hd, rfl⟩ | ⟨-, -, rfl⟩ | ⟨m, st, mem, q, n, -, -, -, -, -, rfl⟩ |
    ⟨d, -, -, -, rfl⟩ | ⟨hid, hd, -, rfl⟩ := command_cases h
  case inr.inl => exact .inr (.inr ⟨ck, bitrate, ⟨hp, c, rest, hc, hd⟩, rfl, rfl, rfl, rfl⟩)
  case inr.inr.inr.inr.inr => exact .inr (.inl ⟨hid, ⟨hp, c, rest, hc, hd⟩, rfl, rfl, rfl, rfl, rfl⟩)
  all_goals exact .inl ⟨rfl, rfl, rfl, rfl, rfl⟩

/-- A step of the sequencer, in each phase (R181). -/
theorem sequencerTurn_controlMove {s t : State} (h : sequencerTurn s = .next t) : ControlMove s t := by
  obtain ⟨-, -, rfl⟩ | ⟨hp, c, rest, hc, h⟩ | ⟨-, -, b, rest, -, hb⟩ | ⟨-, -, rfl⟩ | ⟨-, s1, hs, rfl⟩ :=
    sequencerTurn_cases h
  · exact .inl ⟨rfl, rfl, rfl, rfl, rfl⟩
  · exact command_controlMove hp hc h
  · obtain ⟨rx, i, len, msg, ev, ready, ovf, mem, q, n, rfl⟩ := consumeByte_frame hb
    exact .inl ⟨rfl, rfl, rfl, rfl, rfl⟩
  · exact .inl ⟨rfl, rfl, rfl, rfl, rfl⟩
  · obtain ⟨out, q, off, tot, rfl⟩ := pumpOneByte_frame hs
    exact .inl ⟨rfl, rfl, rfl, rfl, rfl⟩

/-- Settles O42: it holds, by cases on whose turn it is and on the command it takes. -/
theorem controlRegistersWrittenOnlyByCommands : Obligations.ControlRegistersWrittenOnlyByCommands := by
  unfold Obligations.ControlRegistersWrittenOnlyByCommands
  intro s t h
  exact step_induct (P := ControlMove) (fun _ _ _ hp => hp) (fun _ _ ht => sequencerTurn_controlMove ht)
    (fun _ _ _ _ => .inl ⟨rfl, rfl, rfl, rfl, rfl⟩) h

/-! ## The Message and the delivery events (R27, R47, R132, R135) -/

/-- What a step from s to t does to the Message and to DELIV: nothing, one delivery in a receive loop, or INIT. -/
def MessageMove (s t : State) : Prop :=
  (t.msgLen = s.msgLen ∧ t.msgBuf = s.msgBuf ∧ t.deliv = s.deliv) ∨
    (s.phase = .rx ∧ t.ready = true ∧ ∃ p : List Byte, t.msgLen = p.length ∧
      t.deliv = if s.handlerValid = true then s.deliv ++ [⟨s.handlerId, p⟩] else s.deliv) ∨
    ∃ ck bitrate, AcceptsInit s ck bitrate ∧ t.msgLen = 0 ∧ t.msgBuf = s.msgBuf ∧ t.deliv = s.deliv

/-- DELIV after one DELIVER(p): one event more exactly when a handler is registered (R132). -/
theorem append_deliveryEvents (s : State) (p : List Byte) :
    s.deliv ++ deliveryEvents s p =
      if s.handlerValid = true then s.deliv ++ [⟨s.handlerId, p⟩] else s.deliv := by
  unfold deliveryEvents
  split_ifs
  · rfl
  · exact List.append_nil _

/-- A host command taken from the port (R180): INIT empties the Message, no other command writes it. -/
theorem command_messageMove {c : Transaction} {rest : List Transaction} {s t : State} (hp : s.phase = .idle)
    (hc : s.hostQ = c :: rest) (h : command c { s with hostQ := rest } = .next t) : MessageMove s t := by
  obtain ⟨st, rfl, -⟩ | ⟨ck, bitrate, hd, rfl⟩ | ⟨-, -, rfl⟩ | ⟨m, st, mem, q, n, -, -, -, -, -, rfl⟩ |
    ⟨d, -, -, -, rfl⟩ | ⟨hid, -, -, rfl⟩ := command_cases h
  case inr.inl => exact .inr (.inr ⟨ck, bitrate, ⟨hp, c, rest, hc, hd⟩, rfl, rfl, rfl⟩)
  all_goals exact .inl ⟨rfl, rfl, rfl⟩

/-- CONSUME_BYTE in the receive loop delivers once at most (R121, R132). -/
theorem consumeByte_messageMove {b : Byte} {s t : State} (hp : s.phase = .rx) (h : consumeByte b s = .ok t) :
    MessageMove s t := by
  obtain ⟨-, ⟨rx, p, mem, rfl⟩ | ⟨rx, i, ovf, mem, q, n, rfl⟩⟩ := consumeByte_eq_ok h
  · exact .inr (.inl ⟨hp, rfl, p, rfl, append_deliveryEvents s p⟩)
  · exact .inl ⟨rfl, rfl, rfl⟩

/-- A step of the sequencer, in each phase (R181). -/
theorem sequencerTurn_messageMove {s t : State} (h : sequencerTurn s = .next t) : MessageMove s t := by
  obtain ⟨-, -, rfl⟩ | ⟨hp, c, rest, hc, h⟩ | ⟨hp, -, b, rest, -, hb⟩ | ⟨-, -, rfl⟩ | ⟨-, s1, hs, rfl⟩ :=
    sequencerTurn_cases h
  · exact .inl ⟨rfl, rfl, rfl⟩
  · exact command_messageMove hp hc h
  · have hmove : MessageMove { s with chIn := rest } t := consumeByte_messageMove hp hb
    exact hmove
  · exact .inl ⟨rfl, rfl, rfl⟩
  · obtain ⟨out, q, off, tot, rfl⟩ := pumpOneByte_frame hs
    exact .inl ⟨rfl, rfl, rfl⟩

/-- Settles O43: it holds, by cases on whose turn it is; CONSUME_BYTE's delivery is the one that writes the Message. -/
theorem messageWrittenOnlyByDelivery : Obligations.MessageWrittenOnlyByDelivery := by
  unfold Obligations.MessageWrittenOnlyByDelivery
  intro s t h
  exact step_induct (P := MessageMove) (fun _ _ _ hp => hp) (fun _ _ ht => sequencerTurn_messageMove ht)
    (fun _ _ _ _ => .inl ⟨rfl, rfl, rfl⟩) h

/-! ## PHASE, the host port and the responses (R44, R193, R194) -/

/-- What a step from s to t does to PHASE, the host port and the responses: nothing, a command answered at once, the
entry of a TICK, the end of its receive loop, or its end with its response. -/
def PhaseMove (s t : State) : Prop :=
  (t.phase = s.phase ∧ t.hostQ = s.hostQ ∧ t.responses = s.responses) ∨
    (s.phase = .idle ∧ t.phase = .idle ∧
      (∃ c, s.hostQ = c :: t.hostQ ∧ (decode c ≠ .ok .tick ∨ s.initialized = false)) ∧
      ∃ r, t.responses = s.responses ++ [r]) ∨
    (s.phase = .idle ∧ t.phase = .rx ∧ (∃ c, s.hostQ = c :: t.hostQ ∧ decode c = .ok .tick) ∧
      t.responses = s.responses) ∨
    (s.phase = .rx ∧ t.phase = .pump ∧ t.hostQ = s.hostQ ∧ t.responses = s.responses) ∨
    (s.phase = .pump ∧ t.phase = .idle ∧ t.hostQ = s.hostQ ∧ ∃ r, t.responses = s.responses ++ [r])

/-- A command other than a running TICK is answered at once; a TICK enters its receive loop (R180, R181). -/
theorem command_phaseMove {c : Transaction} {rest : List Transaction} {s t : State} (hp : s.phase = .idle)
    (hc : s.hostQ = c :: rest) (h : command c { s with hostQ := rest } = .next t) : PhaseMove s t := by
  obtain ⟨st, rfl, hd⟩ | ⟨ck, bitrate, hd, rfl⟩ | ⟨hd, -, rfl⟩ | ⟨m, st, mem, q, n, hd, -, -, -, -, rfl⟩ |
    ⟨d, hd, -, -, rfl⟩ | ⟨hid, hd, -, rfl⟩ := command_cases h
  case inl => exact .inr (.inl ⟨hp, hp, ⟨c, hc, hd⟩, _, rfl⟩)
  case inr.inr.inl => exact .inr (.inr (.inl ⟨hp, rfl, ⟨c, hc, hd⟩, rfl⟩))
  all_goals exact .inr (.inl ⟨hp, hp, ⟨c, hc, .inl (by simp [hd])⟩, _, rfl⟩)

/-- A step of the sequencer, in each phase (R181). -/
theorem sequencerTurn_phaseMove {s t : State} (h : sequencerTurn s = .next t) : PhaseMove s t := by
  obtain ⟨-, -, rfl⟩ | ⟨hp, c, rest, hc, h⟩ | ⟨-, -, b, rest, -, hb⟩ | ⟨hp, -, rfl⟩ | ⟨hp, s1, hs, rfl⟩ :=
    sequencerTurn_cases h
  · exact .inl ⟨rfl, rfl, rfl⟩
  · exact command_phaseMove hp hc h
  · obtain ⟨rx, i, len, msg, ev, ready, ovf, mem, q, n, rfl⟩ := consumeByte_frame hb
    exact .inl ⟨rfl, rfl, rfl⟩
  · exact .inr (.inr (.inr (.inl ⟨hp, rfl, rfl, rfl⟩)))
  · obtain ⟨out, q, off, tot, rfl⟩ := pumpOneByte_frame hs
    exact .inr (.inr (.inr (.inr ⟨hp, rfl, rfl, _, rfl⟩)))

/-- Settles O45: it holds, by cases on whose turn it is, on the phase and on the command taken. -/
theorem oneResponsePerCommand : Obligations.OneResponsePerCommand := by
  unfold Obligations.OneResponsePerCommand
  intro s t h
  exact step_induct (P := PhaseMove) (fun _ _ _ hp => hp) (fun _ _ ht => sequencerTurn_phaseMove ht)
    (fun _ _ _ _ => .inl ⟨rfl, rfl, rfl⟩) h

/-! ## The channel's moves (R46, R228) -/

/-- Settles O13: it holds, since a turn of the machine looks at the channel's next move before PHASE. -/
theorem channelMayStepAnytime : Obligations.ChannelMayStepAnytime := by
  unfold Obligations.ChannelMayStepAnytime
  intro s moves
  refine ⟨fun bs h => ?_, fun n h => ?_⟩
  · simp [step, turn, h]
  · simp [step, turn, h]

end Sys2Proof.Machine
end

section
/-! PROOFS. The words of commands and responses as bytes (spec/30_encoding.md R62, R92, D22). -/

namespace Sys2Proof.Machine

/-! ## A word's bytes, and what follows them -/

/-- Byte k of a word is its bits [8k+7 : 8k], whatever bytes follow the word (R62). -/
theorem wordBytes_append_getElem? (w : Word) (data : List Byte) {k : Nat} (hk : k < 4) :
    (wordBytes w ++ data)[k]? = some (w.extractLsb' (8 * k) 8) := by
  match k, hk with
  | 0, _ => rfl
  | 1, _ => rfl
  | 2, _ => rfl
  | 3, _ => rfl

theorem wordBytes_append_drop (w : Word) (data : List Byte) : (wordBytes w ++ data).drop 4 = data := rfl

/-! ## Reading a response back -/

/-- A response with LEN bytes of data is the one at the head of its bytes (R92, R101). -/
theorem Response.ofBytes_toBytes_append (r : Response) (rest : List Byte) (hlen : r.data.length = responseLen r.word) :
    Response.ofBytes (r.toBytes ++ rest) = some (r, rest) := by
  have hfits : responseLen r.word ≤ (r.data ++ rest).length := by
    rw [List.length_append, hlen]
    exact Nat.le_add_right _ _
  simp only [Response.toBytes, wordBytes, List.cons_append, List.nil_append, Response.ofBytes, wordOfBytes_extract,
    if_pos hfits, List.take_left' hlen, List.drop_left' hlen]

/-! ## The bytes of a response word -/

/-- A response word has a header's fields: STATUS, READY and LEN in the places of OPC, CK and ARG (R91, R92). -/
theorem responseWord_eq_headerOf (st : Status) (ready : Bool) (len : Nat) :
    responseWord st ready len = headerOf st.code ready (BitVec.ofNat 16 len) := rfl

/-- The bytes of a response word: STATUS, READY, then LEN, least significant byte first (R62, R92). -/
theorem wordBytes_responseWord (st : Status) (ready : Bool) (len : Nat) :
    wordBytes (responseWord st ready len) =
      [st.code, BitVec.ofNat 8 ready.toNat, BitVec.ofNat 8 (len % 256), BitVec.ofNat 8 (len / 256)] := by
  have hcode := st.code.isLt
  have hready := ready.toNat_lt
  simp only [wordBytes, List.cons.injEq, and_true]
  refine ⟨?_, ?_, ?_, ?_⟩ <;> apply BitVec.eq_of_toNat_eq <;>
    simp only [responseWord_eq_headerOf, BitVec.extractLsb'_toNat, Nat.shiftRight_eq_div_pow, headerOf_toNat,
      BitVec.toNat_ofNat] <;> omega

/-- The bytes of a response given by its fields. -/
theorem Response.toBytes_responseWord (st : Status) (ready : Bool) (len : Nat) (data : List Byte) :
    (⟨responseWord st ready len, data⟩ : Response).toBytes =
      [st.code, BitVec.ofNat 8 ready.toNat, BitVec.ofNat 8 (len % 256), BitVec.ofNat 8 (len / 256)] ++ data :=
  congrArg (· ++ data) (wordBytes_responseWord st ready len)

/-- Settles O55: it holds; a word is sent as its four bytes before the data, and LEN says where a response ends. -/
theorem responseBytesLittleEndian : Obligations.ResponseBytesLittleEndian := by
  unfold Obligations.ResponseBytesLittleEndian
  refine ⟨fun t k hk => wordBytes_append_getElem? t.header t.data hk, fun t => wordBytes_append_drop t.header t.data,
    fun r k hk => wordBytes_append_getElem? r.word r.data hk, fun r => wordBytes_append_drop r.word r.data,
    fun r rest hgood => ?readBack, Response.toBytes_responseWord .ok false 0 [],
    Response.toBytes_responseWord .ok true 0 [], Response.toBytes_responseWord .queueFull false 0 [],
    Response.toBytes_responseWord .messageTooLarge false 0 [],
    Response.toBytes_responseWord .illegalCommand false 0 [],
    Response.toBytes_responseWord .notInitialized false 0 [],
    fun m _ => Response.toBytes_responseWord .ok false m.length m⟩
  case readBack =>
    obtain ⟨-, -, -, hlen⟩ := hgood
    exact Response.ofBytes_toBytes_append r rest hlen

end Sys2Proof.Machine
end

section
/-! PROOFS. Encoding and decoding of host commands (spec/30_encoding.md R90 to R99): the decoder and the encoder undo
each other, the header formulas, the opcode map, and the illegal commands with their answer. -/

namespace Sys2Proof

open Sys2Proof.Machine

/-! ## Headers from their fields (R91) -/

theorem headerCk_headerOf (opc : Byte) (ck : Bool) (arg : Half) : headerCk (headerOf opc ck arg) = ck := by
  simp only [headerCk, headerOf, BitVec.getLsbD_append]
  simp

/-- A header as R94 to R98 write it: OPC, CK shifted left by 8 and ARG shifted left by 16, or-ed together. -/
theorem headerOf_eq_or (opc : Byte) (ck : Bool) (arg : Half) :
    headerOf opc ck arg = opc.setWidth 32 ||| (BitVec.ofBool ck).setWidth 32 <<< 8 ||| arg.setWidth 32 <<< 16 := by
  apply BitVec.eq_of_getLsbD_eq
  intro i hi
  simp only [headerOf, BitVec.getLsbD_append, BitVec.getLsbD_or, BitVec.getLsbD_shiftLeft, BitVec.getLsbD_setWidth,
    BitVec.getLsbD_zero, BitVec.getLsbD_ofBool]
  have hbits : i < 8 ∨ i = 8 ∨ (8 < i ∧ i < 16) ∨ 16 ≤ i := by omega
  obtain h | rfl | h | h := hbits
  all_goals grind

/-! The numbers of the encoders' headers. -/

theorem headerOf_init_toNat (ck : Bool) : (headerOf 0x01 ck 0).toNat = 1 + 256 * ck.toNat := headerOf_toNat _ _ _

theorem headerOf_enqueue_toNat {n : Nat} (hn : n ≤ 65535) :
    (headerOf 0x03 false (BitVec.ofNat 16 n)).toNat = 3 + 65536 * n := by
  rw [headerOf_toNat, BitVec.toNat_ofNat, Nat.mod_eq_of_lt (by omega)]
  rfl

theorem headerOf_setHandler_toNat (hid : Half) : (headerOf 0x05 false hid).toNat = 5 + 65536 * hid.toNat :=
  headerOf_toNat _ _ _

/-! ## The round trips (R93 to R98) -/

/-- The decoder on bytes reads the transaction they are the bytes of. -/
theorem decodeBytes_toBytes (t : Transaction) : decodeBytes t.toBytes = decode t := by
  simp only [decodeBytes, ofBytes_toBytes]

/-- The host commands are the instructions with an encoding (R93). -/
theorem encode_eq_none_iff (i : Instr) : encode i = none ↔ i.isHostCommand = false := by
  cases i <;> simp [encode, Instr.isHostCommand]

/-- Decoding an encoded well-formed command gives it back. -/
theorem decode_encode {p : Params} {i : Instr} {t : Transaction} (hw : i.wellFormed p = true)
    (h : encode i = some t) : decode t = .ok i := by
  rw [decode_eq_ok]
  cases i <;> simp only [encode, reduceCtorEq, Option.some.injEq] at h <;> subst h
  case init ck bitrate =>
    have hnum : (headerOf 0x01 ck 0).toNat = 1 ∨ (headerOf 0x01 ck 0).toNat = 257 := by
      rw [headerOf_init_toNat]
      cases ck <;> decide
    exact .inl ⟨_, _, _, _, hnum, rfl, by rw [headerCk_headerOf, wordOfBytes_extract]⟩
  case tick => exact .inr (.inl ⟨rfl, rfl, rfl⟩)
  case enqueue m =>
    have hnum := headerOf_enqueue_toNat (of_decide_eq_true hw : m.length ≤ 65535)
    exact .inr (.inr (.inl ⟨by dsimp only; omega, by dsimp only; omega, rfl⟩))
  case getMessage => exact .inr (.inr (.inr (.inl ⟨rfl, rfl, rfl⟩)))
  case setHandler hid =>
    have hnum := headerOf_setHandler_toNat hid
    exact .inr (.inr (.inr (.inr ⟨by dsimp only; omega, rfl, by rw [headerArg_headerOf]⟩)))

/-- A transaction that decodes is the encoding of what it decodes to. -/
theorem encode_of_decode {t : Transaction} {i : Instr} (h : decode t = .ok i) : encode i = some t := by
  obtain ⟨header, data⟩ := t
  have hlt := header.isLt
  obtain ⟨b0, b1, b2, b3, hh, rfl, rfl⟩ | ⟨hh, rfl, rfl⟩ | ⟨hh, hlen, rfl⟩ | ⟨hh, rfl, rfl⟩ | ⟨hh, rfl, rfl⟩ :=
    decode_eq_ok.mp h
  all_goals
    dsimp only at hh
    simp only [encode, wordBytes_wordOfBytes, Option.some.injEq, Transaction.mk.injEq, and_true]
    apply BitVec.eq_of_toNat_eq
  case inl =>
    rw [headerOf_init_toNat, headerCk_toNat]
    omega
  case inr.inl => exact hh.symm
  case inr.inr.inl =>
    dsimp only at hlen
    rw [headerOf_enqueue_toNat (by omega)]
    omega
  case inr.inr.inr.inl => exact hh.symm
  case inr.inr.inr.inr =>
    rw [headerOf_setHandler_toNat, headerArg_toNat]
    omega

/-- Settles O4: it holds; each host command has an encoding, and the decoder's inversion lemma reads it back. -/
theorem decodeEncodeRoundTrip : Obligations.DecodeEncodeRoundTrip := by
  unfold Obligations.DecodeEncodeRoundTrip
  intro p i hw hhost
  have hsome : encode i ≠ none := by simp [encode_eq_none_iff, hhost]
  obtain ⟨t, ht⟩ := Option.ne_none_iff_exists'.mp hsome
  have hdec : decode t = .ok i := decode_encode hw ht
  exact ⟨t, ht, hdec, (decodeBytes_toBytes t).trans hdec⟩

/-- Settles O5: it holds, by the cases of what a transaction decodes to. -/
theorem encodeDecodeRoundTrip : Obligations.EncodeDecodeRoundTrip := by
  unfold Obligations.EncodeDecodeRoundTrip
  intro t i h
  exact encode_of_decode h

/-! ## The header formulas and the examples (R94 to R98) -/

/-- Settles O1: it holds, by running the decoder on the five examples. -/
theorem writtenWordsDecode : Obligations.WrittenWordsDecode := by
  unfold Obligations.WrittenWordsDecode
  decide

/-- Settles O2: it holds; each formula is the header that `encode` gives the command. -/
theorem headerFormulasDecode : Obligations.HeaderFormulasDecode := by
  unfold Obligations.HeaderFormulasDecode
  obtain ⟨hinit, htick, -, hget, hset⟩ := writtenWordsDecode
  refine ⟨fun ck bitrate => ?initFormula, decode_encode (p := Params.ex1) (i := .tick) rfl rfl,
    decode_encode (p := Params.ex1) (i := .getMessage) rfl rfl, fun hid => ?setHandlerFormula, hinit, htick, hget, hset⟩
  case initFormula =>
    refine decode_encode (p := Params.ex1) (i := .init ck bitrate) rfl ?_
    simp [encode, headerOf_eq_or, wordBytes]
  case setHandlerFormula =>
    refine decode_encode (p := Params.ex1) (i := .setHandler hid) rfl ?_
    simp [encode, headerOf_eq_or]

/-- R96's formula is the header that `encode` gives ENQUEUE. -/
theorem encode_enqueue {m : List Byte} (hlen : m.length ≤ 65535) :
    encode (.enqueue m) = some ⟨0x00000003#32 ||| (BitVec.ofNat 32 m.length <<< 16), m⟩ := by
  have hwide : BitVec.ofNat 32 m.length = (BitVec.ofNat 16 m.length).setWidth 32 := by
    apply BitVec.eq_of_toNat_eq
    simp
    omega
  simp [encode, headerOf_eq_or, hwide]

theorem decode_enqueue {m : List Byte} (hlen : m.length ≤ 65535) :
    decode ⟨0x00000003#32 ||| (BitVec.ofNat 32 m.length <<< 16), m⟩ = .ok (.enqueue m) :=
  decode_encode (p := Params.ex1) (decide_eq_true hlen) (encode_enqueue hlen)

/-- A message of C bytes or more is too large where the queue has room (R151, R152). -/
theorem enqueueStatus_tooLarge {m : List Byte} {s : State} (hroom : s.qsize ≠ s.params.Q)
    (hlen : s.params.C ≤ m.length) : enqueueStatus s m = .messageTooLarge := by
  rw [enqueueStatus, if_neg hroom, if_pos hlen]

/-- Settles O3: it holds; the formula is the encoder's header, and a message that does not fit is refused. -/
theorem enqueueEncodedUpToLenMax : Obligations.EnqueueEncodedUpToLenMax := by
  unfold Obligations.EnqueueEncodedUpToLenMax
  obtain ⟨-, -, hexample, -⟩ := writtenWordsDecode
  refine ⟨fun m hlen => ⟨decode_enqueue hlen, encode_enqueue hlen⟩, fun m s hlen hidle hinit hC hroom => ?tooLarge,
    hexample⟩
  case tooLarge =>
    have hst : enqueueStatus s m = .messageTooLarge := enqueueStatus_tooLarge hroom hC
    have henq : enqueue m s = .ok (.messageTooLarge, s) := hst ▸ enqueue_refused (by simp [hst])
    simp only [command, decode_enqueue hlen, exec, execEnqueue, hostCommand_runs _ hidle fun _ => hinit]
    simp only [enqueueCmd, henq, bind, Except.bind, outcome_ok]
    rfl

/-! ## The opcode map (R93) -/

/-- A row that a header selects is the row its OPC names. -/
theorem ofOpc_of_selects {op : HostOp} {h : Word} (hs : op.selects h = true) :
    HostOp.ofOpc (headerOpc h) = some op := by
  rw [ofOpc_eq_some, headerOpc_toNat]
  have hform := (selects_iff op h).mp hs
  cases op <;> dsimp only at hform ⊢ <;> omega

/-- Settles O6: it holds; a selected row is the one of the header's OPC, so there is one at most. -/
theorem opcodeMapUnambiguous : Obligations.OpcodeMapUnambiguous := by
  unfold Obligations.OpcodeMapUnambiguous
  refine ⟨rfl, rfl, rfl, rfl, rfl, rfl, rfl, rfl, rfl, rfl, rfl, rfl, rfl, rfl, rfl,
    fun h op op' hop hop' => ?unique, fun h op => beq_iff_eq, encode_eq_none_iff, fun t i => decode_isHostCommand⟩
  case unique => exact Option.some.inj ((ofOpc_of_selects hop).symm.trans (ofOpc_of_selects hop'))

/-! ## Illegal commands (R99, R192, R216) -/

/-- Operand bytes of a row's length make a command (R90). -/
theorem HostOp.build_ok (op : HostOp) (h : Word) (data : List Byte) (hlen : data.length = op.operandLength h) :
    ∃ i, op.build h data = .ok i := by
  cases op
  case init =>
    obtain ⟨b0, b1, b2, b3, rfl⟩ := List.length_eq_four.mp hlen
    exact ⟨_, rfl⟩
  all_goals exact ⟨_, rfl⟩

/-- The transactions that do not decode: an OPC of no row, a header its row does not select, or operand data of
another length than the row's (R99). -/
theorem decode_eq_error {t : Transaction} :
    (∃ r, decode t = .error r) ↔
      HostOp.ofOpc (headerOpc t.header) = none ∨
        ∃ op, HostOp.ofOpc (headerOpc t.header) = some op ∧
          (t.header &&& op.mask ≠ op.pattern ∨ t.data.length ≠ op.operandLength t.header) := by
  unfold decode
  cases HostOp.ofOpc (headerOpc t.header) with
  | none => simp
  | some op =>
    by_cases hs : op.selects t.header = true
    · by_cases hlen : t.data.length = op.operandLength t.header
      · obtain ⟨i, hi⟩ := op.build_ok t.header t.data hlen
        have hmask : t.header &&& op.mask = op.pattern := beq_iff_eq.mp hs
        simp [hs, hlen, hi, hmask]
      · simp [hs, hlen]
    · have hmask : t.header &&& op.mask ≠ op.pattern := mt beq_iff_eq.mpr hs
      simp [hs, hmask]

/-- The rows whose operand length differs from the data's, by OPC and length (R90, R99). -/
theorem operandLength_ne_iff {t : Transaction} :
    (∃ op, HostOp.ofOpc (headerOpc t.header) = some op ∧ t.data.length ≠ op.operandLength t.header) ↔
      (t.header.toNat % 256 = 1 ∧ t.data.length ≠ 4) ∨
      (t.header.toNat % 256 = 3 ∧ t.data.length ≠ t.header.toNat / 65536) ∨
      ((t.header.toNat % 256 = 2 ∨ t.header.toNat % 256 = 4 ∨ t.header.toNat % 256 = 5) ∧ t.data ≠ []) := by
  simp only [ofOpc_eq_some, headerOpc_toNat, ← headerArg_toNat, ← List.length_pos_iff]
  constructor
  · rintro ⟨op, hopc, hlen⟩
    cases op <;> simp only [HostOp.operandLength] at hopc hlen <;> omega
  · rintro (⟨hopc, hlen⟩ | ⟨hopc, hlen⟩ | ⟨hopc | hopc | hopc, hlen⟩)
    · exact ⟨.init, hopc, hlen⟩
    · exact ⟨.enqueue, hopc, hlen⟩
    · exact ⟨.tick, hopc, hlen.ne'⟩
    · exact ⟨.getMessage, hopc, hlen.ne'⟩
    · exact ⟨.setHandler, hopc, hlen.ne'⟩

/-- Settles O7: it holds; the three reasons of the decoder are R99's three cases, and each has the one answer. -/
theorem illegalCommandsAnswered : Obligations.IllegalCommandsAnswered := by
  unfold Obligations.IllegalCommandsAnswered
  refine ⟨fun t => ?illegal, fun t r s h => ?answered⟩
  case illegal =>
    rw [decode_eq_error, ofOpc_eq_none, headerOpc_toNat, ← operandLength_ne_iff]
    simp only [and_or_left, exists_or]
  case answered =>
    rw [command, h]
    rfl

end Sys2Proof
end

section
/-! PROOFS. The response word (spec/30_encoding.md R92, R100), the responses that steps give, and the textual report of
a checksum byte (R89). -/

namespace Sys2Proof.Machine

/-! ## The fields of a response word (R92, R100) -/

/-- Settles O8: it holds, since a response word has a header's fields. -/
theorem responseWordFields : Obligations.ResponseWordFields := by
  unfold Obligations.ResponseWordFields
  intro st ready len hlen
  rw [responseWord_eq_headerOf]
  have harg : headerArg (headerOf st.code ready (BitVec.ofNat 16 len)) = BitVec.ofNat 16 len := headerArg_headerOf _ _ _
  refine ⟨headerOpc_headerOf _ _ _, headerCk_headerOf _ _ _, headerRsvd_headerOf _ _ _, ?_⟩
  change (headerArg _).toNat = len
  rw [harg, BitVec.toNat_ofNat, Nat.mod_eq_of_lt (by omega)]

/-! ## The responses given (R92, R100) -/

theorem Status.code_le (st : Status) : st.code.toNat ≤ 4 := by cases st <;> decide

/-- A response of LEN bytes of data, READY with OK only, has R92's form. -/
theorem goodResponse_responseWord {st : Status} {ready : Bool} {data : List Byte} (hready : ready = true → st = .ok)
    (hlen : data.length ≤ 65535) : GoodResponse ⟨responseWord st ready data.length, data⟩ := by
  obtain ⟨hst, hrdy, hzero, hl⟩ := responseWordFields st ready data.length hlen
  refine ⟨?_, fun h => ?_, hzero, hl.symm⟩
  · rw [hst]
    exact st.code_le
  · rw [hst, hready (hrdy.symm.trans h)]
    rfl

/-- Every response given so far has R92's form. -/
def ResponsesGood (s : State) : Prop := ∀ r ∈ s.responses, GoodResponse r

theorem ResponsesGood.respond {s : State} (h : ResponsesGood s) {st : Status} {ready : Bool} {data : List Byte}
    (hready : ready = true → st = .ok) (hlen : data.length ≤ 65535) :
    ResponsesGood (s.respond st ready data.length data) := by
  intro r hr
  obtain hr | hr := List.mem_append.mp hr
  · exact h r hr
  · obtain rfl := List.mem_singleton.mp hr
    exact goodResponse_responseWord hready hlen

theorem ResponsesGood.answer {s : State} (h : ResponsesGood s) (st : Status) : ResponsesGood (s.answer st) :=
  h.respond (data := []) nofun (Nat.zero_le _)

/-- The Message's length fits LEN (R9, R27). -/
theorem Inv.msgLen_le {s : State} (h : Inv s) : s.msgLen ≤ 65535 := by
  obtain ⟨-, hC, -⟩ := h.legal
  have := h.msg.bound
  omega

/-- A host command (R180): every one but a running TICK gives one response, GET_MESSAGE's with the Message. -/
theorem command_keepsResponsesGood {c : Transaction} {s t : State} (hmsg : s.msgLen ≤ 65535) (hr : ResponsesGood s)
    (h : command c s = .next t) : ResponsesGood t := by
  obtain ⟨st, rfl, -⟩ | ⟨ck, bitrate, -, rfl⟩ | ⟨-, -, rfl⟩ | ⟨m, st, mem, q, n, -, -, -, -, -, rfl⟩ |
    ⟨d, -, -, hd, rfl⟩ | ⟨hid, -, -, rfl⟩ := command_cases h
  case inr.inr.inl => exact hr
  case inr.inr.inr.inr.inl =>
    obtain ⟨hlen, -⟩ := msgRead_eq_ok.mp hd
    rw [← hlen]
    exact hr.respond nofun (hlen ▸ hmsg)
  all_goals exact ResponsesGood.answer hr _

/-- A step of the sequencer, in each phase (R181): TICK's response comes with OK. -/
theorem sequencerTurn_keepsResponsesGood {s t : State} (hmsg : s.msgLen ≤ 65535) (hr : ResponsesGood s)
    (h : sequencerTurn s = .next t) : ResponsesGood t := by
  obtain ⟨-, -, rfl⟩ | ⟨-, c, rest, -, hc⟩ | ⟨-, -, b, rest, -, hb⟩ | ⟨-, -, rfl⟩ | ⟨-, s1, hs, rfl⟩ :=
    sequencerTurn_cases h
  · exact hr
  · exact command_keepsResponsesGood (s := { s with hostQ := rest }) hmsg hr hc
  · obtain ⟨rx, i, len, msg, ev, ready, ovf, mem, q, n, rfl⟩ := consumeByte_frame hb
    exact hr
  · exact hr
  · obtain ⟨out, q, off, tot, rfl⟩ := pumpOneByte_frame hs
    exact ResponsesGood.respond (data := []) hr (fun _ => rfl) (Nat.zero_le _)

/-- Settles O40: it holds, by cases on whose turn it is; the invariant bounds the length of GET_MESSAGE's data. -/
theorem responsesStayWellFormed : Obligations.ResponsesStayWellFormed := by
  unfold Obligations.ResponsesStayWellFormed
  intro s t hi hr h
  exact step_induct (P := fun s t => s.msgLen ≤ 65535 → ResponsesGood s → ResponsesGood t)
    (fun _ _ _ hp => hp) (fun _ _ ht hmsg hr => sequencerTurn_keepsResponsesGood hmsg hr ht)
    (fun _ _ _ _ _ hr => hr) h hi.msgLen_le hr

/-! ## The textual report of a checksum byte (R89) -/

/-- A function from bytes to byte strings as a CK_TEXT table: row k is the string of byte k. -/
def reportTable (f : Byte → List Byte) : CkFormat :=
  .table ((List.range 256).map fun k => f (BitVec.ofNat 8 k))

theorem reportTable_total (f : Byte → List Byte) : (reportTable f).total = true := by
  simp [reportTable, CkFormat.total]

theorem ckText_reportTable (f : Byte → List Byte) (rx : Byte) : ckText (reportTable f) rx = f rx := by
  have hrow : rx.toNat < 256 := rx.isLt
  simp [ckText, reportTable, List.getD, hrow]

/-- The ASCII code of a decimal digit (R19). -/
theorem digit_toNat {k : Nat} (hk : k < 10) : (digit k).toNat = 0x30 + k := by
  rw [digit, BitVec.toNat_ofNat, Nat.mod_eq_of_lt (by omega)]

theorem digit_bounds {k : Nat} (hk : k < 10) : 0x30 ≤ (digit k).toNat ∧ (digit k).toNat ≤ 0x39 := by
  rw [digit_toNat hk]
  omega

/-- Only the digit 0 is written '0'. -/
theorem eq_zero_of_digit {k : Nat} (hk : k < 10) (h : digit k = 0x30) : k = 0 := by
  have hcode : (digit k).toNat = 0x30 := congrArg BitVec.toNat h
  rw [digit_toNat hk] at hcode
  omega

/-- The default report in its three lengths: the digits of the number, the first of them not 0 unless it is the only
one (R89). -/
theorem decimalText_cases (rx : Byte) :
    (∃ a < 10, rx.toNat = a ∧ decimalText rx = [digit a]) ∨
      (∃ a < 10, ∃ b < 10, a ≠ 0 ∧ rx.toNat = 10 * a + b ∧ decimalText rx = [digit a, digit b]) ∨
      ∃ a < 10, ∃ b < 10, ∃ c < 10, a ≠ 0 ∧ rx.toNat = 10 * (10 * a + b) + c ∧
        decimalText rx = [digit a, digit b, digit c] := by
  have hlt := rx.isLt
  unfold decimalText
  dsimp only
  split_ifs with h1 h2
  · exact .inl ⟨_, h1, rfl, rfl⟩
  · exact .inr (.inl ⟨_, by omega, _, by omega, by omega, by omega, rfl⟩)
  · exact .inr (.inr ⟨_, by omega, _, by omega, _, by omega, by omega, by omega, rfl⟩)

/-- Settles O9: it holds; a table has any total function's rows, and the default has the number's decimal digits. -/
theorem reportTextIsDecimalByDefault : Obligations.ReportTextIsDecimalByDefault := by
  unfold Obligations.ReportTextIsDecimalByDefault
  refine ⟨fun f => ⟨reportTable f, reportTable_total f, ckText_reportTable f⟩, fun rx => ?decimal, rfl, rfl, rfl⟩
  case decimal =>
    simp only [ckText]
    obtain ⟨a, ha, hrx, htext⟩ | ⟨a, ha, b, hb, hne, hrx, htext⟩ | ⟨a, ha, b, hb, c, hc, hne, hrx, htext⟩ :=
      decimalText_cases rx <;> rw [htext]
    · refine ⟨by simp [digit_toNat ha, hrx], by simp [digit_bounds ha], by simp, by simp, fun h => ?_⟩
      have hzero : a = 0 := eq_zero_of_digit ha (Option.some.inj h)
      exact BitVec.eq_of_toNat_eq (hrx.trans hzero)
    · exact ⟨by simp [digit_toNat ha, digit_toNat hb, hrx], by simp [digit_bounds ha, digit_bounds hb], by simp,
        by simp, fun h => absurd (eq_zero_of_digit ha (Option.some.inj h)) hne⟩
    · exact ⟨by simp [digit_toNat ha, digit_toNat hb, digit_toNat hc, hrx],
        by simp [digit_bounds ha, digit_bounds hb, digit_bounds hc], by simp, by simp,
        fun h => absurd (eq_zero_of_digit ha (Option.some.inj h)) hne⟩

end Sys2Proof.Machine
end

section
/-! PROOFS. The checksum (spec/40_checksum.md R110 to R112): the sum of a byte string in the group of bytes under
wraparound addition, from which the laws and the limits of detection follow. -/

namespace Sys2Proof.Machine

/-! ## The checksum as a sum of bytes (R110) -/

theorem checksum_eq_sum (s : List Byte) : checksum s = s.sum :=
  List.sum_eq_foldl.symm

@[simp] theorem checksum_nil : checksum [] = 0 := rfl

@[simp] theorem checksum_cons (b : Byte) (s : List Byte) : checksum (b :: s) = b + checksum s := by
  simp only [checksum_eq_sum, List.sum_cons]

@[simp] theorem checksum_append (s t : List Byte) : checksum (s ++ t) = checksum s + checksum t := by
  simp only [checksum_eq_sum, List.sum_append]

/-- Wraparound at each byte is the remainder of the whole sum. -/
theorem checksum_toNat (s : List Byte) : (checksum s).toNat = (s.map BitVec.toNat).sum % 256 := by
  induction s with
  | nil => rfl
  | cons b s ih => rw [checksum_cons, BitVec.toNat_add, ih, List.map_cons, List.sum_cons, Nat.add_mod_mod]

theorem checksum_perm {s t : List Byte} (h : s.Perm t) : checksum s = checksum t := by
  rw [checksum_eq_sum, checksum_eq_sum, h.sum_eq]

/-- CHECKSUM writes its result and nothing else. -/
theorem exec_checksum (l : List Byte) (s : State) :
    exec (.checksum l) s = .next { s with ckResult := checksum l } := rfl

/-- Settles O24: it holds; the byte that CHECKSUM writes is the sum modulo 256. -/
theorem checksumIsSumMod256 : Obligations.ChecksumIsSumMod256 := by
  unfold Obligations.ChecksumIsSumMod256
  exact fun l s => ⟨checksum l, checksum_toNat l, exec_checksum l s⟩

/-! ## The laws (R111) -/

/-- The byte that completes a string to checksum 0 is the negation of the string's checksum. -/
theorem ofNat_complement_eq_neg (c : Byte) : BitVec.ofNat 8 ((256 - c.toNat) % 256) = -c := by
  apply BitVec.eq_of_toNat_eq
  rw [BitVec.toNat_ofNat, BitVec.toNat_neg, Nat.mod_mod]

/-- 256 equal bytes sum to a multiple of 256. -/
theorem checksum_replicate_256 (b : Byte) : checksum (List.replicate 256 b) = 0 := by
  apply BitVec.eq_of_toNat_eq
  rw [checksum_toNat, List.map_replicate, List.sum_replicate, smul_eq_mul, Nat.mul_mod_right]
  rfl

/-- Settles O33: it holds, by the rules of a sum in the group of bytes. -/
theorem checksumLaws : Obligations.ChecksumLaws := by
  unfold Obligations.ChecksumLaws
  refine ⟨checksum_nil, checksum_append, fun s t => checksum_perm, fun s => ?complement, fun s b => ?replicate,
    checksum_toNat⟩
  case complement =>
    rw [ofNat_complement_eq_neg, checksum_append, checksum_cons, checksum_nil, add_zero, add_neg_cancel]
  case replicate => rw [checksum_append, checksum_replicate_256, add_zero]

/-! ## The limits of detection (R112) -/

/-- Settles O34: it holds; addition of bytes cancels, so one changed byte changes the sum, and a change that adds 0 does
not. -/
theorem checksumDetectionLimits : Obligations.ChecksumDetectionLimits := by
  unfold Obligations.ChecksumDetectionLimits
  refine ⟨fun s t b c hne => ?changedByte, fun s t => ?zeroByte, fun s t => checksum_perm,
    fun s t u b c d => ?cancellingChanges⟩
  case changedByte =>
    simp only [checksum_append, checksum_cons]
    exact fun heq => hne (add_right_cancel (add_left_cancel heq))
  case zeroByte => rw [checksum_append, checksum_append, checksum_cons, zero_add]
  case cancellingChanges =>
    simp only [checksum_append, checksum_cons]
    ring

end Sys2Proof.Machine
end

section
/-! PROOFS. The receive path (spec/41_rx_assembler.md): ENQUEUE_DIAG and DELIVER (R132, R133), the cases of CONSUME_BYTE
(R121 to R126), and what a sequence of bytes from the wire leaves (R125, R127). -/

namespace Sys2Proof.Machine

/-! ## Sequences of instructions -/

theorem exec_consumeByte {b : Byte} {s t : State} (h : consumeByte b s = .ok t) : exec (.consumeByte b) s = .next t :=
  congrArg outcome h

theorem exec_deliver {p : List Byte} {s t : State} (h : deliver p s = .ok t) : exec (.deliver p) s = .next t :=
  congrArg outcome h

theorem exec_enqueueDiag {m : List Byte} {s t : State} (h : enqueueDiag m s = .ok t) :
    exec (.enqueueDiag m) s = .next t :=
  congrArg outcome h

/-- A sequence goes on from the state its first instruction leaves. -/
theorem execAll_cons {i : Instr} {s t : State} (h : exec i s = .next t) (rest : List Instr) :
    execAll (i :: rest) s = execAll rest t := by
  simp only [execAll, h]

/-- One instruction more at the end of a sequence. -/
theorem execAll_concat {is : List Instr} {i : Instr} {s t u : State} (his : execAll is s = .next t)
    (hi : exec i t = .next u) : execAll (is ++ [i]) s = .next u := by
  induction is generalizing s with
  | nil =>
    obtain rfl := Host.Outcome.next.inj his
    exact execAll_cons hi []
  | cons j is ih =>
    cases hj : exec j s with
    | next v =>
      rw [execAll_cons hj] at his
      exact (execAll_cons hj _).trans (ih his)
    | fault f => simp [execAll, hj] at his
    | refused r => simp [execAll, hj] at his

/-! ## ENQUEUE_DIAG (R133) -/

/-- A read of a slot depends on the parameters and on the one byte of `slots` that it reads. -/
theorem slotLoad_congr {s t : State} {q k : Nat} (hp : t.params = s.params)
    (h : q < s.params.Q → k < s.params.C →
      Memory.peek t.slots (q * s.params.C + k) = Memory.peek s.slots (q * s.params.C + k)) :
    t.slotLoad q k = s.slotLoad q k := by
  unfold State.slotLoad slotBase Memory.load
  rw [hp]
  by_cases hq : q < s.params.Q
  · by_cases hk : k < s.params.C
    · simp only [hq, hk, if_true, bind, Except.bind, h hq hk]
    · simp only [hq, hk, if_true, if_false, bind, Except.bind]
  · simp only [hq, if_false, bind, Except.bind]

/-- A refused diagnostic changes nothing. -/
theorem enqueueDiag_refused {m : List Byte} {s : State} (h : enqueueStatus s m ≠ .ok) : enqueueDiag m s = .ok s := by
  rw [enqueueDiag_eq, enqueue_refused h]
  rfl

/-- An accepted diagnostic stands in SLOT[SLOT_NEXT]; every other slot byte reads as before. -/
theorem enqueueDiag_accepts {m : List Byte} {s : State} (hq : QueueInv s) (h : enqueueStatus s m = .ok) :
    ∃ mem, enqueueDiag m s = .ok (acceptedState s m mem) ∧
      (∀ k (h : k < m.length), ({ s with slots := mem } : State).slotLoad s.slotNext k = .ok m[k]) ∧
      (∀ q k, ¬(q = s.slotNext ∧ k < m.length) →
        ({ s with slots := mem } : State).slotLoad q k = s.slotLoad q k) := by
  have hlen := (enqueueStatus_eq_ok.mp h).2
  obtain ⟨mem, heq, hnew, hkeep, -, -⟩ := enqueue_accepts hq h
  refine ⟨mem, by rw [enqueueDiag_eq, heq]; rfl, fun k hk => ?written,
    fun q k hqk => slotLoad_congr rfl fun _ hkC => ?kept⟩
  case written => exact slotLoad_eq_ok.mpr ⟨hq.next, Nat.lt_trans hk hlen, hnew k hk⟩
  case kept =>
    by_cases hqn : q = s.slotNext
    · have hk : m.length ≤ k := Nat.le_of_not_lt fun hk => hqk ⟨hqn, hk⟩
      exact hkeep _ (.inr (hqn ▸ Nat.add_le_add_left hk _))
    · have hne : ∀ j < s.params.C, q * s.params.C + k ≠ s.slotNext * s.params.C + j :=
        fun j hj => slot_index_ne hqn hkC hj
      refine hkeep _ (or_iff_not_imp_left.mpr fun hge => Nat.le_of_not_lt fun hlt => ?_)
      exact hne (q * s.params.C + k - s.slotNext * s.params.C) (by omega) (by omega)

/-- Settles O23: it holds; a diagnostic is refused as an ENQUEUE is, and an accepted one is copied into its own slot. -/
theorem enqueueDiagResult : Obligations.EnqueueDiagResult := by
  unfold Obligations.EnqueueDiagResult
  refine fun m s hi => ⟨fun hfull => ?refused, fun hroom hlen => ?accepted⟩
  case refused =>
    have hst : enqueueStatus s m ≠ .ok := fun hst => by
      obtain ⟨hQ, hC⟩ := enqueueStatus_eq_ok.mp hst
      omega
    exact exec_enqueueDiag (enqueueDiag_refused hst)
  case accepted =>
    obtain ⟨mem, heq, hloads⟩ := enqueueDiag_accepts hi.queue (enqueueStatus_eq_ok.mpr ⟨Nat.ne_of_lt hroom, hlen⟩)
    exact ⟨mem, exec_enqueueDiag heq, hloads⟩

/-! ## DELIVER (R132) -/

theorem deliveredState_eq (s : State) (p : List Byte) (mem : Memory) :
    deliveredState s p mem = { s with
      msgLen := p.length, msgBuf := mem, ready := true
      deliv := if s.handlerValid = true then s.deliv ++ [⟨s.handlerId, p⟩] else s.deliv } := by
  rw [← append_deliveryEvents]
  rfl

/-- DELIVER of a payload that fits, with what MSG_BUF reads afterwards. -/
theorem deliver_loads {p : List Byte} {s : State} (hp : p.length + 2 ≤ s.params.C) :
    ∃ mem, deliver p s = .ok (deliveredState s p mem) ∧
      (∀ k (h : k < p.length), ({ s with msgBuf := mem } : State).msgLoad k = .ok p[k]) ∧
      (∀ k, p.length ≤ k → ({ s with msgBuf := mem } : State).msgLoad k = s.msgLoad k) := by
  have hfit : p.length ≤ s.params.C - 2 := Nat.le_sub_of_add_le hp
  obtain ⟨mem, heq, hnew, hkeep, -, -⟩ := deliver_spec p s hfit
  refine ⟨mem, heq, fun k hk => msgLoad_eq_ok.mpr ⟨Nat.lt_of_lt_of_le hk hfit, hnew k hk⟩, fun k hk => ?_⟩
  simp only [State.msgLoad, Memory.load, Nat.zero_add, hkeep k hk]

/-- Settles O25: it holds; DELIVER is one write into MSG_BUF from index 0, within its bounds. -/
theorem deliverResult : Obligations.DeliverResult := by
  unfold Obligations.DeliverResult
  intro p s hp
  obtain ⟨mem, heq, hloads⟩ := deliver_loads hp
  exact ⟨mem, exec_deliver (deliveredState_eq s p mem ▸ heq), hloads⟩

/-! ## CONSUME_BYTE within a frame (R121) and at its capacity (R125) -/

/-- Settles O26: it holds, by the case of CONSUME_BYTE that extends the frame. -/
theorem consumeByteExtendsFrame : Obligations.ConsumeByteExtendsFrame := by
  unfold Obligations.ConsumeByteExtendsFrame
  intro l b s _ hf hb hlen
  obtain ⟨heq, hext⟩ := consumeByte_extends hf hlen hb
  exact ⟨(storedState s b).rxBuf, exec_consumeByte heq, hext, fun k hk => stored_load_other b hk⟩

/-- The stored byte, RX_I and OVF_TICK do not concern the transmit side. -/
theorem TxGood.stored {s : State} (h : TxGood s) (b : Byte) (hi : s.rxI < s.params.C) (i : Nat) (ovf : Bool) :
    TxGood { storedState s b with rxI := i, ovfTick := ovf } :=
  ⟨{ stored_memoryInv b h.memory hi with }, { h.queue with }, h.cursor⟩

/-- RxOverflow: RX_I and OVF_TICK are written, and one ENQUEUE_DIAG of the notice runs (R125, R214). -/
theorem consumeByte_overflow_good {s : State} {l : List Byte} {b : Byte} (hf : FrameSoFar s l) (htx : TxGood s)
    (hlen : l.length + 1 = s.params.C) (hb : ¬(l.getLast? = some s.params.termA ∧ b = s.params.termB)) :
    ∃ t, consumeByte b s = .ok t ∧
      enqueueDiag s.params.overflowNotice { storedState s b with rxI := 0, ovfTick := true } = .ok t ∧
      (∃ mem q n, t = { storedState s b with rxI := 0, ovfTick := true, slots := mem, qent := q, slotNext := n }) ∧
      ∀ ms, Queued s ms → Queued t (afterDiag s ms s.params.overflowNotice) := by
  have hlt : s.rxI < s.params.C := by rw [hf.index]; omega
  obtain ⟨mem, q, n, heq, -, hms⟩ := enqueueDiag_good s.params.overflowNotice (htx.stored b hlt 0 true)
  exact ⟨_, (consumeByte_overflows hf hlen hb).trans heq, heq, ⟨mem, q, n, rfl⟩, hms⟩

/-- Settles O27: it holds; the notice's ENQUEUE_DIAG writes only `slots`, `qent` and `slotNext`. -/
theorem consumeByteOverflows : Obligations.ConsumeByteOverflows := by
  unfold Obligations.ConsumeByteOverflows
  intro l b s hi hf hb hlen
  obtain ⟨t, heq, hdiag, ⟨mem, q, n, rfl⟩, hms⟩ := consumeByte_overflow_good hf hi.txGood hlen hb
  exact ⟨(storedState s b).rxBuf, _, exec_consumeByte heq, exec_enqueueDiag hdiag, fun k hk => stored_load_other b hk,
    stored_load_self b hi.rx.index, rfl, rfl, rfl, rfl, rfl, rfl, hms⟩

/-! ## CONSUME_BYTE at a boundary that delivers (R122 to R124, R126) -/

/-- `PayloadOf ck body p`: with CFG_CK = ck, a frame whose bytes before TERM_A are `body` delivers p. -/
inductive PayloadOf : Bool → List Byte → List Byte → Prop
  /-- the unchecked path (R124, R126) -/
  | unchecked {ck : Bool} {p : List Byte} (h : ck = false ∨ p.length ≤ 1) : PayloadOf ck p p
  /-- the checked path with an equal sum (R123) -/
  | checked {p : List Byte} (h : p ≠ []) : PayloadOf true (p ++ [checksum p]) p

theorem PayloadOf.length_le {ck : Bool} {body p : List Byte} (h : PayloadOf ck body p) : p.length ≤ body.length := by
  cases h with
  | unchecked _ => exact Nat.le_refl _
  | checked _ => simp

/-- The payload of a wire frame, read from the bytes before TERM_A (R80). -/
theorem payloadOf_wireFrame {ck : Bool} {p : List Byte} (hne : ck = true → p ≠ []) :
    PayloadOf ck (p ++ if ck then [checksum p] else []) p := by
  cases ck with
  | false => simpa using PayloadOf.unchecked (.inl rfl)
  | true => exact .checked (hne rfl)

/-- Closing a frame delivers its payload. -/
theorem closeFrame_delivers {s : State} {body p : List Byte} {a : Byte} (h : PayloadOf s.cfgCk body p)
    (hs : s.rxSlice (body.length + 1) = .ok (body ++ [a])) : closeFrame (body.length + 1) s = deliver p s := by
  generalize hck : s.cfgCk = ck at h
  cases h with
  | unchecked h => exact closeFrame_unchecked hs (hck ▸ h)
  | checked hne =>
    rw [List.length_append, List.append_assoc] at hs
    rw [List.length_append]
    exact (closeFrame_checked hs hck hne).trans (if_pos rfl)

/-- TERM_B after TERM_A, where the frame has a payload to deliver: the frame is closed by its DELIVER. -/
theorem consumeByte_delivers {s : State} {body p : List Byte} (hf : FrameSoFar s (body ++ [s.params.termA]))
    (hlt : s.rxI < s.params.C) (hp : PayloadOf s.cfgCk body p) :
    ∃ msg, consumeByte s.params.termB s
        = .ok { deliveredState s p msg with rxBuf := (storedState s s.params.termB).rxBuf, rxI := 0 } ∧
      (∀ k (h : k < p.length), ({ s with msgBuf := msg } : State).msgLoad k = .ok p[k]) ∧
      (∀ k, p.length ≤ k → ({ s with msgBuf := msg } : State).msgLoad k = s.msgLoad k) := by
  have hi : s.rxI = body.length + 1 := by simpa using hf.index
  have hslice : (storedState s s.params.termB).rxSlice (body.length + 1) = .ok (body ++ [s.params.termA]) := by
    simpa using rxSlice_append (r := [s.params.termB]) (hf.stored s.params.termB hlt)
  have hfit : p.length + 2 ≤ s.params.C := by have := hp.length_le; omega
  obtain ⟨msg, heq, hloads⟩ := deliver_loads (s := storedState s s.params.termB) hfit
  refine ⟨msg, ?_, hloads⟩
  rw [consumeByte_boundary hf hlt, hi, closeFrame_delivers (s := storedState s s.params.termB) hp hslice, heq]
  rfl

/-- The same, as a whole next state with what RX_BUF and MSG_BUF read in it. -/
theorem exec_consumeByte_delivers {s : State} {body p : List Byte} (hf : FrameSoFar s (body ++ [s.params.termA]))
    (hlt : s.rxI < s.params.C) (hp : PayloadOf s.cfgCk body p) :
    ∃ rx msg, exec (.consumeByte s.params.termB) s = .next { s with
        rxBuf := rx, rxI := 0, msgLen := p.length, msgBuf := msg, ready := true
        deliv := if s.handlerValid = true then s.deliv ++ [⟨s.handlerId, p⟩] else s.deliv } ∧
      (∀ k (h : k < p.length), ({ s with msgBuf := msg } : State).msgLoad k = .ok p[k]) ∧
      (∀ k, p.length ≤ k → ({ s with msgBuf := msg } : State).msgLoad k = s.msgLoad k) ∧
      (∀ k, k ≠ s.rxI → ({ s with rxBuf := rx } : State).rxLoad k = s.rxLoad k) ∧
      ({ s with rxBuf := rx } : State).rxLoad s.rxI = .ok s.params.termB := by
  obtain ⟨msg, heq, hnew, hkeep⟩ := consumeByte_delivers hf hlt hp
  rw [deliveredState_eq] at heq
  exact ⟨_, msg, exec_consumeByte heq, hnew, hkeep, fun k hk => stored_load_other _ hk, stored_load_self _ hlt⟩

/-- Settles O28: it holds; the bytes before TERM_A are the payload. -/
theorem consumeByteDeliversUnchecked : Obligations.ConsumeByteDeliversUnchecked := by
  unfold Obligations.ConsumeByteDeliversUnchecked
  exact fun p s hi hf hck => exec_consumeByte_delivers hf hi.rx.index (.unchecked hck)

theorem checksum_eq_ofNat (p : List Byte) : checksum p = BitVec.ofNat 8 (p.map BitVec.toNat).sum := by
  apply BitVec.eq_of_toNat_eq
  rw [checksum_toNat, BitVec.toNat_ofNat]

/-- Settles O29: it holds; the byte before TERM_A is the payload's checksum. -/
theorem consumeByteDeliversChecked : Obligations.ConsumeByteDeliversChecked := by
  unfold Obligations.ConsumeByteDeliversChecked
  intro p s hi hck hne hf
  rw [← checksum_eq_ofNat] at hf
  exact exec_consumeByte_delivers (body := p ++ [checksum p]) (by simpa using hf) hi.rx.index (hck ▸ .checked hne)

/-! ## Bytes from the wire -/

/-- In a string without TERM_A TERM_B, no byte ends a frame (R81, R84). -/
theorem NoPair.not_boundary {p : Params} {l r : List Byte} {b : Byte} (h : NoPair p (l ++ b :: r)) :
    ¬(l.getLast? = some p.termA ∧ b = p.termB) := by
  rintro ⟨ha, rfl⟩
  obtain ⟨q, rfl⟩ := List.getLast?_eq_some_iff.mp ha
  exact h q.length (by simp) (by simp)

/-- TERM_A TERM_B is absent from a beginning of a string from which it is absent. -/
theorem NoPair.left {p : Params} {l r : List Byte} (h : NoPair p (l ++ r)) : NoPair p l := by
  intro k hk hk1
  refine h k ?_ ?_
  · rw [List.getElem?_append_left (List.getElem?_eq_some_iff.mp hk).1, hk]
  · rw [List.getElem?_append_left (List.getElem?_eq_some_iff.mp hk1).1, hk1]

/-- Bytes without a boundary that stay below the capacity extend the frame in progress and change nothing else
(R121). -/
theorem execAll_extends {s : State} {l r : List Byte} (hf : FrameSoFar s l) (htx : TxGood s)
    (hlen : (l ++ r).length < s.params.C) (hno : NoPair s.params (l ++ r)) :
    ∃ mem, execAll (r.map .consumeByte) s = .next { s with rxBuf := mem, rxI := (l ++ r).length } ∧
      FrameSoFar { s with rxBuf := mem, rxI := (l ++ r).length } (l ++ r) ∧
      TxGood { s with rxBuf := mem, rxI := (l ++ r).length } := by
  induction r generalizing s l with
  | nil =>
    rw [List.append_nil, ← hf.index]
    exact ⟨s.rxBuf, rfl, hf, htx⟩
  | cons b r ih =>
    have hl : l.length + 1 < s.params.C := by simp at hlen; omega
    have hlt : s.rxI < s.params.C := by rw [hf.index]; omega
    obtain ⟨heq, hext⟩ := consumeByte_extends hf hl hno.not_boundary
    rw [List.append_cons] at hlen hno ⊢
    obtain ⟨mem, hrest, hframe, hgood⟩ := ih hext (htx.stored b hlt (s.rxI + 1) s.ovfTick) hlen hno
    exact ⟨mem, (execAll_cons (exec_consumeByte heq) _).trans hrest, hframe, hgood⟩

/-- From RX_I = 0, a whole frame that fits and has no boundary before its end: its payload is delivered (R122). -/
theorem execAll_delivers {s : State} {body p : List Byte} (hrx : s.rxI = 0) (htx : TxGood s)
    (hlen : body.length + 2 ≤ s.params.C) (hno : NoPair s.params (body ++ [s.params.termA]))
    (hp : PayloadOf s.cfgCk body p) :
    ∃ rx msg, execAll ((body ++ [s.params.termA, s.params.termB]).map .consumeByte) s
        = .next { deliveredState s p msg with rxBuf := rx, rxI := 0 } ∧
      ({ s with msgBuf := msg } : State).msgRead p.length = .ok p := by
  have hshort : (body ++ [s.params.termA]).length < s.params.C := by
    rw [List.length_append]
    exact hlen
  obtain ⟨mem, hfeed, hframe, -⟩ :=
    execAll_extends (l := []) (r := body ++ [s.params.termA]) (frameSoFar_nil.mpr hrx) htx hshort hno
  obtain ⟨msg, hclose, hnew, -⟩ := consumeByte_delivers hframe hshort hp
  rw [List.append_cons, List.map_append]
  exact ⟨_, msg, execAll_concat hfeed (exec_consumeByte hclose), msgRead_eq_ok.mpr ⟨rfl, hnew⟩⟩

/-- Settles O48: it holds; by induction over the frame its bytes before TERM_B are stored, and TERM_B delivers them
without the checksum and TERM_A. -/
theorem receiverReproducesPayload : Obligations.ReceiverReproducesPayload := by
  unfold Obligations.ReceiverReproducesPayload wireFrame
  intro p s hi hrx hlen hno hne
  rw [List.append_cons _ s.params.termA, List.dropLast_concat] at hno
  obtain ⟨rx, msg, heq, hread⟩ :=
    execAll_delivers hrx hi.txGood (by simpa [Nat.add_assoc] using hlen) hno (payloadOf_wireFrame hne)
  exact ⟨_, heq, rfl, rfl, rfl, hread, append_deliveryEvents s p, rfl, rfl, rfl⟩

/-- The empty message's frame has no boundary before its end (R127). -/
theorem noPair_empty_frame {p : Params} (h : ¬(p.termA = 0 ∧ p.termB = 0)) : NoPair p [0, p.termA] := by
  intro k hk hk1
  match k with
  | 0 =>
    have ha : p.termA = 0 := (Option.some.inj hk).symm
    have hb : p.termA = p.termB := Option.some.inj hk1
    exact h ⟨ha, hb ▸ ha⟩
  | k + 1 => simp at hk1

/-- Settles O49: it holds; the checksum 0x00 is the only byte before TERM_A, so the unchecked path delivers it. -/
theorem emptyMessageArrivesAsZeroByte : Obligations.EmptyMessageArrivesAsZeroByte := by
  unfold Obligations.EmptyMessageArrivesAsZeroByte
  intro s hi hrx _ hC hterm
  obtain ⟨rx, msg, heq, hread⟩ := execAll_delivers (body := [0]) hrx hi.txGood hC (noPair_empty_frame hterm)
    (.unchecked (.inr (Nat.le_refl 1)))
  exact ⟨rfl, _, heq, rfl, rfl, rfl, hread⟩

/-- Settles O50: it holds; the first C−1 bytes extend the frame, and the C-th overflows it. -/
theorem overflowExactlyOnce : Obligations.OverflowExactlyOnce := by
  unfold Obligations.OverflowExactlyOnce
  intro l s hi hrx hovf hlen hno
  obtain rfl | ⟨l, b, rfl⟩ := List.eq_nil_or_concat' l
  · have hC := hi.rx.index
    simp [← hlen] at hC
  · rw [List.length_append] at hlen
    have hshort : l.length < s.params.C := Nat.lt_of_succ_le hlen.le
    obtain ⟨mem, hfeed, hframe, hgood⟩ :=
      execAll_extends (l := []) (frameSoFar_nil.mpr hrx) hi.txGood hshort hno.left
    obtain ⟨t, heq, -, ⟨slots, q, n, rfl⟩, hms⟩ := consumeByte_overflow_good hframe hgood hlen hno.not_boundary
    rw [List.dropLast_concat, List.map_append]
    exact ⟨⟨_, hfeed, hovf, hlen, rfl⟩, _, execAll_concat hfeed (exec_consumeByte heq), rfl, rfl, rfl, rfl, rfl, rfl,
      hms⟩

end Sys2Proof.Machine
end

section
/-! PROOFS. The transmit queue (spec/42_tx_queue.md): ENQUEUE (R151 to R154), PUMP_ONE_BYTE (R156 to R160), and what a
sequence of enqueues or of pumps leaves (R154, R161). -/

namespace Sys2Proof.Machine

/-! ## ENQUEUE -/

/-- ENQUEUE of an idle, initialised block is `enqueue`, answered with its outcome (R190). -/
theorem exec_enqueue {m : List Byte} {s t : State} {st : Status} (hp : s.phase = .idle) (hi : s.initialized = true)
    (h : enqueue m s = .ok (st, t)) : exec (.enqueue m) s = .next (t.answer st) := by
  have hcmd : enqueueCmd m s = .ok (t.answer st) := bind_eq_ok.mpr ⟨(st, t), h, rfl⟩
  exact (hostCommand_runs _ hp fun _ => hi).trans (congrArg outcome hcmd)

theorem enqueueStatus_full {m : List Byte} {s : State} (hfull : s.qsize = s.params.Q) :
    enqueueStatus s m = .queueFull :=
  if_pos hfull

/-- A refused ENQUEUE answers its status and changes nothing else (R151, R212, R213). -/
theorem exec_enqueue_refused {m : List Byte} {s : State} {st : Status} (hp : s.phase = .idle)
    (hi : s.initialized = true) (hst : enqueueStatus s m = st) (hne : st ≠ .ok) :
    exec (.enqueue m) s = .next (s.answer st) := by
  subst hst
  exact exec_enqueue hp hi (enqueue_refused hne)

/-- Settles O21: it holds; an accepted ENQUEUE leaves what an accepted diagnostic leaves, and answers OK. -/
theorem enqueueAccepted : Obligations.EnqueueAccepted := by
  unfold Obligations.EnqueueAccepted
  intro m s hinv hp hi hroom hlen
  have hst : enqueueStatus s m = .ok := enqueueStatus_eq_ok.mpr ⟨Nat.ne_of_lt hroom, hlen⟩
  obtain ⟨mem, hdiag, hloads⟩ := enqueueDiag_accepts hinv.queue hst
  obtain ⟨st, henq⟩ := enqueueDiag_eq_ok.mp hdiag
  obtain rfl : st = .ok := (enqueue_cases henq).1.trans hst
  exact ⟨mem, exec_enqueue hp hi henq, hloads⟩

/-- Settles O22: it holds, by the two tests of `enqueueStatus` in their order. -/
theorem enqueueRefusedInOrder : Obligations.EnqueueRefusedInOrder := by
  unfold Obligations.EnqueueRefusedInOrder
  exact fun m s hp hi => ⟨fun hfull => exec_enqueue_refused hp hi (enqueueStatus_full hfull) nofun,
    fun hroom hlen => exec_enqueue_refused hp hi (enqueueStatus_tooLarge hroom hlen) nofun⟩

/-! ## Enqueues in a row (R154) -/

/-- A response does not concern the transmit side. -/
theorem TxGood.answer {s : State} (h : TxGood s) (st : Status) : TxGood (s.answer st) :=
  ⟨{ h.memory with }, { h.queue with }, h.cursor⟩

/-- Messages that fit and have room are all accepted: each is answered OK and appended at the tail. -/
theorem execAll_enqueues {ms old : List (List Byte)} {s : State} (htx : TxGood s) (hp : s.phase = .idle)
    (hi : s.initialized = true) (hold : Queued s old) (hroom : old.length + ms.length ≤ s.params.Q)
    (hlen : ∀ m ∈ ms, m.length < s.params.C) :
    ∃ mem q n, execAll (ms.map .enqueue) s = .next { s with
        slots := mem, qent := q, slotNext := n
        responses := s.responses ++ List.replicate ms.length ⟨0x00000000, []⟩ } ∧
      Queued { s with slots := mem, qent := q, slotNext := n } (old ++ ms) := by
  induction ms generalizing s old with
  | nil =>
    rw [List.append_nil, List.length_nil, List.replicate_zero, List.append_nil]
    exact ⟨s.slots, s.qent, s.slotNext, rfl, hold⟩
  | cons m ms ih =>
    obtain ⟨hm, hlen⟩ := List.forall_mem_cons.mp hlen
    rw [List.length_cons] at hroom
    have hst : enqueueStatus s m = .ok := enqueueStatus_eq_ok.mpr ⟨by rw [hold.length]; omega, hm⟩
    obtain ⟨mem, q, n, henq, hgood, happ⟩ := enqueue_good m htx
    rw [hst] at henq
    have hqueued := happ old hold
    rw [if_pos hst] at hqueued
    have hroom : (old ++ [m]).length + ms.length ≤ s.params.Q := by
      rw [List.length_append, List.length_singleton]
      omega
    obtain ⟨mem', q', n', hrest, hall⟩ := ih (hgood.answer .ok) hp hi (hqueued.congr rfl rfl rfl) hroom hlen
    rw [← List.append_cons] at hall
    refine ⟨mem', q', n', ?_, hall.congr rfl rfl rfl⟩
    rw [List.map_cons, execAll_cons (exec_enqueue hp hi henq), hrest, List.length_cons, List.replicate_succ,
      List.append_cons]
    rfl

/-- Settles O51: it holds; the bound is part of the invariant, and the last of Q+1 messages finds the queue full. -/
theorem queueFullAtQPlusOne : Obligations.QueueFullAtQPlusOne := by
  unfold Obligations.QueueFullAtQPlusOne
  refine ⟨fun s t hinv h => (stepKeepsInvariant s t hinv h).queue.size, fun ms s hinv hp hi hempty hcount hlen => ?_⟩
  obtain rfl | ⟨accepted, last, rfl⟩ := List.eq_nil_or_concat' ms
  · simp at hcount
  · have hQ : accepted.length = s.params.Q := by simpa using hcount
    have hold : Queued s [] := by
      unfold Queued
      rw [hempty]
      exact .nil
    obtain ⟨mem, q, n, hfill, hqueued⟩ := execAll_enqueues hinv.txGood hp hi hold (by simp [hQ])
      fun m hm => hlen m (List.mem_append_left _ hm)
    have hfull : q.length = s.params.Q := hqueued.length.trans hQ
    rw [List.map_append, List.take_left' hQ]
    rw [hQ] at hfill
    exact ⟨_, execAll_concat hfill (exec_enqueue_refused hp hi (enqueueStatus_full hfull) nofun), rfl, hfull,
      hqueued.congr rfl rfl rfl⟩

/-! ## PUMP_ONE_BYTE -/

theorem exec_pumpOneByte {s t : State} (h : pumpOneByte s = .ok t) : exec .pumpOneByte s = .next t :=
  congrArg outcome h

theorem wireFrame_length (s : State) (m : List Byte) :
    (wireFrame s.params s.cfgCk m).length = m.length + s.ckBit + 2 := by
  unfold wireFrame State.ckBit
  cases s.cfgCk <;> simp

/-- The state PUMP_ONE_BYTE leaves when it writes b, a byte of the frame of the head message m (R156). -/
def sentState (s : State) (m : List Byte) (b : Byte) : State :=
  advanceCursor s.qent.tail (m.length + s.ckBit + 2) { s with chOut := s.chOut ++ [b] }

/-- Before the frame's last byte, the cursor advances (R156). -/
theorem sentState_advances {s : State} {m : List Byte} (b : Byte) (h : s.txOff + 1 < m.length + s.ckBit + 2) :
    sentState s m b = { s with chOut := s.chOut ++ [b], txOff := s.txOff + 1, txTot := m.length + s.ckBit + 2 } :=
  if_neg (Nat.ne_of_lt h)

/-- On the frame's last byte, the head is removed and the cursor returns to (0, 0) (R159). -/
theorem sentState_dequeues {s : State} {m : List Byte} (b : Byte) (h : s.txOff + 1 = m.length + s.ckBit + 2) :
    sentState s m b = { s with chOut := s.chOut ++ [b], qent := s.qent.tail, txOff := 0, txTot := 0 } :=
  if_pos h

@[simp] theorem sentState_chOut (s : State) (m : List Byte) (b : Byte) : (sentState s m b).chOut = s.chOut ++ [b] := by
  unfold sentState advanceCursor
  split_ifs <;> rfl

/-- An effective pump writes byte TX_OFF of the head message's wire frame (R157). -/
theorem pumpOneByte_sends {s : State} {m : List Byte} {ms : List (List Byte)} (htx : TxGood s)
    (hms : Queued s (m :: ms)) (hcap : s.chCap ≠ 0) :
    ∃ b, pumpOneByte s = .ok (sentState s m b) ∧ (wireFrame s.params s.cfgCk m)[s.txOff]? = some b := by
  obtain ⟨e, rest, ⟨hlen, hread⟩, -, hq⟩ := List.forall₂_cons_right_iff.mp hms
  have hslot : e.slot < s.params.Q := live_slot_lt htx.queue (by simp [hq])
  have hsent : ∀ b, pumpedState s e rest b = sentState s m b := fun b => by
    rw [pumpedState, sentState, hlen, hq, List.tail_cons]
  obtain ⟨b, hpump, hb⟩ := pump_effective htx.cursor hq hcap hslot hread
  exact ⟨b, hsent b ▸ hpump, hb⟩

/-- Settles O31: it holds; byte TX_OFF exists, so TX_OFF is below the frame's length. -/
theorem pumpSendsNextFrameByte : Obligations.PumpSendsNextFrameByte := by
  unfold Obligations.PumpSendsNextFrameByte
  intro m ms s hinv hms hcap
  obtain ⟨b, hpump, hb⟩ := pumpOneByte_sends hinv.txGood hms hcap
  have hoff := (List.getElem?_eq_some_iff.mp hb).1
  rw [wireFrame_length] at hoff
  refine ⟨b, hb, fun hmore => ?_, fun hlast => ?_, hoff⟩
  · rw [exec_pumpOneByte hpump, sentState_advances b hmore]
  · rw [exec_pumpOneByte hpump, sentState_dequeues b hlast]

/-- Settles O32: it holds; a good queue with an entry has a head message to send a byte of. -/
theorem pumpWritesOneByteOrNothing : Obligations.PumpWritesOneByteOrNothing := by
  unfold Obligations.PumpWritesOneByteOrNothing
  refine fun s => ⟨fun hinv hne hcap => ?_, fun hno => exec_pumpOneByte (pump_noop hno)⟩
  obtain ⟨ms, hms⟩ := exists_queued hinv.queue
  cases ms with
  | nil => exact absurd (List.forall₂_nil_right_iff.mp hms) hne
  | cons m ms =>
    obtain ⟨b, hpump, -⟩ := pumpOneByte_sends hinv.txGood hms hcap
    exact ⟨b, _, exec_pumpOneByte hpump, sentState_chOut s m b⟩

/-! ## Pumps in a row (R161) -/

/-- PUMP_ONE_BYTE keeps the transmit side good (R156). -/
theorem pumpOneByte_keeps_txGood {s t : State} (h : TxGood s) (hpump : pumpOneByte s = .ok t) : TxGood t := by
  obtain ⟨out, q, off, tot, heq, g⟩ := pump_good h
  obtain rfl := Except.ok.inj (heq.symm.trans hpump)
  exact g

/-- Without the head entry, the queue holds the messages behind it (R159). -/
theorem Queued.tail {s : State} {m : List Byte} {ms : List (List Byte)} (h : Queued s (m :: ms)) :
    Queued { s with qent := s.qent.tail } ms := by
  obtain ⟨e, rest, -, hrest, hq⟩ := List.forall₂_cons_right_iff.mp h
  rw [hq]
  exact hrest

/-- s with the first n bytes of a frame sent, and TX_TOT = tot. -/
def partlySent (s : State) (frame : List Byte) (n tot : Nat) : State :=
  { s with chOut := s.chOut ++ frame.take n, txOff := n, txTot := tot }

theorem partlySent_zero {s : State} (frame : List Byte) (hoff : s.txOff = 0) : partlySent s frame 0 s.txTot = s := by
  rw [partlySent, List.take_zero, List.append_nil, ← hoff]

/-- The pump that sends byte n, where it is not the frame's last. -/
theorem sentState_partlySent {s : State} {m frame : List Byte} {n : Nat} {b : Byte} (tot : Nat)
    (hb : frame[n]? = some b) (hn : n + 1 < m.length + s.ckBit + 2) :
    sentState (partlySent s frame n tot) m b = partlySent s frame (n + 1) (m.length + s.ckBit + 2) := by
  rw [sentState_advances b hn]
  simp only [partlySent, List.append_assoc, List.take_add_one, hb, Option.toList_some]
  rfl

/-- Fewer pumps than the head message's frame has bytes send as many of them, and leave the entry at the head. -/
theorem execAll_pumps {s : State} {m : List Byte} {ms : List (List Byte)} (htx : TxGood s) (hms : Queued s (m :: ms))
    (hcap : s.chCap ≠ 0) (hoff : s.txOff = 0) {n : Nat} (hn : n < m.length + s.ckBit + 2) :
    ∃ tot, execAll (List.replicate n .pumpOneByte) s = .next (partlySent s (wireFrame s.params s.cfgCk m) n tot) ∧
      TxGood (partlySent s (wireFrame s.params s.cfgCk m) n tot) := by
  induction n with
  | zero =>
    refine ⟨s.txTot, ?_⟩
    rw [partlySent_zero _ hoff]
    exact ⟨rfl, htx⟩
  | succ n ih =>
    obtain ⟨tot, hrun, hgood⟩ := ih (Nat.lt_of_succ_lt hn)
    obtain ⟨b, hpump, (hb : (wireFrame s.params s.cfgCk m)[n]? = some b)⟩ :=
      pumpOneByte_sends hgood (hms.congr rfl rfl rfl) hcap
    rw [sentState_partlySent tot hb hn] at hpump
    refine ⟨m.length + s.ckBit + 2, ?_, pumpOneByte_keeps_txGood hgood hpump⟩
    rw [List.replicate_succ']
    exact execAll_concat hrun (exec_pumpOneByte hpump)

/-- Settles O47: it holds; all pumps but the last send the frame but for its last byte, and the last one dequeues. -/
theorem frameSentByEffectivePumps : Obligations.FrameSentByEffectivePumps := by
  unfold Obligations.FrameSentByEffectivePumps
  intro m ms s hinv hms hcap hoff _
  obtain ⟨tot, hrun, hgood⟩ :=
    execAll_pumps hinv.txGood hms hcap hoff (Nat.lt_succ_self (m.length + s.ckBit + 1))
  obtain ⟨b, hpump, (hb : (wireFrame s.params s.cfgCk m)[m.length + s.ckBit + 1]? = some b)⟩ :=
    pumpOneByte_sends hgood (hms.congr rfl rfl rfl) hcap
  rw [sentState_dequeues b rfl] at hpump
  have hall := execAll_concat hrun (exec_pumpOneByte hpump)
  rw [← List.replicate_succ'] at hall
  refine ⟨_, hall, ?_, hms.tail.congr rfl rfl rfl, rfl, rfl, rfl, fun n hn => ?_⟩
  · calc (s.chOut ++ (wireFrame s.params s.cfgCk m).take (m.length + s.ckBit + 1)) ++ [b]
        = s.chOut ++ (wireFrame s.params s.cfgCk m).take (m.length + s.ckBit + 2) := by
          rw [List.take_add_one (i := m.length + s.ckBit + 1), hb, Option.toList_some, List.append_assoc]
      _ = s.chOut ++ wireFrame s.params s.cfgCk m := by rw [List.take_of_length_le (wireFrame_length s m).le]
  · obtain ⟨tot, hrun, -⟩ := execAll_pumps hinv.txGood hms hcap hoff hn
    exact ⟨_, hrun, rfl⟩

end Sys2Proof.Machine
end

section
/-! PROOFS. The scheduler facade (spec/43_scheduler_facade.md): the host commands at PHASE = IDLE (R180 to R196), the
micro-steps of TICK (R181 to R184), and whole TICKs (R185, R187). -/

namespace Sys2Proof.Machine

/-! ## The checks before a host command (R180, R191, R193) -/

/-- INIT does not ask for an initialised block (R180, R196). -/
theorem exec_init (ck : Bool) (bitrate : Word) (s : State) :
    exec (.init ck bitrate) s = hostCommand false s fun s => .ok ((s.initialise ck bitrate).answer .ok) := rfl

/-- TICK's arm is its entry micro-step (R181). -/
theorem exec_tick (s : State) : exec .tick s = hostCommand true s fun s => .ok s.enterTick := rfl

theorem exec_getMessage (s : State) : exec .getMessage s = hostCommand true s getMessage := rfl

theorem exec_setHandler (hid : Half) (s : State) :
    exec (.setHandler hid) s =
      hostCommand true s fun s => .ok (({ s with handlerValid := true, handlerId := hid } : State).answer .ok) := rfl

/-- Every host command runs behind the checks of `hostCommand`; INIT alone does not ask for an initialised block. -/
theorem exec_eq_hostCommand {i : Instr} (h : i.isHostCommand = true) (s : State) :
    ∃ needs body, exec i s = hostCommand needs s body ∧ (needs = true ∨ ∃ ck bitrate, i = .init ck bitrate) := by
  cases i with
  | init ck bitrate => exact ⟨false, _, exec_init ck bitrate s, .inr ⟨ck, bitrate, rfl⟩⟩
  | tick => exact ⟨true, _, exec_tick s, .inl rfl⟩
  | enqueue m => exact ⟨true, _, rfl, .inl rfl⟩
  | getMessage => exact ⟨true, _, exec_getMessage s, .inl rfl⟩
  | setHandler hid => exact ⟨true, _, exec_setHandler hid s, .inl rfl⟩
  | checksum _ | consumeByte _ | deliver _ | enqueueDiag _ | pumpOneByte => exact absurd h Bool.false_ne_true

/-- Before INIT, a command that asks for an initialised block is answered NOT_INITIALIZED (R191). -/
theorem hostCommand_uninitialized {s : State} (body : State → Except Fault State) (hp : s.phase = .idle)
    (hi : s.initialized = false) : hostCommand true s body = .next (s.answer .notInitialized) :=
  hostCommand_eq_next.mpr ⟨hp, .inl ⟨rfl, hi, rfl⟩⟩

/-- A command during another one is refused (R193). -/
theorem hostCommand_busy (needs : Bool) {s : State} (body : State → Except Fault State) (hp : s.phase ≠ .idle) :
    hostCommand needs s body = .refused .commandInProgress :=
  if_pos hp

/-- A command at PHASE = IDLE is not refused. -/
theorem hostCommand_ne_refused (needs : Bool) {s : State} (body : State → Except Fault State) (hp : s.phase = .idle)
    (r : Refusal) : hostCommand needs s body ≠ .refused r := by
  unfold hostCommand
  rw [if_neg (not_not_intro hp)]
  split_ifs
  · exact nofun
  · exact outcome_ne_refused _ r

/-- Settles O15: it holds, by the check that every host command but INIT passes first. -/
theorem notInitializedAnswered : Obligations.NotInitializedAnswered := by
  unfold Obligations.NotInitializedAnswered
  intro i s hhost hinit hp hi
  obtain ⟨needs, body, heq, rfl | ⟨ck, bitrate, rfl⟩⟩ := exec_eq_hostCommand hhost s
  · exact heq.trans (hostCommand_uninitialized body hp hi)
  · exact absurd rfl (hinit ck bitrate)

/-! ## The refusal that no step comes to (R193) -/

/-- The dispatch at PHASE = IDLE is not refused: a decoded transaction is a host command (R93). -/
theorem command_ne_refused (c : Transaction) {s : State} (hp : s.phase = .idle) (r : Refusal) :
    command c s ≠ .refused r := by
  unfold command
  split
  · exact nofun
  · next i hi =>
    obtain ⟨needs, body, heq, -⟩ := exec_eq_hostCommand (decode_isHostCommand hi) s
    rw [heq]
    exact hostCommand_ne_refused needs body hp r

/-- No turn of the sequencer is refused: commands run at PHASE = IDLE only, internal operations are never refused. -/
theorem sequencerTurn_ne_refused (s : State) (r : Refusal) : sequencerTurn s ≠ .refused r := by
  cases hp : s.phase with
  | idle =>
    rw [sequencerTurn_idle hp]
    unfold idleTurn
    split
    · exact nofun
    · next c rest _ => exact command_ne_refused c (s := { s with hostQ := rest }) hp r
  | rx =>
    rw [sequencerTurn_rx hp]
    unfold rxTurn
    split_ifs
    · split
      · exact outcome_ne_refused _ r
      · exact nofun
    · exact nofun
  | pump =>
    rw [sequencerTurn_pump hp]
    unfold pumpTurn
    split
    · exact nofun
    · exact nofun
    · next hx => exact absurd hx (outcome_ne_refused _ _)

/-- Settles O16: it holds; the check of PHASE refuses, and a step takes a command at PHASE = IDLE only. -/
theorem noCommandDuringCommand : Obligations.NoCommandDuringCommand := by
  unfold Obligations.NoCommandDuringCommand
  refine ⟨fun i s hhost hp => ?refused, fun s r => ?neverRefused⟩
  case refused =>
    obtain ⟨needs, body, heq, -⟩ := exec_eq_hostCommand hhost s
    exact heq.trans (hostCommand_busy needs body hp)
  case neverRefused =>
    obtain ⟨u, -, hs⟩ | ⟨moves, bs, -, hs⟩ | ⟨moves, n, -, hs⟩ := step_cases s <;> rw [hs]
    · exact sequencerTurn_ne_refused u r
    · exact nofun
    · exact nofun

/-! ## The host commands' results -/

/-- Settles O17: it holds; INIT asks for PHASE = IDLE only. -/
theorem initResult : Obligations.InitResult := by
  unfold Obligations.InitResult
  exact fun ck bitrate s hp => ⟨_, _, (exec_init ck bitrate s).trans (hostCommand_runs _ hp nofun)⟩

/-- Settles O18: it holds; TICK's arm is the flag writes of `enterTick`. -/
theorem tickEntryResult : Obligations.TickEntryResult := by
  unfold Obligations.TickEntryResult
  exact fun s hp hi => (exec_tick s).trans (hostCommand_runs _ hp fun _ => hi)

/-- Settles O20: it holds; SET_HANDLER's arm is the two writes and the answer. -/
theorem setHandlerResult : Obligations.SetHandlerResult := by
  unfold Obligations.SetHandlerResult
  exact fun hid s hp hi => (exec_setHandler hid s).trans (hostCommand_runs _ hp fun _ => hi)

/-- The whole Message of a good state can be read (R27). -/
theorem MsgInv.msgRead_total {s : State} (h : MsgInv s) : ∃ d, s.msgRead s.msgLen = .ok d := by
  refine Memory.loadRange_total fun j hj => ?_
  obtain ⟨b, hb⟩ := h.live j hj
  exact ⟨b, by rwa [Nat.zero_add]⟩

/-- The word of an OK response with data: LEN in the upper half, zero below (R92). -/
theorem responseWord_ok_len {len : Nat} (h : len ≤ 65535) :
    responseWord .ok false len = BitVec.ofNat 32 (65536 * len) := by
  apply BitVec.eq_of_toNat_eq
  have hmod : len % 2 ^ 16 = len := Nat.mod_eq_of_lt (Nat.lt_succ_of_le h)
  rw [responseWord_eq_headerOf, headerOf_toNat, BitVec.toNat_ofNat, BitVec.toNat_ofNat, hmod]
  change 0 + 256 * 0 + 65536 * len = 65536 * len % 2 ^ 32
  omega

/-- Settles O19: it holds; the invariant lets the Message be read and bounds its length. -/
theorem getMessageResult : Obligations.GetMessageResult := by
  unfold Obligations.GetMessageResult
  intro s hinv hp hi
  obtain ⟨d, hd⟩ := hinv.msg.msgRead_total
  obtain ⟨hlen, hload⟩ := msgRead_eq_ok.mp hd
  have hget : getMessage s = .ok (s.respond .ok false s.msgLen d) := bind_eq_ok.mpr ⟨d, hd, rfl⟩
  refine ⟨d, hlen, hload, ?_⟩
  rw [← responseWord_ok_len hinv.msgLen_le]
  rw [exec_getMessage, hostCommand_runs _ hp fun _ => hi, hget]
  rfl

/-! ## The sequencer's turn in each phase (R180, R181) -/

theorem SequencerActs.phase {s u : State} (h : SequencerActs s u) : u.phase = s.phase := by rw [h.eq]

theorem step_idle {s u : State} (h : SequencerActs s u) (hp : s.phase = .idle) : step s = idleTurn u :=
  (step_of_acts h).trans (sequencerTurn_idle (h.phase.trans hp))

theorem step_rx {s u : State} (h : SequencerActs s u) (hp : s.phase = .rx) : step s = rxTurn u :=
  (step_of_acts h).trans (sequencerTurn_rx (h.phase.trans hp))

theorem step_pump {s u : State} (h : SequencerActs s u) (hp : s.phase = .pump) : step s = pumpTurn u :=
  (step_of_acts h).trans (sequencerTurn_pump (h.phase.trans hp))

theorem idleTurn_cons {s : State} {t : Transaction} {rest : List Transaction} (h : s.hostQ = t :: rest) :
    idleTurn s = command t { s with hostQ := rest } := by
  unfold idleTurn
  rw [h]

/-- Settles O10: it holds, since the turn at PHASE = IDLE dispatches the transaction at the head of the port. -/
theorem stepRunsDecodedCommand : Obligations.StepRunsDecodedCommand := by
  unfold Obligations.StepRunsDecodedCommand
  intro s u t rest hacts hp hq
  have hhost : u.hostQ = t :: rest := by rw [hacts.eq, ← hq]
  have hstep : step s = command t { u with hostQ := rest } := (step_idle hacts hp).trans (idleTurn_cons hhost)
  refine ⟨fun i hi => ?legal, fun r hr => ?illegal⟩
  case legal => rw [hstep, command, hi]
  case illegal =>
    rw [hstep, command, hr, hacts.eq]
    rfl

theorem rxContinues_eq_true {s : State} :
    rxContinues s = true ↔ s.chIn ≠ [] ∧ (s.params.stopRxAfterOverflow = false ∨ s.ovfTick = false) := by
  simp [rxContinues, List.length_pos_iff]

/-- While the receive loop goes on, the oldest inbound byte is consumed (R181). -/
theorem rxTurn_reads {s : State} {b : Byte} {rest : List Byte} (hci : s.chIn = b :: rest)
    (hgo : s.params.stopRxAfterOverflow = false ∨ s.ovfTick = false) :
    rxTurn s = exec (.consumeByte b) { s with chIn := rest } := by
  have hcont : rxContinues s = true := rxContinues_eq_true.mpr ⟨by simp [hci], hgo⟩
  have hread : chRead s = .ok (b, { s with chIn := rest }) := chRead_eq_ok.mpr ⟨rest, hci, rfl⟩
  rw [rxTurn, if_pos hcont, hread]

/-- Without a byte, or stopped by an overflow, the receive loop ends (R181, R182). -/
theorem rxTurn_ends {s : State}
    (hstop : s.chIn = [] ∨ (s.params.stopRxAfterOverflow = true ∧ s.ovfTick = true)) : rxTurn s = .next s.endRx := by
  refine if_neg fun hcont => ?_
  obtain ⟨hne, hgo⟩ := rxContinues_eq_true.mp hcont
  obtain hnil | ⟨hs, ho⟩ := hstop
  · exact hne hnil
  · simp [hs, ho] at hgo

/-- Settles O11: it holds, by the two cases of the receive-loop test. -/
theorem rxMicroStep : Obligations.RxMicroStep := by
  unfold Obligations.RxMicroStep
  intro s u hacts hp
  have hstep := step_rx hacts hp
  rw [hacts.eq] at hstep ⊢
  exact ⟨fun b rest hci hgo => hstep.trans (rxTurn_reads hci hgo), fun hnil => hstep.trans (rxTurn_ends (.inl hnil)),
    fun hs ho => hstep.trans (rxTurn_ends (.inr ⟨hs, ho⟩))⟩

/-- The word of TICK's response (R183). -/
theorem responseWord_ok_ready (ready : Bool) :
    responseWord .ok ready 0 = if ready then 0x00000100 else 0x00000000 := by
  cases ready <;> rfl

/-- The end of a TICK in terms of the state its pump leaves (R181, R183). -/
theorem finishTick_eq (v : State) :
    finishTick v = { v with
      ready := false, ovfTick := false, phase := .idle
      responses := v.responses ++ [⟨if v.ready then 0x00000100 else 0x00000000, []⟩] } := by
  rw [← responseWord_ok_ready]
  rfl

/-- Settles O12: it holds; the pump does not write READY. -/
theorem pumpMicroStep : Obligations.PumpMicroStep := by
  unfold Obligations.PumpMicroStep
  intro s u v hacts hp hpump
  have hready : v.ready = s.ready := by
    obtain ⟨out, q, off, tot, rfl⟩ := pumpOneByte_frame (outcome_eq_next.mp hpump)
    rw [hacts.eq]
  rw [step_pump hacts hp, pumpTurn, hpump, ← hready, ← finishTick_eq]

/-! ## Steps in a row -/

/-- A run of one step more at its end. -/
theorem run_concat {n : Nat} {s t u : State} (hrun : Sys2Proof.core.run n s = .next t) (h : step t = .next u) :
    Sys2Proof.core.run (n + 1) s = .next u := by
  induction n generalizing s with
  | zero =>
    obtain rfl := Host.Outcome.next.inj hrun
    exact run_succ 0 h
  | succ n ih =>
    cases hs : step s with
    | next v =>
      rw [run_succ n hs] at hrun
      rw [run_succ (n + 1) hs]
      exact ih hrun
    | fault f =>
      have hs : Sys2Proof.core.step s = .fault f := hs
      simp [Host.Core.run, hs] at hrun
    | refused r => exact absurd hs (noCommandDuringCommand.2 s r)

/-- Accepting a TICK enters its receive loop (R180, R181). -/
theorem step_acceptsTick {s : State} {c : Transaction} {rest : List Transaction} (hp : s.phase = .idle)
    (hi : s.initialized = true) (hch : s.chanQ = []) (hq : s.hostQ = c :: rest) (hc : decode c = .ok .tick) :
    step s = .next { s with hostQ := rest, ovfTick := false, phase := .rx } :=
  ((stepRunsDecodedCommand s s c rest (.inl ⟨hch, rfl⟩) hp hq).1 _ hc).trans
    (tickEntryResult { s with hostQ := rest } hp hi)

/-- Settles O53: it holds, by its three steps; READY and OVF_TICK are 0 at IDLE, so clearing them changes nothing. -/
theorem idleTickChangesNothing : Obligations.IdleTickChangesNothing := by
  unfold Obligations.IdleTickChangesNothing
  intro s c rest hinv hp hi hch hq hc hin hempty
  obtain ⟨hready, hovf⟩ := hinv.phase.idleFlags hp
  have hentry := step_acceptsTick hp hi hch hq hc
  obtain ⟨-, hend, -⟩ :=
    rxMicroStep { s with hostQ := rest, ovfTick := false, phase := .rx } _ (.inl ⟨hch, rfl⟩) rfl
  have hpump := pumpMicroStep { s with hostQ := rest, ovfTick := false, phase := .pump } _ _ (.inl ⟨hch, rfl⟩) rfl
    (exec_pumpOneByte (pump_noop (.inl hempty)))
  rw [run_succ 2 hentry, run_succ 1 (hend hin), run_succ 0 hpump]
  simp [Host.Core.run, hready, hovf, hp]

/-! ## The receive loop of a TICK (R181, R182, R187) -/

/-- What a part of a receive loop, from s to t, leaves unchanged, and the deliveries it makes: with a handler
registered, READY tells that there was one (R132, R184). -/
structure Receives (s t : State) : Prop where
  params : t.params = s.params
  handlerValid : t.handlerValid = s.handlerValid
  chanQ : t.chanQ = s.chanQ
  hostQ : t.hostQ = s.hostQ
  responses : t.responses = s.responses
  chOut : t.chOut = s.chOut
  deliveries : ∃ events, t.deliv = s.deliv ++ events ∧
    (s.handlerValid = true → (t.ready = true ↔ s.ready = true ∨ events ≠ []))

theorem Receives.trans {s t u : State} (h1 : Receives s t) (h2 : Receives t u) : Receives s u where
  params := h2.params.trans h1.params
  handlerValid := h2.handlerValid.trans h1.handlerValid
  chanQ := h2.chanQ.trans h1.chanQ
  hostQ := h2.hostQ.trans h1.hostQ
  responses := h2.responses.trans h1.responses
  chOut := h2.chOut.trans h1.chOut
  deliveries := by
    obtain ⟨e1, hd1, hr1⟩ := h1.deliveries
    obtain ⟨e2, hd2, hr2⟩ := h2.deliveries
    refine ⟨e1 ++ e2, by rw [hd2, hd1, List.append_assoc], fun hv => ?_⟩
    rw [hr2 (h1.handlerValid.trans hv), hr1 hv, or_assoc, ne_eq (e1 ++ e2), List.append_eq_nil_iff, not_and_or]

/-- One byte of the receive loop: it is taken off CH_IN, and one payload is delivered at most (R121, R181). -/
theorem consumeByte_receives {b : Byte} {rest : List Byte} {s t : State}
    (h : consumeByte b { s with chIn := rest } = .ok t) : Receives s t ∧ t.chIn = rest := by
  obtain ⟨-, ⟨rx, p, mem, rfl⟩ | ⟨rx, i, ovf, mem, q, n, rfl⟩⟩ := consumeByte_eq_ok h
  · refine ⟨⟨rfl, rfl, rfl, rfl, rfl, rfl, deliveryEvents s p, rfl, fun hv => ?_⟩, rfl⟩
    simp [deliveredState, deliveryEvents, hv]
  · exact ⟨⟨rfl, rfl, rfl, rfl, rfl, rfl, [], by simp, fun _ => by simp⟩, rfl⟩

/-- u is where the receive loop that starts in s ends: in PUMP, with CH_IN empty unless an overflow may stop the loop
(R181, R182). -/
structure ReceiveLoopEnds (s u : State) : Prop where
  pump : u.phase = .pump
  good : Inv u
  receives : Receives s u
  drained : s.params.stopRxAfterOverflow = false → u.chIn = []

/-- The receive loop with no byte left to read, or stopped by an overflow, ends in the next step. -/
theorem receiveLoop_stops {s : State} (hinv : Inv s) (hp : s.phase = .rx) (hch : s.chanQ = [])
    (hstop : s.chIn = [] ∨ (s.params.stopRxAfterOverflow = true ∧ s.ovfTick = true)) :
    ∃ u, Sys2Proof.core.run 1 s = .next u ∧ ReceiveLoopEnds s u := by
  have hinit : s.initialized = true := hinv.phase.busy (by simp [hp])
  have hstep : step s = .next s.endRx := (step_rx (.inl ⟨hch, rfl⟩) hp).trans (rxTurn_ends hstop)
  refine ⟨s.endRx, run_succ 0 hstep, rfl, hinv.withFlags hinit nofun, ?same, fun hs => ?drained⟩
  case same => exact ⟨rfl, rfl, rfl, rfl, rfl, rfl, [], by simp, by simp⟩
  case drained => exact hstop.resolve_right fun ⟨hs', _⟩ => Bool.false_ne_true (hs.symm.trans hs')

/-- From a good state in RX the loop ends within one step for each inbound byte and one more, if the channel makes no
move (R187). -/
theorem receiveLoop_ends {s : State} (hinv : Inv s) (hp : s.phase = .rx) (hch : s.chanQ = []) :
    ∃ n u, n ≤ s.chIn.length + 1 ∧ Sys2Proof.core.run n s = .next u ∧ ReceiveLoopEnds s u := by
  induction hci : s.chIn generalizing s with
  | nil =>
    obtain ⟨u, hrun, hend⟩ := receiveLoop_stops hinv hp hch (.inl hci)
    exact ⟨1, u, Nat.le_add_left _ _, hrun, hend⟩
  | cons b rest ih =>
    by_cases hstop : s.params.stopRxAfterOverflow = true ∧ s.ovfTick = true
    · obtain ⟨u, hrun, hend⟩ := receiveLoop_stops hinv hp hch (.inr hstop)
      exact ⟨1, u, Nat.le_add_left _ _, hrun, hend⟩
    · have hgo : s.params.stopRxAfterOverflow = false ∨ s.ovfTick = false := 
        (not_and_or.mp hstop).imp eq_false_of_ne_true eq_false_of_ne_true
      obtain ⟨t, hb, hinvt, hpt⟩ := consumeByte_good b (hinv.withPorts rest s.chCap s.hostQ s.chanQ s.responses) hp
      have hstep : step s = .next t :=
        ((step_rx (.inl ⟨hch, rfl⟩) hp).trans (rxTurn_reads hci hgo)).trans (exec_consumeByte hb)
      obtain ⟨hrec, hrest⟩ := consumeByte_receives hb
      obtain ⟨n, u, hn, hrun, hend⟩ := ih hinvt hpt (hrec.chanQ.trans hch) hrest
      exact ⟨n + 1, u, Nat.succ_le_succ hn, (run_succ n hstep).trans hrun, hend.pump, hend.good,
        hrec.trans hend.receives, fun hs => hend.drained (by rw [hrec.params, hs])⟩

/-! ## A whole TICK (R181 to R184, R187) -/

/-- PUMP_ONE_BYTE sends one byte at most (R160). -/
theorem pumpOneByte_chOut_length {s t : State} (h : pumpOneByte s = .ok t) : t.chOut.length ≤ s.chOut.length + 1 := by
  obtain rfl | ⟨e, rest, b, -, -, rfl⟩ := pumpOneByte_eq_ok h
  · exact Nat.le_succ _
  · obtain ⟨q, off, tot, heq⟩ := advanceCursor_eq rest (txTotal s e) { s with chOut := s.chOut ++ [b] }
    rw [heq]
    exact List.length_append.le

/-- Settles O52: it holds; the entry, the receive loop by induction over the inbound bytes, and one pump. -/
theorem tickCompletes : Obligations.TickCompletes := by
  unfold Obligations.TickCompletes
  intro s c rest hinv hp hi hch hq hc
  have hentry := step_acceptsTick hp hi hch hq hc
  obtain ⟨n, u, hn, hrun, hpumping, hgood, hrec, hdrained⟩ :=
    receiveLoop_ends (stepKeepsInvariant s _ hinv hentry) rfl hch
  obtain ⟨out, q, off, tot, hpump, -⟩ := pump_good hgood.txGood
  have hfinish := pumpMicroStep u u _ (.inl ⟨hrec.chanQ.trans hch, rfl⟩) hpumping (exec_pumpOneByte hpump)
  refine ⟨n + 2, _, Nat.add_le_add_right hn 2, run_concat ((run_succ n hentry).trans hrun) hfinish, rfl, hrec.hostQ,
    ⟨u.ready, by rw [hrec.responses], fun hv => ?ready⟩, ?sent, hdrained⟩
  case ready =>
    obtain ⟨hready, -⟩ := hinv.phase.idleFlags hp
    obtain ⟨events, hdeliv, hiff⟩ := hrec.deliveries
    have hmore : s.deliv.length < u.deliv.length ↔ events ≠ [] := by
      rw [hdeliv, List.length_append, Nat.lt_add_right_iff_pos, List.length_pos_iff]
    exact (hiff hv).trans ((or_iff_right (by simp [hready])).trans hmore.symm)
  case sent =>
    have hsent := pumpOneByte_chOut_length hpump
    rwa [hrec.chOut] at hsent

end Sys2Proof.Machine
end

section
/-! PROOFS. Errors and the channel (spec/60_exceptions.md): no error stops the machine (R210), a checksum mismatch is
reported by three diagnostics (R215), and bytes move on the channel only inside a TICK (R224). -/

namespace Sys2Proof.Machine

/-! ## A good state always has a next state (R210) -/

/-- A host command at PHASE = IDLE has a next state when its own rule answers. -/
theorem hostCommand_answers (needs : Bool) {s : State} {body : State → Except Fault State} (hp : s.phase = .idle)
    (hbody : ∃ t, body s = .ok t) : ∃ t, hostCommand needs s body = .next t := by
  obtain ⟨t, ht⟩ := hbody
  by_cases hi : needs = true → s.initialized = true
  · exact ⟨t, hostCommand_eq_next.mpr ⟨hp, .inr ⟨hi, ht⟩⟩⟩
  · obtain ⟨hneeds, hinit⟩ := Classical.not_imp.mp hi
    exact ⟨_, hostCommand_eq_next.mpr ⟨hp, .inl ⟨hneeds, eq_false_of_ne_true hinit, rfl⟩⟩⟩

/-- ENQUEUE finds its slot within SLOT and its message within the slot, or answers without writing (R151, R190). -/
theorem enqueueCmd_answers {s : State} (m : List Byte) (h : TxGood s) : ∃ t, enqueueCmd m s = .ok t := by
  obtain ⟨mem, q, n, heq, -, -⟩ := enqueue_good m h
  exact ⟨_, bind_eq_ok.mpr ⟨_, heq, rfl⟩⟩

/-- GET_MESSAGE reads only written bytes of MSG_BUF (R188, R27). -/
theorem getMessage_answers {s : State} (h : MsgInv s) : ∃ t, getMessage s = .ok t := by
  obtain ⟨d, hd⟩ := h.msgRead_total
  exact ⟨_, bind_eq_ok.mpr ⟨d, hd, rfl⟩⟩

/-- Every host command of a good state at PHASE = IDLE has a next state. -/
theorem exec_hostCommand_answers {i : Instr} {s : State} (hhost : i.isHostCommand = true) (h : Inv s)
    (hp : s.phase = .idle) : ∃ t, exec i s = .next t := by
  cases i with
  | init ck bitrate => rw [exec_init]; exact hostCommand_answers _ hp ⟨_, rfl⟩
  | tick => rw [exec_tick]; exact hostCommand_answers _ hp ⟨_, rfl⟩
  | enqueue m => exact hostCommand_answers true hp (enqueueCmd_answers m h.txGood)
  | getMessage => exact hostCommand_answers true hp (getMessage_answers h.msg)
  | setHandler hid => rw [exec_setHandler]; exact hostCommand_answers _ hp ⟨_, rfl⟩
  | checksum _ | consumeByte _ | deliver _ | enqueueDiag _ | pumpOneByte => exact absurd hhost Bool.false_ne_true

/-- The dispatch of any transaction, legal or not, from a good state at PHASE = IDLE (R180). -/
theorem command_answers (c : Transaction) {s : State} (h : Inv s) (hp : s.phase = .idle) :
    ∃ t, command c s = .next t := by
  unfold command
  cases hd : decode c with
  | error r => exact ⟨_, rfl⟩
  | ok i => exact exec_hostCommand_answers (decode_isHostCommand hd) h hp

/-- PHASE = IDLE: a command is accepted, or the sequencer waits (R193, R244). -/
theorem idleTurn_answers {s : State} (h : Inv s) (hp : s.phase = .idle) : ∃ t, idleTurn s = .next t := by
  cases hq : s.hostQ with
  | nil => exact ⟨s, by rw [idleTurn, hq]⟩
  | cons c rest =>
    rw [idleTurn_cons hq]
    exact command_answers c (h.withPorts s.chIn s.chCap rest s.chanQ s.responses) hp

/-- PHASE = RX: the loop reads only while a byte is there, and CONSUME_BYTE answers (R181, R182). -/
theorem rxTurn_answers {s : State} (h : Inv s) (hp : s.phase = .rx) : ∃ t, rxTurn s = .next t := by
  by_cases hgo : rxContinues s = true
  · obtain ⟨hne, hrun⟩ := rxContinues_eq_true.mp hgo
    obtain ⟨b, rest, hci⟩ := List.exists_cons_of_ne_nil hne
    obtain ⟨t, ht, -, -⟩ := consumeByte_good b (h.withPorts rest s.chCap s.hostQ s.chanQ s.responses) hp
    exact ⟨t, (rxTurn_reads hci hrun).trans (exec_consumeByte ht)⟩
  · exact ⟨s.endRx, if_neg hgo⟩

/-- PHASE = PUMP: the pump answers, and then the TICK (R181). -/
theorem pumpTurn_answers {s : State} (h : TxGood s) : ∃ t, pumpTurn s = .next t := by
  obtain ⟨out, q, off, tot, hpump, -⟩ := pump_good h
  exact ⟨_, by rw [pumpTurn, exec_pumpOneByte hpump]⟩

/-- A step of the sequencer, in each phase (R181). -/
theorem sequencerTurn_answers {s : State} (h : Inv s) : ∃ t, sequencerTurn s = .next t := by
  cases hp : s.phase with
  | idle => exact sequencerTurn_idle hp ▸ idleTurn_answers h hp
  | rx => exact sequencerTurn_rx hp ▸ rxTurn_answers h hp
  | pump => exact sequencerTurn_pump hp ▸ pumpTurn_answers h.txGood

/-- Settles O38: it holds; a move of the channel cannot fail, and in each phase the invariant gives the sequencer every
index, byte and difference that its turn asks for. -/
theorem goodStateNeverStops : Obligations.GoodStateNeverStops := by
  unfold Obligations.GoodStateNeverStops
  intro s hinv
  obtain ⟨u, hu, hs⟩ | ⟨moves, bs, -, hs⟩ | ⟨moves, n, -, hs⟩ := step_cases s
  · have hgood : Inv u := hu.eq ▸ hinv.withPorts s.chIn s.chCap s.hostQ u.chanQ s.responses
    exact hs ▸ sequencerTurn_answers hgood
  · exact ⟨_, hs⟩
  · exact ⟨_, hs⟩

/-! ## The report of a checksum mismatch (R123, R215) -/

/-- A mismatch report is its three ENQUEUE_DIAGs, run one after the other. -/
theorem execAll_of_reportMismatch {p : List Byte} {rx : Byte} {s t : State} (h : reportMismatch p rx s = .ok t) :
    execAll [.enqueueDiag s.params.badckNotice, .enqueueDiag (echoDiag p),
      .enqueueDiag (ckDiag s.params.ckFormat rx)] s = .next t := by
  obtain ⟨s1, h1, h⟩ := bind_eq_ok.mp h
  obtain ⟨s2, h2, h3⟩ := bind_eq_ok.mp h
  rw [execAll_cons (exec_enqueueDiag h1), execAll_cons (exec_enqueueDiag h2), execAll_cons (exec_enqueueDiag h3)]
  rfl

/-- TERM_B after a payload, a byte that is not its checksum, and TERM_A: the frame is closed by the mismatch report. -/
theorem consumeByte_reportsMismatch {s : State} {p : List Byte} {rx : Byte}
    (hf : FrameSoFar s (p ++ [rx, s.params.termA])) (hlt : s.rxI < s.params.C) (hck : s.cfgCk = true) (hne : p ≠ [])
    (hsum : checksum p ≠ rx) :
    consumeByte s.params.termB s
      = (reportMismatch p rx (storedState s s.params.termB)).map fun t => { t with rxI := 0 } := by
  have hi : s.rxI = p.length + 2 := by simpa using hf.index
  have hbody : FrameSoFar s ((p ++ [rx]) ++ [s.params.termA]) := by simpa using hf
  have hslice : (storedState s s.params.termB).rxSlice (p.length + 2) = .ok (p ++ [rx, s.params.termA]) := by
    simpa using rxSlice_append (r := [s.params.termB]) (hf.stored s.params.termB hlt)
  have hclose : closeFrame (p.length + 2) (storedState s s.params.termB)
      = reportMismatch p rx (storedState s s.params.termB) := (closeFrame_checked hslice hck hne).trans (if_neg hsum)
  rw [consumeByte_boundary hbody hlt, hi, hclose]

/-- Settles O30: it holds; the report's ENQUEUE_DIAGs write only `slots`, `qent` and `slotNext`. -/
theorem consumeByteReportsMismatch : Obligations.ConsumeByteReportsMismatch := by
  unfold Obligations.ConsumeByteReportsMismatch
  intro p rx s hinv hck hne hsum hf
  rw [← checksum_eq_ofNat] at hsum
  have hlt := hinv.rx.index
  have htx : TxGood (storedState s s.params.termB) := hinv.txGood.stored s.params.termB hlt s.rxI s.ovfTick
  obtain ⟨mem, q, n, hreport, -, hms⟩ := reportMismatch_good p rx htx
  have hconsume := consumeByte_reportsMismatch hf hlt hck hne hsum.symm
  rw [hreport] at hconsume
  exact ⟨(storedState s s.params.termB).rxBuf, _, exec_consumeByte hconsume, execAll_of_reportMismatch hreport,
    fun k hk => stored_load_other _ hk, stored_load_self _ hlt, rfl, rfl, rfl, rfl, rfl, hms⟩

/-! ## Bytes on the channel (R46, R160, R224) -/

/-- What a step from s to t does to the bytes on the channel: CH_OUT gets one byte from a PUMP micro-step at most, CH_IN
loses its oldest byte to an RX micro-step, or gets bytes from the channel. -/
def ChannelTraffic (s t : State) : Prop :=
  (t.chOut = s.chOut ∨
      (s.phase = .pump ∧ s.qent ≠ [] ∧ s.chCap ≠ 0 ∧ t.phase = .idle ∧ ∃ b, t.chOut = s.chOut ++ [b])) ∧
    ((∃ bs, t.chIn = s.chIn ++ bs) ∨ (s.phase = .rx ∧ ∃ b, s.chIn = b :: t.chIn))

/-- A step that moves no byte. -/
theorem ChannelTraffic.of_eq {s t : State} (hout : t.chOut = s.chOut) (hin : t.chIn = s.chIn) : ChannelTraffic s t :=
  ⟨.inl hout, .inl ⟨[], by rw [hin, List.append_nil]⟩⟩

/-- A host command moves no byte: TICK's arm is its entry alone (R180, R181). -/
theorem command_keepsChannel {c : Transaction} {s t : State} (h : command c s = .next t) :
    t.chOut = s.chOut ∧ t.chIn = s.chIn := by
  obtain ⟨st, rfl, -⟩ | ⟨ck, bitrate, -, rfl⟩ | ⟨-, -, rfl⟩ | ⟨m, st, mem, q, n, -, -, -, -, -, rfl⟩ |
    ⟨d, -, -, -, rfl⟩ | ⟨hid, -, -, rfl⟩ := command_cases h
  all_goals exact ⟨rfl, rfl⟩

/-- The PUMP micro-step writes one byte of the head entry, within the capacity, or nothing (R156, R160). -/
theorem pumpOneByte_channelTraffic {s t : State} (hp : s.phase = .pump) (h : pumpOneByte s = .ok t) :
    ChannelTraffic s (finishTick t) := by
  obtain rfl | ⟨e, rest, b, hq, hcap, rfl⟩ := pumpOneByte_eq_ok h
  · exact .of_eq rfl rfl
  · have hne : s.qent ≠ [] := hq ▸ List.cons_ne_nil e rest
    obtain ⟨q, off, tot, heq⟩ := advanceCursor_eq rest (txTotal s e) { s with chOut := s.chOut ++ [b] }
    rw [heq]
    exact ⟨.inr ⟨hp, hne, hcap, rfl, b, rfl⟩, .inl ⟨[], (List.append_nil _).symm⟩⟩

/-- A step of the sequencer, in each phase (R181). -/
theorem sequencerTurn_channelTraffic {s t : State} (h : sequencerTurn s = .next t) : ChannelTraffic s t := by
  obtain ⟨-, -, rfl⟩ | ⟨-, c, rest, -, hc⟩ | ⟨hp, -, b, rest, hci, hb⟩ | ⟨-, -, rfl⟩ | ⟨hp, s1, hs, rfl⟩ :=
    sequencerTurn_cases h
  · exact .of_eq rfl rfl
  · obtain ⟨hout, hin⟩ := command_keepsChannel hc
    exact .of_eq hout hin
  · obtain ⟨hrec, hrest⟩ := consumeByte_receives hb
    exact ⟨.inl hrec.chOut, .inr ⟨hp, b, hrest ▸ hci⟩⟩
  · exact .of_eq rfl rfl
  · exact pumpOneByte_channelTraffic hp hs

/-- Settles O44: it holds, by cases on whose turn it is and, at the sequencer's turn, on the phase. -/
theorem channelTrafficOnlyInsideTick : Obligations.ChannelTrafficOnlyInsideTick := by
  unfold Obligations.ChannelTrafficOnlyInsideTick
  intro s t h
  obtain ⟨u, hu, hs⟩ | ⟨moves, bs, -, hs⟩ | ⟨moves, n, -, hs⟩ := step_cases s
  · have htraffic : ChannelTraffic u t := sequencerTurn_channelTraffic (hs.symm.trans h)
    rw [hu.eq] at htraffic
    exact htraffic
  · obtain rfl := Host.Outcome.next.inj (hs.symm.trans h)
    exact ⟨.inl rfl, .inl ⟨bs, rfl⟩⟩
  · obtain rfl := Host.Outcome.next.inj (hs.symm.trans h)
    exact ChannelTraffic.of_eq rfl rfl

end Sys2Proof.Machine
end

section
/-! PROOFS. Reset and hazards (spec/70_reset_and_hazards.md): what power-on reset leaves (R240), waiting for a command
(R244), and steps that do not depend on unspecified values (R242). -/

namespace Sys2Proof.Machine

/-! ## Power-on reset (R240) -/

/-- Settles O36: it holds; power-on reset writes each of these elements. -/
theorem powerOnValues : Obligations.PowerOnValues := by
  unfold Obligations.PowerOnValues
  exact fun p => ⟨rfl, rfl, rfl, rfl, rfl, rfl, rfl, rfl, rfl, rfl, rfl⟩

/-- Power-on reset leaves no byte, frame, Message, entry or handler that the invariant could ask for. -/
theorem inv_powerOn {p : Params} (h : p.Legal) : Inv (State.powerOn p) := by
  have ⟨hC, _, hQ, _, _⟩ := h
  exact {
    legal := h
    memory := ⟨.nil, .nil, .nil, nofun, nofun, nofun⟩
    rx := ⟨Nat.zero_lt_of_lt hC, nofun⟩
    msg := ⟨Nat.zero_le _, nofun⟩
    queue := ⟨hQ, Nat.zero_le _, nofun, nofun, nofun⟩
    cursor := .inl ⟨rfl, rfl⟩
    phase := ⟨fun _ => ⟨rfl, rfl⟩, fun hp => absurd rfl hp, fun _ => ⟨rfl, rfl, rfl, rfl⟩⟩ }

/-- The free choices of C and Q are taken within R9's ranges. -/
theorem build_legal : Config.build.Legal := by
  have hC : Config.capacityChoice % 65534 < 65534 := Nat.mod_lt _ (by decide)
  have hQ : Config.slotsChoice % 65535 < 65535 := Nat.mod_lt _ (by decide)
  refine ⟨?_, ?_, ?_, ?_, rfl⟩ <;> simp only [Config.build] <;> omega

/-- The free choices of the notices are cut to C−1 bytes (D10). -/
theorem build_noticesFit : Config.build.NoticesFit := by
  have hcap : Config.build.C - 1 = 1 + Config.capacityChoice % 65534 := by
    simp only [Config.build]
    omega
  unfold Params.NoticesFit
  rw [hcap]
  exact ⟨List.length_take_le _ _, List.length_take_le _ _⟩

/-- Settles O35: it holds; what reset leaves is empty, and the parameters of `State.reset` are legal. -/
theorem resetIsGood : Obligations.ResetIsGood := by
  unfold Obligations.ResetIsGood
  exact ⟨fun p h => inv_powerOn h, inv_powerOn build_legal, build_noticesFit⟩

/-! ## Waiting for a command (R244) -/

theorem idleTurn_nil {s : State} (h : s.hostQ = []) : idleTurn s = .next s := by
  unfold idleTurn
  rw [h]

/-- Settles O14: it holds, since the turn at PHASE = IDLE finds no transaction at the port. -/
theorem idleSequencerWaits : Obligations.IdleSequencerWaits := by
  unfold Obligations.IdleSequencerWaits
  intro s u hacts hp hq
  have hhost : u.hostQ = [] := by rw [hacts.eq, ← hq]
  exact (step_idle hacts hp).trans (idleTurn_nil hhost)

/-! ## Two sides that answer alike (R242) -/

/-- When the first operation answers, so does the second, and R relates the answers. -/
def Follows {α : Type} (R : α → α → Prop) (x y : Except Fault α) : Prop :=
  ∀ a, x = .ok a → ∃ b, y = .ok b ∧ R a b

theorem Follows.ok {α : Type} {R : α → α → Prop} {a b : α} (h : R a b) : Follows R (.ok a) (.ok b) := by
  rintro _ ⟨⟩
  exact ⟨b, rfl, h⟩

/-- Two sequences of operations answer alike when their first operations do and the rest does from related answers. -/
theorem Follows.bind {α β : Type} {R : α → α → Prop} {R' : β → β → Prop} {x y : Except Fault α}
    {f g : α → Except Fault β} (hx : Follows R x y) (hf : ∀ a b, R a b → Follows R' (f a) (g b)) :
    Follows R' (x >>= f) (y >>= g) := by
  intro c hc
  obtain ⟨a, ha, hc⟩ := bind_eq_ok.mp hc
  obtain ⟨b, hb, hab⟩ := hx a ha
  obtain ⟨d, hd, hcd⟩ := hf a b hab c hc
  exact ⟨d, bind_eq_ok.mpr ⟨b, hb, hd⟩, hcd⟩

theorem Follows.mono {α : Type} {R R' : α → α → Prop} {x y : Except Fault α} (h : Follows R x y)
    (hR : ∀ a b, R a b → R' a b) : Follows R' x y := by
  intro a ha
  obtain ⟨b, hb, hab⟩ := h a ha
  exact ⟨b, hb, hR a b hab⟩

/-- When the first turn has a next state, so has the second, and the two differ only in what no rule reads. -/
def TurnFollows (x y : Host.Outcome State Fault Refusal) : Prop :=
  ∀ s', x = .next s' → ∃ t', y = .next t' ∧ SameLive s' t'

theorem TurnFollows.next {s t : State} (h : SameLive s t) : TurnFollows (.next s) (.next t) := by
  rintro _ ⟨⟩
  exact ⟨t, rfl, h⟩

theorem Follows.turnFollows {x y : Except Fault State} (h : Follows SameLive x y) :
    TurnFollows (outcome x) (outcome y) := by
  intro s' hs
  obtain ⟨t', ht, hlive⟩ := h s' (outcome_eq_next.mp hs)
  exact ⟨t', outcome_eq_next.mpr ht, hlive⟩

/-! ## ENQUEUE and CONSUME_BYTE, in the form that the simulation compares -/

/-- An accepted enqueue, with what the slots read afterwards (R151). -/
theorem enqueue_accepts_loads {s : State} {m : List Byte} (hq : QueueInv s) (hst : enqueueStatus s m = .ok) :
    ∃ mem, enqueue m s = .ok (.ok, acceptedState s m mem) ∧
      (∀ k (h : k < m.length), (acceptedState s m mem).slotLoad s.slotNext k = .ok m[k]) ∧
      (∀ q k, ¬(q = s.slotNext ∧ k < m.length) → (acceptedState s m mem).slotLoad q k = s.slotLoad q k) := by
  obtain ⟨mem, hdiag, hloads⟩ := enqueueDiag_accepts hq hst
  obtain ⟨st, henq⟩ := enqueueDiag_eq_ok.mp hdiag
  obtain rfl : st = .ok := (enqueue_cases henq).1.trans hst
  exact ⟨mem, henq, hloads⟩

/-- CONSUME_BYTE after its step 1, in terms of the state with the byte stored (R121). -/
theorem consumeByte_eq {s : State} (b : Byte) (hC : s.rxI < s.params.C) :
    consumeByte b s = isBoundary (storedState s b) s.rxI b >>= fun boundary =>
      if boundary then closeFrame s.rxI (storedState s b) >>= fun u => .ok { u with rxI := 0 }
      else if reachesCapacity s.params s.rxI then rxOverflow (storedState s b)
      else .ok { storedState s b with rxI := s.rxI + 1 } := by
  simp only [consumeByte, rxStore_storedState b hC]
  rfl

section
variable {s t : State} (h : SameLive s t)
include h

/-! ## What agrees in states with the same live contents -/

theorem SameLive.enqueueStatus_eq (m : List Byte) : enqueueStatus t m = enqueueStatus s m := by
  unfold enqueueStatus State.qsize
  rw [h.qent, h.params]

/-- The configuration is unspecified before INIT only (R49). -/
theorem SameLive.ckBit_eq (hi : s.initialized = true) : t.ckBit = s.ckBit := by
  unfold State.ckBit
  rw [(h.config hi).1]

/-- A handler's identifier is read only while it is registered (R132). -/
theorem SameLive.deliveryEvents_eq (p : List Byte) : deliveryEvents t p = deliveryEvents s p := by
  unfold deliveryEvents
  rw [h.handlerValid]
  split_ifs with hv
  · rw [h.handlerId hv]
  · rfl

/-- The queue's invariant speaks of live slot bytes only. -/
theorem SameLive.queueInv (hq : QueueInv s) : QueueInv t where
  next := by rw [h.slotNext, h.params]; exact hq.next
  size := by rw [State.qsize, h.qent, h.params]; exact hq.size
  occupancy := by rw [State.qsize, h.slotNext, h.qent, h.params]; exact hq.occupancy
  entryLen := by rw [h.qent, h.params]; exact hq.entryLen
  entryLive := fun e he k hk => by
    rw [h.qent] at he
    rw [h.slots e he k hk]
    exact hq.entryLive e he k hk

theorem SameLive.cursorInv (hi : s.initialized = true) (hc : CursorInv s) : CursorInv t := by
  unfold CursorInv
  rw [h.txOff, h.txTot, h.qent, h.ckBit_eq hi]
  exact hc

/-- A slice of the frame in progress (R26, R42). -/
theorem SameLive.rxSlice_follows {n : Nat} (hn : n ≤ s.rxI) :
    Follows (fun l l' => l' = l ∧ l.length = n) (s.rxSlice n) (t.rxSlice n) := by
  intro l hl
  obtain ⟨hlen, hload⟩ := rxSlice_eq_ok.mp hl
  refine ⟨l, rxSlice_eq_ok.mpr ⟨hlen, fun j hj => ?_⟩, rfl, hlen⟩
  rw [h.rxBuf j (by omega), hload j hj]

/-- The Message (R27). -/
theorem SameLive.msgRead_follows : Follows (fun d d' => d' = d) (s.msgRead s.msgLen) (t.msgRead t.msgLen) := by
  intro d hd
  obtain ⟨hlen, hload⟩ := msgRead_eq_ok.mp hd
  rw [h.msgLen]
  refine ⟨d, msgRead_eq_ok.mpr ⟨hlen, fun j hj => ?_⟩, rfl⟩
  rw [h.msgBuf j (hlen ▸ hj), hload j hj]

/-- The message of a live entry (R29). -/
theorem SameLive.slotRead_ok {e : QEntry} (he : e ∈ s.qent) (hslot : e.slot < s.params.Q) {m : List Byte}
    (hm : s.slotRead e.slot e.len = .ok m) : t.slotRead e.slot e.len = .ok m := by
  obtain ⟨hlen, hload⟩ := (slotRead_eq_ok hslot).mp hm
  refine (slotRead_eq_ok (h.params ▸ hslot)).mpr ⟨hlen, fun j hj => ?_⟩
  rw [h.slots e he j (hlen ▸ hj), hload j hj]

/-- The boundary test at index i reads the byte before it, one of the frame in progress (R84, R121). -/
theorem SameLive.isBoundary_follows {i : Nat} (hi : i ≤ s.rxI) (b : Byte) :
    Follows (fun v v' => v' = v ∧ (v = true → 0 < i)) (isBoundary s i b) (isBoundary t i b) := by
  have heq : isBoundary t i b = isBoundary s i b := by
    unfold isBoundary
    rw [h.params]
    split_ifs with hc
    · rw [h.rxBuf (i - 1) (by omega)]
    · rfl
  rw [heq]
  exact fun v hv => ⟨v, hv, rfl, fun htrue => (isBoundary_eq_true.mp (htrue ▸ hv)).1⟩

/-! ## Updates that keep the live contents the same -/

theorem SameLive.respond (st : Status) (ready : Bool) (len : Nat) (data : List Byte) :
    SameLive (s.respond st ready len data) (t.respond st ready len data) :=
  { h with responses := by rw [State.respond_responses, State.respond_responses, h.responses] }

theorem SameLive.answer (st : Status) : SameLive (s.answer st) (t.answer st) := h.respond st false 0 []

/-- INIT gives every live element a value; HANDLER_ID is free, and no handler is registered (R49, R196). -/
theorem SameLive.initialise (ck : Bool) (bitrate : Word) :
    SameLive (s.initialise ck bitrate) (t.initialise ck bitrate) :=
  { h with
    initialized := rfl, config := fun _ => ⟨rfl, rfl⟩, handlerValid := rfl, handlerId := nofun
    rxI := rfl, rxBuf := nofun, msgLen := rfl, msgBuf := nofun, ready := rfl
    qent := rfl, slots := nofun, slotNext := rfl, txOff := rfl, txTot := rfl, ovfTick := rfl }

theorem SameLive.withHandler (hid : Half) :
    SameLive { s with handlerValid := true, handlerId := hid } { t with handlerValid := true, handlerId := hid } :=
  { h with handlerValid := rfl, handlerId := fun _ => rfl }

theorem SameLive.enterTick : SameLive s.enterTick t.enterTick := { h with ovfTick := rfl, phase := rfl }

theorem SameLive.endRx : SameLive s.endRx t.endRx := { h with phase := rfl }

theorem SameLive.endTick : SameLive (finishTick s) (finishTick t) := by
  have hleave : SameLive s.leaveTick t.leaveTick := { h with ready := rfl, ovfTick := rfl, phase := rfl }
  unfold finishTick
  rw [h.ready]
  exact hleave.respond .ok s.ready 0 []

/-- With RX_I at 0 no byte of RX_BUF is live (R42). -/
theorem SameLive.endFrame : SameLive { s with rxI := 0 } { t with rxI := 0 } := { h with rxI := rfl, rxBuf := nofun }

/-- The byte stored at RX_I is not live yet (R26). -/
theorem SameLive.stored (b : Byte) : SameLive (storedState s b) (storedState t b) :=
  { h with
    rxBuf := fun k hk => by
      have hne : k ≠ s.rxI := Nat.ne_of_lt hk
      rw [stored_load_other b hne, stored_load_other b (h.rxI ▸ hne), h.rxBuf k hk] }

/-- Advancing RX_I makes the byte just stored live (R26, R121). -/
theorem SameLive.extended (b : Byte) (hi : s.rxI < s.params.C) :
    SameLive { storedState s b with rxI := s.rxI + 1 } { storedState t b with rxI := t.rxI + 1 } :=
  { h.stored b with
    rxI := congrArg (· + 1) h.rxI
    rxBuf := fun k hk => by
      obtain hlt | rfl := Nat.lt_succ_iff_lt_or_eq.mp hk
      · exact (h.stored b).rxBuf k hlt
      · have ht : t.rxI < t.params.C := by rw [h.rxI, h.params]; exact hi
        have hself : (storedState t b).rxLoad s.rxI = .ok b := h.rxI ▸ stored_load_self b ht
        exact hself.trans (stored_load_self b hi).symm }

/-- The state DELIVER leaves: the live bytes of MSG_BUF are those of the payload (R27, R132). -/
theorem SameLive.delivered (p : List Byte) {mem mem' : Memory}
    (hs : ∀ k (hk : k < p.length), ({ s with msgBuf := mem } : State).msgLoad k = .ok p[k])
    (ht : ∀ k (hk : k < p.length), ({ t with msgBuf := mem' } : State).msgLoad k = .ok p[k]) :
    SameLive (deliveredState s p mem) (deliveredState t p mem') :=
  { h with
    msgLen := rfl, ready := rfl
    msgBuf := fun k hk => (ht k hk).trans (hs k hk).symm
    deliv := by rw [deliveredState, deliveredState, h.deliv, h.deliveryEvents_eq p] }

/-! ## Operations -/

/-- DELIVER (R132). -/
theorem SameLive.deliver_follows {p : List Byte} (hp : p.length + 2 ≤ s.params.C) :
    Follows SameLive (deliver p s) (deliver p t) := by
  obtain ⟨mem, heq, hnew, -⟩ := deliver_loads hp
  obtain ⟨mem', heq', hnew', -⟩ := deliver_loads (s := t) (h.params ▸ hp)
  rw [heq, heq']
  exact .ok (h.delivered p hnew hnew')

/-! ## The transmit queue -/

/-- An enqueue: the live entries keep their bytes, which stand in other slots, and a new entry has those of its message
(R34, R151). -/
theorem SameLive.enqueue_follows (hq : QueueInv s) (m : List Byte) :
    Follows (fun r r' => r'.1 = r.1 ∧ SameLive r.2 r'.2) (enqueue m s) (enqueue m t) := by
  by_cases hst : enqueueStatus s m = .ok
  · obtain ⟨mem, heq, hnew, hkeep⟩ := enqueue_accepts_loads hq hst
    obtain ⟨mem', heq', hnew', hkeep'⟩ :=
      enqueue_accepts_loads (h.queueInv hq) ((h.enqueueStatus_eq m).trans hst)
    rw [h.slotNext] at hnew' hkeep'
    rw [heq, heq']
    refine .ok ⟨rfl, { h with qent := ?qent, slotNext := ?slotNext, slots := fun e he k hk => ?slots }⟩
    case qent => rw [acceptedState, acceptedState, h.qent, h.slotNext]
    case slotNext => rw [acceptedState, acceptedState, h.slotNext, h.params]
    case slots =>
      obtain he | he := List.mem_append.mp he
      · have hne := (live_slot_ne_next hq (enqueueStatus_eq_ok.mp hst).1 he).2
        have hother : ¬(e.slot = s.slotNext ∧ k < m.length) := fun hc => hne hc.1
        rw [hkeep _ k hother, hkeep' _ k hother, h.slots e he k hk]
      · obtain rfl := List.mem_singleton.mp he
        exact (hnew' k hk).trans (hnew k hk).symm
  · rw [enqueue_refused hst, enqueue_refused (h.enqueueStatus_eq m ▸ hst)]
    exact .ok ⟨h.enqueueStatus_eq m, h⟩

/-- ENQUEUE_DIAG (R133). -/
theorem SameLive.enqueueDiag_follows (hq : QueueInv s) (m : List Byte) :
    Follows (fun u v => QueueInv u ∧ SameLive u v) (enqueueDiag m s) (enqueueDiag m t) := by
  intro u hu
  obtain ⟨v, hv, hlive⟩ := (h.enqueue_follows hq m).bind (fun _ _ hr => Follows.ok hr.2) u hu
  exact ⟨v, hv, (enqueueDiag_appends hu hq).1, hlive⟩

/-- The three diagnostics of a mismatch (R215). -/
theorem SameLive.reportMismatch_follows (hq : QueueInv s) (p : List Byte) (rx : Byte) :
    Follows SameLive (reportMismatch p rx s) (reportMismatch p rx t) := by
  unfold reportMismatch
  rw [h.params]
  refine (h.enqueueDiag_follows hq _).bind fun s1 t1 ⟨hq1, h1⟩ => ?_
  refine (h1.enqueueDiag_follows hq1 _).bind fun s2 t2 ⟨hq2, h2⟩ => ?_
  exact (h2.enqueueDiag_follows hq2 _).mono fun _ _ h3 => h3.2

/-- An effective pump: the entries left are live entries of before (R156, R159). -/
theorem SameLive.pumped (hi : s.initialized = true) {e : QEntry} {rest : List QEntry} (hqent : s.qent = e :: rest)
    (b : Byte) : SameLive (pumpedState s e rest b) (pumpedState t e rest b) := by
  have hout : t.chOut ++ [b] = s.chOut ++ [b] := congrArg (· ++ [b]) h.chOut
  unfold pumpedState advanceCursor
  simp only [h.txOff, h.ckBit_eq hi]
  split_ifs
  · exact { h with
      qent := rfl, txOff := rfl, txTot := rfl, chOut := hout
      slots := fun e' he' => h.slots e' (hqent ▸ List.mem_cons_of_mem e he') }
  · exact { h with txOff := rfl, txTot := rfl, chOut := hout }

/-- PUMP_ONE_BYTE sends a byte of the head message's wire frame, which is live (R156, R157). -/
theorem SameLive.pumpOneByte_follows (hi : s.initialized = true) (hq : QueueInv s) (hc : CursorInv s) :
    Follows SameLive (pumpOneByte s) (pumpOneByte t) := by
  by_cases hno : s.qent = [] ∨ s.chCap = 0
  · rw [pump_noop hno, pump_noop (by rwa [h.qent, h.chCap])]
    exact .ok h
  · obtain ⟨hne, hcap⟩ := not_or.mp hno
    obtain ⟨e, rest, hqent⟩ := List.exists_cons_of_ne_nil hne
    have he : e ∈ s.qent := by simp [hqent]
    have hslot := live_slot_lt hq he
    obtain ⟨ms, hms⟩ := exists_queued hq
    unfold Queued at hms
    rw [hqent] at hms
    obtain ⟨m, -, ⟨-, hm⟩, -, -⟩ := List.forall₂_cons_left_iff.mp hms
    obtain ⟨b, hpump, hb⟩ := pump_effective hc hqent hcap hslot hm
    obtain ⟨b', hpump', hb'⟩ := pump_effective (h.cursorInv hi hc) (h.qent.trans hqent) (h.chCap ▸ hcap)
      (h.params ▸ hslot) (h.slotRead_ok he hslot hm)
    rw [h.params, (h.config hi).1, h.txOff, hb] at hb'
    obtain rfl := Option.some.inj hb'
    rw [hpump, hpump']
    exact .ok (h.pumped hi hqent b)

/-! ## The receive path -/

/-- The end of a frame at index i reads bytes below i (R121 step 2). -/
theorem SameLive.closeFrame_follows (hi : s.initialized = true) (hq : QueueInv s) {i : Nat} (hrx : i ≤ s.rxI)
    (hpos : 0 < i) (hC : i < s.params.C) : Follows SameLive (closeFrame i s) (closeFrame i t) := by
  unfold closeFrame
  rw [(h.config hi).1]
  split_ifs with hck
  · obtain ⟨-, hlong⟩ : s.cfgCk = true ∧ 2 < i := by simpa [checkedPath] using hck
    rw [h.rxBuf (i - 2) (by omega)]
    refine Follows.bind (R := fun a b => b = a) (fun a ha => ⟨a, ha, rfl⟩) ?_
    rintro _ rx rfl
    refine (h.rxSlice_follows (n := i - 2) (by omega)).bind ?_
    rintro _ p ⟨rfl, hp⟩
    split_ifs
    · exact h.deliver_follows (by omega)
    · exact h.reportMismatch_follows hq p rx
  · refine (h.rxSlice_follows (n := i - 1) (by omega)).bind ?_
    rintro _ p ⟨rfl, hp⟩
    exact h.deliver_follows (by omega)

/-- RxOverflow: the frame in progress is discarded, and the notice is enqueued (R125, R214). -/
theorem SameLive.rxOverflow_follows (hq : QueueInv s) : Follows SameLive (rxOverflow s) (rxOverflow t) := by
  have hreset : SameLive { s with rxI := 0, ovfTick := true } { t with rxI := 0, ovfTick := true } :=
    { h.endFrame with ovfTick := rfl }
  unfold rxOverflow
  rw [congrArg Params.overflowNotice h.params]
  exact (hreset.enqueueDiag_follows { hq with } s.params.overflowNotice).mono fun _ _ hr => hr.2

/-- CONSUME_BYTE reads only bytes of the frame in progress, and the byte it stores (R42, R121). -/
theorem SameLive.consumeByte_follows (hi : s.initialized = true) (hq : QueueInv s) (hC : s.rxI < s.params.C)
    (b : Byte) : Follows SameLive (consumeByte b s) (consumeByte b t) := by
  have hstored := h.stored b
  have hqueue : QueueInv (storedState s b) := { hq with }
  have hadvanced := h.extended b hC
  rw [consumeByte_eq b hC, consumeByte_eq b (by rwa [h.rxI, h.params])]
  rw [h.rxI] at hadvanced ⊢
  rw [h.params]
  refine (hstored.isBoundary_follows (Nat.le_refl s.rxI) b).bind ?_
  rintro boundary _ ⟨rfl, hpos⟩
  split_ifs with hb hcap
  · refine (hstored.closeFrame_follows hi hqueue (Nat.le_refl s.rxI) (hpos hb) hC).bind ?_
    exact fun u v huv => .ok huv.endFrame
  · exact hstored.rxOverflow_follows hqueue
  · exact .ok hadvanced

/-! ## Host commands -/

/-- A host command behind the checks of `hostCommand` (R180, R191). -/
theorem SameLive.hostCommand_follows (needs : Bool) {body : State → Except Fault State}
    (hbody : (needs = true → s.initialized = true) → Follows SameLive (body s) (body t)) :
    TurnFollows (hostCommand needs s body) (hostCommand needs t body) := by
  intro s' hs
  obtain ⟨hp, ⟨hneeds, hi, rfl⟩ | ⟨hi, hs⟩⟩ := hostCommand_eq_next.mp hs
  · exact ⟨_, hostCommand_eq_next.mpr ⟨h.phase.trans hp, .inl ⟨hneeds, h.initialized.trans hi, rfl⟩⟩, h.answer _⟩
  · obtain ⟨t', ht, hlive⟩ := hbody hi s' hs
    exact ⟨t', hostCommand_eq_next.mpr ⟨h.phase.trans hp, .inr ⟨fun hn => h.initialized.trans (hi hn), ht⟩⟩, hlive⟩

/-- Every host command: ENQUEUE looks at the queue, GET_MESSAGE at the Message, and the others read no memory. -/
theorem SameLive.exec_follows {i : Instr} (hhost : i.isHostCommand = true) (hq : QueueInv s) :
    TurnFollows (exec i s) (exec i t) := by
  cases i with
  | init ck bitrate =>
    rw [exec_init, exec_init]
    exact h.hostCommand_follows _ fun _ => .ok ((h.initialise ck bitrate).answer .ok)
  | tick =>
    rw [exec_tick, exec_tick]
    exact h.hostCommand_follows _ fun _ => .ok h.enterTick
  | enqueue m =>
    refine h.hostCommand_follows true fun _ => (h.enqueue_follows hq m).bind ?_
    rintro ⟨_, u⟩ ⟨st, v⟩ ⟨rfl, huv⟩
    exact .ok (huv.answer st)
  | getMessage =>
    refine h.hostCommand_follows true fun _ => h.msgRead_follows.bind ?_
    rintro _ d rfl
    rw [h.msgLen]
    exact .ok (h.respond .ok false s.msgLen d)
  | setHandler hid =>
    rw [exec_setHandler, exec_setHandler]
    exact h.hostCommand_follows _ fun _ => .ok ((h.withHandler hid).answer .ok)
  | checksum _ | consumeByte _ | deliver _ | enqueueDiag _ | pumpOneByte => exact absurd hhost Bool.false_ne_true

/-- The dispatch of a transaction, legal or not (R180). -/
theorem SameLive.command_follows (hq : QueueInv s) (c : Transaction) : TurnFollows (command c s) (command c t) := by
  unfold command
  cases hd : decode c with
  | error r => exact .next (h.answer .illegalCommand)
  | ok i => exact h.exec_follows (decode_isHostCommand hd) hq

/-! ## Turns and steps -/

/-- PHASE = IDLE (R193, R244). -/
theorem SameLive.idleTurn_follows (hq : QueueInv s) : TurnFollows (idleTurn s) (idleTurn t) := by
  cases hh : s.hostQ with
  | nil =>
    rw [idleTurn_nil hh, idleTurn_nil (h.hostQ.trans hh)]
    exact .next h
  | cons c rest =>
    rw [idleTurn_cons hh, idleTurn_cons (h.hostQ.trans hh)]
    have htaken : SameLive { s with hostQ := rest } { t with hostQ := rest } := { h with hostQ := rfl }
    exact htaken.command_follows { hq with } c

/-- PHASE = RX (R181, R182). -/
theorem SameLive.rxTurn_follows (hinv : Inv s) (hi : s.initialized = true) : TurnFollows (rxTurn s) (rxTurn t) := by
  have hcont : rxContinues t = rxContinues s := by
    unfold rxContinues
    rw [h.chIn, h.params, h.ovfTick]
  by_cases hgo : rxContinues s = true
  · obtain ⟨hne, hrun⟩ := rxContinues_eq_true.mp hgo
    obtain ⟨-, hrun'⟩ := rxContinues_eq_true.mp (hcont.trans hgo)
    obtain ⟨b, rest, hci⟩ := List.exists_cons_of_ne_nil hne
    have hread : SameLive { s with chIn := rest } { t with chIn := rest } := { h with chIn := rfl }
    rw [rxTurn_reads hci hrun, rxTurn_reads (h.chIn.trans hci) hrun']
    exact (hread.consumeByte_follows hi { hinv.queue with } hinv.rx.index b).turnFollows
  · rw [rxTurn, if_neg hgo, rxTurn, if_neg (hcont ▸ hgo)]
    exact .next h.endRx

/-- PHASE = PUMP (R181). -/
theorem SameLive.pumpTurn_follows (hinv : Inv s) (hi : s.initialized = true) :
    TurnFollows (pumpTurn s) (pumpTurn t) := by
  obtain ⟨out, q, off, tot, hpump, -⟩ := pump_good hinv.txGood
  obtain ⟨t', hpump', hlive⟩ := h.pumpOneByte_follows hi hinv.queue hinv.cursor _ hpump
  rw [pumpTurn, exec_pumpOneByte hpump, pumpTurn, exec_pumpOneByte hpump']
  exact .next hlive.endTick

/-- A step of the sequencer, in each phase (R181); outside of IDLE the block is initialised (R191). -/
theorem SameLive.sequencerTurn_follows (hinv : Inv s) : TurnFollows (sequencerTurn s) (sequencerTurn t) := by
  cases hp : s.phase with
  | idle =>
    rw [sequencerTurn_idle hp, sequencerTurn_idle (h.phase.trans hp)]
    exact h.idleTurn_follows hinv.queue
  | rx =>
    rw [sequencerTurn_rx hp, sequencerTurn_rx (h.phase.trans hp)]
    exact h.rxTurn_follows hinv (hinv.phase.busy (by simp [hp]))
  | pump =>
    rw [sequencerTurn_pump hp, sequencerTurn_pump (h.phase.trans hp)]
    exact h.pumpTurn_follows hinv (hinv.phase.busy (by simp [hp]))

/-- A step of the sequencer or of the channel (R228). -/
theorem SameLive.step_follows (hinv : Inv s) : TurnFollows (step s) (step t) := by
  unfold step turn
  rw [h.chanQ]
  split
  · exact h.sequencerTurn_follows hinv
  · next moves _ =>
    have hpassed : SameLive { s with chanQ := moves } { t with chanQ := moves } := { h with chanQ := rfl }
    exact hpassed.sequencerTurn_follows (hinv.withPorts s.chIn s.chCap s.hostQ moves s.responses)
  · exact .next { h with chanQ := rfl, chIn := congrArg (· ++ _) h.chIn }
  · exact .next { h with chanQ := rfl, chCap := rfl }

end

/-- Settles O54: it holds, by a simulation: each operation of a step reads live contents only, and leaves the same live
contents; the second state's own invariant is not needed. -/
theorem staleContentsNeverObserved : Obligations.StaleContentsNeverObserved := by
  unfold Obligations.StaleContentsNeverObserved
  exact fun s t s' hinv _ h hs => h.step_follows hinv s' hs

end Sys2Proof.Machine
end
